-- ==== Sys2Proof/Word.lean ====
section
/-! DEFINITION. The word types of the SPE (00_scope.md R9, R10): a register value, a byte, a symbol and a code. -/

namespace Sys2Proof

/-- A 32-bit register value or a 32-bit host address (R7, R9). -/
abbrev Word := BitVec 32

/-- A byte of host memory (R9). -/
abbrev Byte := BitVec 8

/-- A symbol of an alphabet, a byte in [0, 128) (R7, R35). -/
abbrev Symbol := BitVec 7

/-- A code, an index in the alphabet; six bits hold the codes of every width (R14, R36). -/
abbrev Code := BitVec 6

end Sys2Proof
end

