-- ==== Sys2Proof/Config.lean ====
section
/-! DEFINITION. The parameters of the SPE (00_scope.md R7): the values this hardware takes, the parameters the spec leaves
OPEN as constants without a body, and the values the assumption log names. -/

namespace Sys2Proof.Config

/-- How a key byte at or above 0x80 compares with a symbol (R7, `KEY_ORDER`). -/
inductive KeyOrder where
  | unsigned
  | signed
  deriving DecidableEq, Repr

/-- `MAX_LEN`, the largest length a command accepts (R7). -/
def maxLen : Nat := 2 ^ 31 - 1

/-- `ADDR_W` is 32: host addresses are below this bound (R7, R50). -/
def addressSpace : Nat := 2 ^ 32

/-- The size of the register block in bytes (R21). -/
def blockSize : Nat := 0x200

/-- The constant the ID register reads as (R33). -/
def idValue : Word := 0x53504501#32

/-- `KEY_ORDER`: the SPE takes UNSIGNED (R7, R162). Log 6. -/
def keyOrder : KeyOrder := .unsigned

/-- `LENIENT_UNMAPPED_CODE`: the SPE takes 0 (R7, R122). Log 6. -/
def lenientUnmappedCode : Code := 0#6

/-- The default list for W = 4 in code order (R102). -/
def defaultSymbols4 : List Byte :=
  [0x30#8, 0x31#8, 0x32#8, 0x33#8, 0x34#8, 0x35#8, 0x36#8, 0x37#8,
   0x38#8, 0x39#8, 0x3B#8, 0x23#8, 0x2D#8, 0x2B#8, 0x2E#8, 0x2C#8]

/-- FREE VALUE, OPEN parameter: the bytes [0, 128) in some order; `DEFAULT_SYMBOLS_5` is its first 32 (R7, R102). A reordering
of the 7-bit bytes is exactly what makes each choice a valid alphabet (R100), and every valid list arises so. Log 4. -/
opaque defaultOrder5 : Equiv.Perm (Fin 128)

/-- FREE VALUE, OPEN parameter: `DEFAULT_SYMBOLS_6` is its first 64 (R7, R102). Log 4. -/
opaque defaultOrder6 : Equiv.Perm (Fin 128)

/-- FREE VALUE: what a byte holds after a reset abandoned a command that could have written it (R233). The first argument
counts the free values taken so far, the second is the address. Log 5. -/
opaque freeByte : Nat → Nat → Byte

/-- What a byte of host memory that no entry lists reads as. DESIGN CHOICE, log 2. -/
def unwrittenByte : Byte := 0x00#8

/-- `BASE` in the reset state. The spec leaves BASE OPEN (R7). DESIGN CHOICE, log 3. -/
def resetBase : Word := 0x40000000#32

/-- What a host temporary that no line has written holds. DESIGN CHOICE, log 11. -/
def unwrittenTemp : Word := 0#32

end Sys2Proof.Config
end

