-- ==== Sys2Proof/Syntax.lean ====
section
/-! DEFINITION. The commands of the SPE (30_encoding.md R85), one constructor per row of the opcode table. -/

namespace Sys2Proof

/-- A command with its options (R84, R87 to R89). Every other operand of a command is an operand register (R90). -/
inductive Instr where
  /-- CONFIG: load and check an alphabet; WSEL, STRICT, PRESERVE and DEFAULT are its options (R87, R101). -/
  | config (wsel : BitVec 2) (strict preserve dflt : Bool)
  /-- PACK: encode and pack a plain string (R124). -/
  | pack
  /-- UNPACK: unpack a packed buffer (R127). -/
  | unpack
  /-- SEARCH: exact binary search, NULLTOL its option (R88, R172). -/
  | search (nulltol : Bool)
  /-- PSEARCH: prefix binary search, NULLTOL its option (R88, R173). -/
  | psearch (nulltol : Bool)
  /-- CMP: exact comparison of one packed buffer with a key (R166). -/
  | cmp
  /-- PCMP: prefix comparison of one packed buffer with a key (R167). -/
  | pcmp
  deriving DecidableEq, Repr

end Sys2Proof
end

