-- ==== Sys2Proof/Machine/State.lean ====
section
/-! DEFINITION. The state of the machine as plain data: the SPE's registers and tables (10_state.md R20 to R39), the host
memory, the platform's parameters, the host program, the other SPEs, and who moves next. -/

namespace Sys2Proof.Machine

/-- The symbol width, W = 4, 5 or 6 (R7, R24). -/
inductive Width where
  | w4
  | w5
  | w6
  deriving DecidableEq, Repr

/-- The fields of CFG (R24). WSEL holds 0, 1 or 2 only, so it is a width. -/
structure Cfg where
  width : Width
  strict : Bool
  preserve : Bool
  deriving DecidableEq, Repr

/-- The fault codes of R200; codes 11 to 15 are never raised. -/
inductive FaultCode where
  | noFault
  | illegalCmd
  | notConfigured
  | configError
  | unsupportedChar
  | dstOverflow
  | malformed
  | busError
  | lengthError
  | absentElement
  | overlap
  deriving DecidableEq, Repr

/-- The fields of STATUS (R25). BUSY is the engine phase (R39); CFG_OK is the configured bit (R38). Log 15. -/
structure Status where
  busy : Bool
  done : Bool
  err : Bool
  cfgOk : Bool
  errCode : FaultCode
  errSub : BitVec 8
  deriving DecidableEq, Repr

/-- A fault of a command, `Fault(CODE, SUB, VAL, POS)` (R12). -/
structure SpeFault where
  code : FaultCode
  sub : BitVec 8
  val : Nat
  pos : Nat
  deriving DecidableEq, Repr

/-- The `len` bytes at addresses `base` to `base + len - 1` (R54); addresses do not wrap. -/
structure Range where
  base : Nat
  len : Nat
  deriving DecidableEq, Repr

/-- The platform's parameters (R7, R235): BASE, and ADMIT as the ranges on which it is false beside the register block.
Any predicate on 32-bit addresses is such a list. Log 3. -/
structure Platform where
  base : Word
  denied : List Range
  deriving DecidableEq, Repr

/-- A register of the block (R21). -/
inductive Reg where
  | cmd
  | status
  | cfg
  | result
  | srcAddr
  | srcLen
  | dstAddr
  | dstCap
  | keyAddr
  | keyLen
  | colAddr
  | colLen
  | errVal
  | errPos
  | ident
  | symtab (i : Fin 64)
  deriving DecidableEq, Repr

/-- A host expression (R93); a temporary is named by a number. In `bit t i`, t[i] of R93, the index is an expression too. -/
inductive Expr where
  | lit (v : Word)
  | temp (t : Nat)
  | bit (t : Nat) (i : Expr)
  | add (a b : Expr)
  | sub (a b : Expr)
  | and (a b : Expr)
  | shl (a b : Expr)
  | shr (a b : Expr)
  deriving DecidableEq, Repr

/-- A relation of a host `if` line, on unsigned 32-bit values (R93). -/
inductive Relation where
  | eq
  | ne
  | lt
  | ge
  deriving DecidableEq, Repr

/-- A line of a host program (R93); a jump names the number of the line it goes to. -/
inductive HostLine where
  | wr (r : Reg) (v : Expr)
  | rd (r : Reg) (t : Nat)
  | issue (i : Instr)
  | ldb (t : Nat) (addr : Expr)
  | stb (addr v : Expr)
  | set (t : Nat) (e : Expr)
  | ifGoto (a : Expr) (rel : Relation) (b : Expr) (target : Nat)
  | goto (target : Nat)
  | halt
  deriving DecidableEq, Repr

/-- The host program, the line it executes next, and its temporaries in canonical form: numbers strictly rising, no entry
equal to what an unlisted temporary holds. Log 11. -/
structure HostState where
  program : List HostLine
  line : Nat
  temps : List (Nat × Word)
  deriving DecidableEq, Repr

/-- The ranges a command in flight reads and the ranges it writes (R240, R241). -/
structure Footprint where
  reads : List Range
  writes : List Range
  deriving DecidableEq, Repr

/-- An access by a host agent outside the host program (R22, R213): a register access at an offset of the block with its
width in bytes, or an access to one byte of host memory. -/
inductive Access where
  | regRead (offset : BitVec 9) (width : Nat)
  | regWrite (offset : BitVec 9) (width : Nat) (v : Word)
  | memRead (addr : Word)
  | memWrite (addr : Word) (b : Byte)
  deriving DecidableEq, Repr

/-- Who takes a step (R61). Log 1. -/
inductive Turn where
  /-- The engine may perform the command in flight (R41). -/
  | engine
  /-- The host program executes its next line (R93). -/
  | host
  /-- A host agent makes an access of its own (R213). -/
  | access (a : Access)
  /-- The platform applies reset (R230, R233). -/
  | reset
  /-- Another SPE issues a command with these ranges (R241). Log 9. -/
  | peerIssue (p : Footprint)
  /-- Another SPE performs the command that stands at `k` and writes these bytes of its ranges (R211, R241). Log 9. -/
  | peerPerform (k : Nat) (bytes : List (Word × Byte))
  deriving DecidableEq, Repr

/-- Why the machine stops: the model faults of R209, behaviours of the host or of the platform to which the spec gives no
meaning. No register shows one and no command raises one. Each is safe: nothing is claimed of what follows. -/
inductive Fault where
  /-- The host writes a byte of a range of a command in flight (R209, R240). Raised by a host write to memory. Safe. -/
  | hostRace
  /-- Commands in flight on two SPEs conflict (R209, R241). Raised by the issue of the later one. Safe. -/
  | instanceRace
  /-- A host access to the register block that is not an aligned 32-bit access (R22, R209). Safe. -/
  | badAccess
  deriving DecidableEq, Repr

/-- What the model refuses. -/
inductive Refusal where
  /-- An instruction without a meaning yet; raised by an arm of `exec` only. Safe. No arm of this model raises it. -/
  | notModelled (mnemonic : String)
  deriving DecidableEq, Repr

/-- Host memory (R50): entries in canonical form, addresses strictly rising and no entry equal to what an unlisted address
reads as. Log 2. -/
abbrev Memory := List Host.Cell

structure State where
  /-- CMD: the last value that issued a command (R23). -/
  cmd : Word
  /-- STATUS (R25) with the engine phase (R39) and the configured bit (R38). -/
  status : Status
  /-- CFG (R24). -/
  cfg : Cfg
  /-- RESULT (R26). -/
  result : Word
  /-- SRC_ADDR (R27). -/
  srcAddr : Word
  /-- SRC_LEN (R27). -/
  srcLen : Word
  /-- DST_ADDR (R28). -/
  dstAddr : Word
  /-- DST_CAP (R28). -/
  dstCap : Word
  /-- KEY_ADDR (R29). -/
  keyAddr : Word
  /-- KEY_LEN (R29). -/
  keyLen : Word
  /-- COL_ADDR (R30). -/
  colAddr : Word
  /-- COL_LEN (R30). -/
  colLen : Word
  /-- ERR_VAL (R31). -/
  errVal : Word
  /-- ERR_POS (R32). -/
  errPos : Word
  /-- SYM (R35). -/
  sym : Vector Symbol 64
  /-- CODEOF (R36); `none` is UNMAPPED. -/
  codeOf : Vector (Option Code) 128
  /-- CMD_LATCH (R39). -/
  cmdLatch : Word
  /-- Host memory (R50). -/
  mem : Memory
  /-- BASE and ADMIT (R7). -/
  platform : Platform
  /-- The host program (R93). -/
  host : HostState
  /-- Commands in flight on other SPEs (R241). The model's own field. Log 9. -/
  peers : List Footprint
  /-- Who takes the next steps. The model's own field. Log 1. -/
  turns : List Turn
  /-- The last value an access outside the host program read. The model's own field. Log 10. -/
  busData : Word
  /-- How many free values have been taken. The model's own field. Log 5. -/
  freeCount : Nat
  deriving DecidableEq, Repr

/-- CFG after reset, 0x00000000 (R24). -/
def Cfg.reset : Cfg := { width := .w4, strict := false, preserve := false }

/-- STATUS after reset, 0x00000000 (R25, R231). -/
def Status.reset : Status :=
  { busy := false, done := false, err := false, cfgOk := false, errCode := .noFault, errSub := 0#8 }

/-- SYM after reset (R231), and after a failed CONFIG (R109). -/
def clearedSym : Vector Symbol 64 := Vector.replicate 64 0#7

/-- CODEOF after reset (R231), and after a failed CONFIG (R109). -/
def clearedCodeOf : Vector (Option Code) 128 := Vector.replicate 128 none

/-- The machine right after reset: the registers and tables as R230 and R231 give them; the rest as the log names it (logs
1, 2, 3, 5, 9, 10 and 11). -/
def State.reset : State :=
  { cmd := 0#32
    status := Status.reset
    cfg := Cfg.reset
    result := 0#32
    srcAddr := 0#32
    srcLen := 0#32
    dstAddr := 0#32
    dstCap := 0#32
    keyAddr := 0#32
    keyLen := 0#32
    colAddr := 0#32
    colLen := 0#32
    errVal := 0#32
    errPos := 0#32
    sym := clearedSym
    codeOf := clearedCodeOf
    cmdLatch := 0#32
    mem := []
    platform := { base := Config.resetBase, denied := [] }
    host := { program := [], line := 0, temps := [] }
    peers := []
    turns := []
    busData := 0#32
    freeCount := 0 }

end Sys2Proof.Machine
end

