-- ==== Sys2Proof/Machine/Ops.lean ====
section
/-! DEFINITION. The shared operations: host memory (20_memory.md), ranges and admission (R54 to R56), the completion of a
command (10_state.md R42), FAULT ENTRY (60_exceptions.md R205) and what clears it (R40, R208). -/

namespace Sys2Proof.Machine

section Table
variable {α : Type}

/-- What a sparse table in canonical form holds at a key; `d` is what an unlisted key holds. -/
def tableRead (d : α) : List (Nat × α) → Nat → α
  | [], _ => d
  | (k, v) :: rest, a => if a = k then v else tableRead d rest a

variable [DecidableEq α]

/-- Write one entry and keep the canonical form: writing `d` removes the entry. -/
def tableWrite (d : α) : List (Nat × α) → Nat → α → List (Nat × α)
  | [], a, x => if x = d then [] else [(a, x)]
  | (k, v) :: rest, a, x =>
    if a < k then (if x = d then (k, v) :: rest else (a, x) :: (k, v) :: rest)
    else if a = k then (if x = d then rest else (a, x) :: rest)
    else (k, v) :: tableWrite d rest a x

/-- Every key is above `lo` (when one is given) and the keys rise; no entry holds `d`. -/
def tableCanonicalFrom (d : α) : Option Nat → List (Nat × α) → Bool
  | _, [] => true
  | lo, (k, v) :: rest =>
    (match lo with | none => true | some l => decide (l < k)) && decide (v ≠ d) && tableCanonicalFrom d (some k) rest

/-- The canonical form of a sparse table. -/
def tableCanonical (d : α) (t : List (Nat × α)) : Bool := tableCanonicalFrom d none t

end Table

/-! ### Host memory (R50 to R53) -/

/-- The byte at an address. What an unlisted address reads as is `Config.unwrittenByte` (log 2). -/
def Memory.read (m : Memory) (a : Nat) : Byte := tableRead Config.unwrittenByte m a

/-- Store one byte. -/
def Memory.write (m : Memory) (a : Nat) (b : Byte) : Memory := tableWrite Config.unwrittenByte m a b

/-- The canonical form of host memory, with every address in the address space (R50). -/
def Memory.wf (m : Memory) : Bool :=
  tableCanonical Config.unwrittenByte m && m.all fun c => decide (c.1 < Config.addressSpace)

/-- `MemRead(addr, n)` (R52). -/
def Memory.readBytes (m : Memory) (a : Nat) : Nat → List Byte
  | 0 => []
  | n + 1 => m.read a :: Memory.readBytes m (a + 1) n

/-- `MemWrite(addr, n, v)` with n the length of `v` (R53). -/
def Memory.writeBytes (m : Memory) (a : Nat) : List Byte → Memory
  | [] => m
  | b :: bs => Memory.writeBytes (m.write a b) (a + 1) bs

/-- `LE32(b0, b1, b2, b3)` (R11). -/
def le32 (b0 b1 b2 b3 : Byte) : Nat :=
  b0.toNat + 2 ^ 8 * b1.toNat + 2 ^ 16 * b2.toNat + 2 ^ 24 * b3.toNat

/-- Every byte of a range takes a free value (R233); addresses stay below 2^32. Log 5. -/
def Memory.havoc (m : Memory) (count a : Nat) : Nat → Memory
  | 0 => m
  | n + 1 =>
    let m' := if a < Config.addressSpace then m.write a (Config.freeByte count a) else m
    Memory.havoc m' count (a + 1) n

/-! ### Ranges and admission (R54 to R56) -/

/-- Is the address one of the range's bytes? -/
def Range.contains (r : Range) (a : Nat) : Bool := decide (r.base ≤ a ∧ a < r.base + r.len)

/-- Do two ranges share a byte? (R56) -/
def Range.intersects (r q : Range) : Bool :=
  decide (0 < r.len ∧ 0 < q.len ∧ r.base < q.base + q.len ∧ q.base < r.base + r.len)

/-- The addresses of the register block (R21). -/
def Platform.block (p : Platform) : Range := { base := p.base.toNat, len := Config.blockSize }

/-- `ADMIT(a)`: false on the register block and on the platform's other denied ranges (R55). -/
def Platform.admits (p : Platform) (a : Nat) : Bool := (p.block :: p.denied).all fun r => !r.contains a

/-- The lowest address the ranges `holes` and the range `r` share, if there is one. -/
def lowestShared (r : Range) : List Range → Option Nat
  | [] => none
  | h :: rest =>
    if h.intersects r then
      match lowestShared r rest with
      | none => some (max h.base r.base)
      | some a => some (min (max h.base r.base) a)
    else lowestShared r rest

/-- The address a range that is not admitted is reported at (R54): its base if it passes 2^32, else its lowest byte that
ADMIT refuses; `none` when the range is admitted. -/
def Platform.refusedAt (p : Platform) (r : Range) : Option Nat :=
  if r.len = 0 then none
  else if r.base + r.len > Config.addressSpace then some r.base
  else lowestShared r (p.block :: p.denied)

/-- The range a BUS_ERROR names in ERR_VAL (R54, R200). -/
inductive RangeId where
  | source
  | destination
  | key
  | table
  | element
  deriving DecidableEq, Repr

/-- The number of a range in ERR_VAL (R54). -/
def RangeId.number : RangeId → Nat
  | .source => 1
  | .destination => 2
  | .key => 3
  | .table => 4
  | .element => 5

/-- `check range r, id`: the BUS_ERROR of a range that is not admitted (R54). -/
def rangeFault (p : Platform) (id : RangeId) (r : Range) : Option SpeFault :=
  match p.refusedAt r with
  | none => none
  | some a => some { code := .busError, sub := 0#8, val := id.number, pos := a }

/-- The length a LENGTH_ERROR names in ERR_VAL (R200). -/
inductive LengthId where
  | srcLen
  | keyLen
  | colLen
  | element
  | decoded
  deriving DecidableEq, Repr

/-- The number of a length in ERR_VAL (R200; 90_conflicts.md C8). -/
def LengthId.number : LengthId → Nat
  | .srcLen => 1
  | .keyLen => 3
  | .colLen => 4
  | .element => 5
  | .decoded => 6

/-- The LENGTH_ERROR of a length above MAX_LEN (R200); `pos` is the element index, else 0. -/
def lengthFault (id : LengthId) (n pos : Nat) : Option SpeFault :=
  if n > Config.maxLen then some { code := .lengthError, sub := 0#8, val := id.number, pos := pos } else none

/-- The OVERLAP of a source and a destination that share a byte (R56). -/
def overlapFault (src dst : Range) : Option SpeFault :=
  if src.intersects dst then some { code := .overlap, sub := 0#8, val := 0, pos := 0 } else none

/-- The DST_OVERFLOW of an output longer than the capacity (R200). -/
def overflowFault (needed cap : Nat) : Option SpeFault :=
  if needed > cap then some { code := .dstOverflow, sub := 0#8, val := 0, pos := needed } else none

/-- ILLEGAL_CMD sub 1: the word does not decode (R86). -/
def illegalWord : SpeFault := { code := .illegalCmd, sub := 1#8, val := 0, pos := 0 }

/-- NOT_CONFIGURED: every command but CONFIG while CFG_OK = 0 (R38, R203). -/
def notConfiguredFault (s : State) : Option SpeFault :=
  if s.status.cfgOk then none else some { code := .notConfigured, sub := 0#8, val := 0, pos := 0 }

/-! ### Issue, completion and fault entry -/

/-- Issue: what a write of `v` to CMD does while the engine is IDLE (R40). It clears what a fault left (R208). -/
def State.issueWord (s : State) (v : Word) : State :=
  { s with
    cmdLatch := v
    cmd := v
    status := { s.status with busy := true, done := false, err := false, errCode := .noFault, errSub := 0#8 } }

/-- Success completion with a result, written in two's complement (R42). -/
def State.succeed (s : State) (res : Int) : State :=
  { s with
    result := BitVec.ofInt 32 res
    errVal := 0#32
    errPos := 0#32
    status := { s.status with busy := false, done := true, err := false, errCode := .noFault, errSub := 0#8 } }

/-- FAULT ENTRY, shared by every command (R205): the code and sub-code go to STATUS, the diagnostics to ERR_VAL and
ERR_POS, RESULT is 0; nothing is saved elsewhere and control goes nowhere. There is no return operation: the next issue
clears it (R208, `State.issueWord`). -/
def State.failWith (s : State) (f : SpeFault) : State :=
  { s with
    result := 0#32
    errVal := BitVec.ofNat 32 f.val
    errPos := BitVec.ofNat 32 f.pos
    status := { s.status with busy := false, done := true, err := true, errCode := f.code, errSub := f.sub } }

/-- What a failed CONFIG does beside fault entry: it leaves no usable configuration (R109). -/
def State.unconfigure (s : State) : State :=
  { s with
    cfg := Cfg.reset
    sym := clearedSym
    codeOf := clearedCodeOf
    status := { s.status with cfgOk := false } }

/-! ### Widths and symbols -/

/-- W, the bits of a code (R7). -/
def Width.bits : Width → Nat
  | .w4 => 4
  | .w5 => 5
  | .w6 => 6

/-- 2^W, the size of an alphabet (R7). -/
def Width.size (w : Width) : Nat := 2 ^ w.bits

/-- WSEL of a width (R24). -/
def Width.sel : Width → BitVec 2
  | .w4 => 0#2
  | .w5 => 1#2
  | .w6 => 2#2

/-- The width WSEL selects; 3 selects none (R87). -/
def Width.ofSel (wsel : BitVec 2) : Option Width :=
  match wsel.toNat with
  | 0 => some .w4
  | 1 => some .w5
  | 2 => some .w6
  | _ => none

/-- `SYM[c]` as a byte (R13, R35). -/
def State.symbol (s : State) (c : Nat) : Byte := (s.sym[c]?.getD 0#7).zeroExtend 8

/-- `CODEOF[b]` for a 7-bit byte (R13, R36). -/
def State.code (s : State) (b : Symbol) : Option Code := s.codeOf[b.toNat]

end Sys2Proof.Machine
end

