-- ==== Sys2Proof/Machine/Flags.lean ====
section
/-! DEFINITION. The words the host reads: STATUS and its fields (10_state.md R25), the numbers of the fault codes
(60_exceptions.md R200), CFG (R24) and the SYMTAB view (R34). The SPE has no condition codes (R47). -/

namespace Sys2Proof.Machine

/-- ERRCODE of a fault (R200). -/
def FaultCode.number : FaultCode → BitVec 4
  | .noFault => 0#4
  | .illegalCmd => 1#4
  | .notConfigured => 2#4
  | .configError => 3#4
  | .unsupportedChar => 4#4
  | .dstOverflow => 5#4
  | .malformed => 6#4
  | .busError => 7#4
  | .lengthError => 8#4
  | .absentElement => 9#4
  | .overlap => 10#4

/-- The STATUS register: ERRSUB in bits 15:8, ERRCODE in 7:4, CFG_OK 3, ERR 2, DONE 1, BUSY 0, the rest 0 (R25). -/
def Status.word (s : Status) : Word :=
  0#16 ++ s.errSub ++ s.errCode.number ++ BitVec.ofBool s.cfgOk ++ BitVec.ofBool s.err ++ BitVec.ofBool s.done ++
    BitVec.ofBool s.busy

/-- The CFG register: PRESERVE in bit 3, STRICT in bit 2, WSEL in bits 1:0, the rest 0 (R24). -/
def Cfg.word (c : Cfg) : Word :=
  0#28 ++ BitVec.ofBool c.preserve ++ BitVec.ofBool c.strict ++ c.width.sel

/-- While CFG_OK = 0, CFG reads 0x00000000 (R24). -/
def State.cfgWord (s : State) : Word := if s.status.cfgOk then s.cfg.word else 0#32

/-- SYMTAB[i]: the symbol with code i while it is part of the alphabet, else 0 (R34). -/
def State.symtabWord (s : State) (i : Fin 64) : Word :=
  if s.status.cfgOk && decide (i.val < s.cfg.width.size) then (s.symbol i.val).zeroExtend 32 else 0#32

/-- BUSY and DONE never hold together; ERR implies DONE and a code that is not 0 (R25). -/
def Status.wf (s : Status) : Bool :=
  !(s.busy && s.done) && (!s.err || (s.done && s.errCode != .noFault)) &&
    (s.err || (s.errCode == .noFault && s.errSub == 0#8))

end Sys2Proof.Machine
end

