-- ==== Sys2Proof/Machine/Operands.lean ====
section
/-! DEFINITION. The operands of commands: the ranges the operand registers name (10_state.md R27 to R30), the packed buffer as
an operand (30_encoding.md R70 to R81) and the collection descriptor (R82, R83). -/

namespace Sys2Proof.Machine

/-! ### Operand registers (R27 to R30, R90) -/

/-- (SRC_ADDR, SRC_LEN) (R27). -/
def State.srcRange (s : State) : Range := { base := s.srcAddr.toNat, len := s.srcLen.toNat }

/-- (DST_ADDR, DST_CAP) (R28). -/
def State.dstRange (s : State) : Range := { base := s.dstAddr.toNat, len := s.dstCap.toNat }

/-- (KEY_ADDR, KEY_LEN) (R29). -/
def State.keyRange (s : State) : Range := { base := s.keyAddr.toNat, len := s.keyLen.toNat }

/-- The descriptor table, (COL_ADDR, 8 · COL_LEN) (R30, R82). -/
def State.tableRange (s : State) : Range := { base := s.colAddr.toNat, len := 8 * s.colLen.toNat }

/-- The bytes of a range of host memory (R52). -/
def State.readRange (s : State) (r : Range) : List Byte := s.mem.readBytes r.base r.len

/-- W of the configuration (R24). -/
def State.width (s : State) : Width := s.cfg.width

/-! ### The packed buffer (R70 to R81) -/

/-- ⌈a / b⌉ (R9). -/
def ceilDiv (a b : Nat) : Nat := (a + b - 1) / b

/-- `PackedSize(W, len)`: 0 for the empty string, else the data bytes and the flag byte (R70, R73, R77). -/
def packedSize (w : Width) (len : Nat) : Nat :=
  if len = 0 then 0
  else
    match w with
    | .w4 => ceilDiv len 2 + 1
    | .w5 => ceilDiv (len * 5) 8 + 1
    | .w6 => ceilDiv (len * 6) 8 + 1

/-- The flag byte of a packed buffer, its last byte (R70). -/
def flagOf (b : List Byte) : Byte := b.getLastD 0x00#8

/-- The decoded length at W = 4 of a buffer that is not empty (R78). -/
def decodedLength4 (b : List Byte) : Nat :=
  if flagOf b = 0x01#8 then 2 * (b.length - 1 - 1) + 1 else 2 * (b.length - 1)

/-- The decoded length at W = 5 and 6 of a buffer that is not empty (R80). The difference is never negative when m ≥ 2. -/
def decodedLength56 (w : Nat) (b : List Byte) : Nat := (b.length - 1) * 8 / w - (flagOf b).toNat % 2

/-- The decoded length of a packed buffer; the empty buffer holds the empty string (R78, R80). -/
def decodedLength (w : Width) (b : List Byte) : Nat :=
  if b.length = 0 then 0
  else
    match w with
    | .w4 => decodedLength4 b
    | .w5 => decodedLength56 5 b
    | .w6 => decodedLength56 6 b

/-- MALFORMED sub-codes (R79, R200). -/
def subLength : BitVec 8 := 1#8
/-- See `subLength`. -/
def subFlag : BitVec 8 := 2#8
/-- See `subLength`. -/
def subPadding : BitVec 8 := 3#8

/-- The flag byte is 0x00 or 0x01 (R79, R81; 92_eei_decisions.md D25). -/
def flagLegal (b : List Byte) : Bool := flagOf b == 0x00#8 || flagOf b == 0x01#8

/-- The sub-code of the first check a W = 4 buffer fails (R79). -/
def malformed4 (b : List Byte) : Option (BitVec 8) :=
  if b.length = 0 then none
  else if b.length < 2 then some subLength
  else if !flagLegal b then some subFlag
  else if flagOf b = 0x01#8 ∧ 16 ≤ (b.getD (b.length - 2) 0x00#8).toNat then some subPadding
  else none

/-- The sub-code of the first check a W = 5 or W = 6 buffer fails (R81). -/
def malformed56 (w : Nat) (b : List Byte) : Option (BitVec 8) :=
  let dataLen := b.length - 1
  let len := decodedLength56 w b
  let r := len * w % 8
  if b.length = 0 then none
  else if b.length < 2 then some subLength
  else if !flagLegal b then some subFlag
  else if len = 0 ∨ ceilDiv (len * w) 8 ≠ dataLen then some subLength
  else if 0 < r ∧ (b.getD (dataLen - 1) 0x00#8).toNat % 2 ^ (8 - r) ≠ 0 then some subPadding
  else none

/-- The sub-code of the first check a packed buffer fails; `none` when it is well formed (R79, R81). -/
def malformedSub (w : Width) (b : List Byte) : Option (BitVec 8) :=
  match w with
  | .w4 => malformed4 b
  | .w5 => malformed56 5 b
  | .w6 => malformed56 6 b

/-- `check WellFormed(W, b)`: the MALFORMED of a buffer; `pos` is the element index in a search, else 0 (R79, R200). -/
def malformedFault (w : Width) (b : List Byte) (pos : Nat) : Option SpeFault :=
  match malformedSub w b with
  | none => none
  | some sub => some { code := .malformed, sub := sub, val := 0, pos := pos }

/-! ### The collection descriptor (R82, R83) -/

/-- A descriptor: the address and the length of an element's packed buffer. -/
structure Descriptor where
  addr : Nat
  len : Nat
  deriving DecidableEq, Repr

/-- LEN of an absent slot (R83). -/
def absentLen : Nat := 0xFFFFFFFF

/-- Descriptor i of the table at `col` (R82). -/
def descriptorAt (m : Memory) (col i : Nat) : Descriptor :=
  let a := col + 8 * i
  { addr := le32 (m.read a) (m.read (a + 1)) (m.read (a + 2)) (m.read (a + 3))
    len := le32 (m.read (a + 4)) (m.read (a + 5)) (m.read (a + 6)) (m.read (a + 7)) }

/-- The range of an element's packed buffer. -/
def Descriptor.range (d : Descriptor) : Range := { base := d.addr, len := d.len }

end Sys2Proof.Machine
end

