-- ==== Sys2Proof/Machine/Alphabet.lean ====
section
/-! DEFINITION. CONFIG and the alphabet (40_config.md). -/

namespace Sys2Proof.Machine

/-- The first `n` bytes of an order of the 7-bit bytes. -/
def firstOfOrder (order : Equiv.Perm (Fin 128)) (n : Nat) : List Byte :=
  (List.range n).map fun i => BitVec.ofNat 8 (order (Fin.ofNat 128 i)).val

/-- `DefaultSymbols(W)` (R102). -/
def defaultSymbols : Width → List Byte
  | .w4 => Config.defaultSymbols4
  | .w5 => firstOfOrder Config.defaultOrder5 32
  | .w6 => firstOfOrder Config.defaultOrder6 64

/-- The range of the symbol list, 2^W bytes at SRC_ADDR (R101). -/
def State.listRange (s : State) (w : Width) : Range := { base := s.srcAddr.toNat, len := w.size }

/-- The symbol list S of a CONFIG (R101). -/
def State.symbolList (s : State) (w : Width) (dflt : Bool) : List Byte :=
  if dflt then defaultSymbols w else s.readRange (s.listRange w)

/-- CONFIG_ERROR sub 1 SIZE: SRC_LEN ≠ 2^W (R101). -/
def sizeFault (s : State) (w : Width) : Option SpeFault :=
  if s.srcLen.toNat ≠ w.size then some { code := .configError, sub := 1#8, val := 0, pos := s.srcLen.toNat } else none

/-- CONFIG_ERROR sub 2 RANGE, at the lowest index holding a byte ≥ 128 (R101); `i` is the index of the list's head. -/
def highSymbolFault : Nat → List Byte → Option SpeFault
  | _, [] => none
  | i, b :: bs =>
    if 128 ≤ b.toNat then some { code := .configError, sub := 2#8, val := b.toNat, pos := i }
    else highSymbolFault (i + 1) bs

/-- CONFIG_ERROR sub 3 DUPLICATE, at the lowest index whose byte stands earlier (R101, R105); `seen` holds the earlier
bytes and `i` is the index of the list's head. -/
def duplicateFault : Nat → List Byte → List Byte → Option SpeFault
  | _, _, [] => none
  | i, seen, b :: bs =>
    if b ∈ seen then some { code := .configError, sub := 3#8, val := b.toNat, pos := i }
    else duplicateFault (i + 1) (b :: seen) bs

/-- The first fault of a CONFIG whose word decodes, in the order of R101 and R203. -/
def configFault (s : State) (w : Width) (dflt : Bool) : Option SpeFault :=
  (if dflt then none else sizeFault s w <|> rangeFault s.platform .source (s.listRange w)) <|>
    highSymbolFault 0 (s.symbolList w dflt) <|>
    duplicateFault 0 [] (s.symbolList w dflt)

/-- The code of a symbol in a list: the place where it stands (R104); `i` is the index of the list's head. -/
def codeIn : Nat → List Byte → Byte → Option Code
  | _, [], _ => none
  | i, s :: ss, b => if s = b then some (BitVec.ofNat 6 i) else codeIn (i + 1) ss b

/-- SYM after a commit: the list, then 0 (R108). -/
def symTable (symbols : List Byte) : Vector Symbol 64 :=
  ⟨((List.range 64).map fun i => (symbols.getD i 0x00#8).setWidth 7).toArray, by simp⟩

/-- CODEOF after a commit (R103). -/
def codeTable (symbols : List Byte) : Vector (Option Code) 128 :=
  ⟨((List.range 128).map fun b => codeIn 0 symbols (BitVec.ofNat 8 b)).toArray, by simp⟩

/-- The commit of a successful CONFIG (R103, R108). -/
def State.commitConfig (s : State) (w : Width) (strict preserve : Bool) (symbols : List Byte) : State :=
  { s with
    cfg := { width := w, strict := strict, preserve := preserve }
    sym := symTable symbols
    codeOf := codeTable symbols
    status := { s.status with cfgOk := true } }

/-- CONFIG (R101, R108, R109). A term whose WSEL is 3 stands for no word that decodes (R86): it ends as such a word does,
with the configuration unchanged (log 7). -/
def execConfig (wsel : BitVec 2) (strict preserve dflt : Bool) (s : State) : Host.Outcome State Fault Refusal :=
  match Width.ofSel wsel with
  | none => .next (s.failWith illegalWord)
  | some w =>
    match configFault s w dflt with
    | some f => .next (s.unconfigure.failWith f)
    | none => .next ((s.commitConfig w strict preserve (s.symbolList w dflt)).succeed w.size)

end Sys2Proof.Machine
end

