-- ==== Sys2Proof/Machine/Codec.lean ====
section
/-! DEFINITION. PACK and UNPACK: the encode step and the byte functions of every width (41_codec4.md, 42_codec56.md). -/

namespace Sys2Proof.Machine

/-! ### The encode step (R120 to R122) -/

/-- The code of a byte under the strict policy; `none` is the failure (R121). -/
def State.encodeStrict (s : State) (b : Byte) : Option Code :=
  if 128 ≤ b.toNat then none else s.code (b.setWidth 7)

/-- The code of a byte under the lenient policy: the code of the masked byte, or LENIENT_UNMAPPED_CODE (R122). -/
def State.encodeLenient (s : State) (b : Byte) : Code := (s.code (b.setWidth 7)).getD Config.lenientUnmappedCode

/-- `Encode(b, i)` (R120); `none` raises UNSUPPORTED_CHAR. -/
def State.encode (s : State) (b : Byte) : Option Code :=
  if s.cfg.strict then s.encodeStrict b else some (s.encodeLenient b)

/-- UNSUPPORTED_CHAR at the lowest index whose byte has no code (R120, R121); `i` is the index of the list's head. -/
def unsupportedFault (s : State) : Nat → List Byte → Option SpeFault
  | _, [] => none
  | i, b :: bs =>
    match s.encode b with
    | none => some { code := .unsupportedChar, sub := 0#8, val := b.toNat, pos := i }
    | some _ => unsupportedFault s (i + 1) bs

/-- The codes of a string, as integers (R120). A byte without a code never gets here: it raised UNSUPPORTED_CHAR. -/
def State.encodeAll (s : State) (bs : List Byte) : List Nat :=
  bs.filterMap fun b => (s.encode b).map BitVec.toNat

/-! ### W = 4 (R125, R126) -/

/-- The data bytes and the flag byte of a W = 4 buffer (R71, R72, R125). -/
def packBytes4 : List Nat → List Byte
  | [] => [0x00#8]
  | [c] => [BitVec.ofNat 8 c, 0x01#8]
  | c :: d :: rest => BitVec.ofNat 8 (c <<< 4 ||| d) :: packBytes4 rest

/-- The two codes of a pair byte, the high nibble first (R71, R126). -/
def nibbles (b : Byte) : List Nat := [b.toNat >>> 4, b.toNat &&& 0x0F]

/-- `Codes4(b)` (R126). -/
def codes4 (b : List Byte) : List Nat :=
  if b.length = 0 then []
  else if flagOf b = 0x01#8 then (b.take (b.length - 2)).flatMap nibbles ++ [(b.getD (b.length - 2) 0x00#8).toNat]
  else (b.take (b.length - 1)).flatMap nibbles

/-! ### W = 5 and W = 6 (R141, R144) -/

/-- The low `n` bits of an accumulator (R141, R144). -/
def lowBits (acc n : Nat) : Nat := acc &&& (1 <<< n - 1)

/-- The flag byte for the residual bit count r (R76; 90_conflicts.md C1). -/
def flagByte (w r : Nat) : Byte := if 0 < r ∧ r ≤ 8 - w then 0x01#8 else 0x00#8

/-- The loop of `PackBytes56` from an accumulator that holds `n` bits not yet emitted (R141). Before each code n < 8, so
one code emits at most one byte (R142) and the inner loop is one test. Log 13. -/
def packLoop (w : Nat) : List Nat → Nat → Nat → List Byte
  | [], acc, n =>
    (if 0 < n then [BitVec.ofNat 8 (acc <<< (8 - n) &&& 0xFF)] else []) ++ [flagByte w n]
  | c :: cs, acc, n =>
    let acc' := acc <<< w ||| c
    let n' := n + w
    if 8 ≤ n' then
      BitVec.ofNat 8 (acc' >>> (n' - 8) &&& 0xFF) :: packLoop w cs (lowBits acc' (n' - 8)) (n' - 8)
    else packLoop w cs acc' n'

/-- `PackBytes56(c, W)` (R141). -/
def packBytes56 (w : Nat) (c : List Nat) : List Byte := packLoop w c 0 0

/-- The loop of `Codes56` that emits the next codes from an accumulator of `n` bits and the bytes not yet fed (R144). One
byte of eight bits is enough for a code, so each code feeds at most one byte. Log 13. -/
def unpackLoop (w : Nat) : Nat → List Byte → Nat → Nat → List Nat
  | 0, _, _, _ => []
  | k + 1, bs, acc, n =>
    if n < w then
      match bs with
      | [] => []
      | b :: rest =>
        let acc' := acc <<< 8 ||| b.toNat
        let n' := n + 8
        (acc' >>> (n' - w) &&& (2 ^ w - 1)) :: unpackLoop w k rest (lowBits acc' (n' - w)) (n' - w)
    else (acc >>> (n - w) &&& (2 ^ w - 1)) :: unpackLoop w k bs (lowBits acc (n - w)) (n - w)

/-- `Codes56(b, W)` (R144). -/
def codes56 (w : Nat) (b : List Byte) : List Nat :=
  if b.length = 0 then [] else unpackLoop w (decodedLength56 w b) b 0 0

/-! ### Every width -/

/-- The packed buffer of a string's codes; the empty string packs to the empty buffer (R70, R124). -/
def packBytes (w : Width) (c : List Nat) : List Byte :=
  if c.length = 0 then []
  else
    match w with
    | .w4 => packBytes4 c
    | .w5 => packBytes56 5 c
    | .w6 => packBytes56 6 c

/-- The codes of a well-formed packed buffer (R127, R160). -/
def codes (w : Width) (b : List Byte) : List Nat :=
  match w with
  | .w4 => codes4 b
  | .w5 => codes56 5 b
  | .w6 => codes56 6 b

/-- The symbols of a well-formed packed buffer (R127, R160). -/
def State.symbols (s : State) (b : List Byte) : List Byte := (codes s.width b).map s.symbol

/-! ### PACK (R124) -/

/-- The first fault of a PACK, in the order of R124 and R203. -/
def packFault (s : State) : Option SpeFault :=
  notConfiguredFault s <|>
    lengthFault .srcLen s.srcLen.toNat 0 <|>
    overlapFault s.srcRange s.dstRange <|>
    rangeFault s.platform .source s.srcRange <|>
    rangeFault s.platform .destination s.dstRange <|>
    overflowFault (packedSize s.width s.srcLen.toNat) s.dstCap.toNat <|>
    unsupportedFault s 0 (s.readRange s.srcRange)

/-- The memory a PACK leaves: the codes over the source unless PRESERVE (R123), then the packed buffer (R124). -/
def packMemory (s : State) : Memory :=
  let c := s.encodeAll (s.readRange s.srcRange)
  let m := if s.cfg.preserve then s.mem else s.mem.writeBytes s.srcAddr.toNat (c.map (BitVec.ofNat 8))
  m.writeBytes s.dstAddr.toNat (packBytes s.width c)

/-- PACK (R124). -/
def execPack (s : State) : Host.Outcome State Fault Refusal :=
  match packFault s with
  | some f => .next (s.failWith f)
  | none => .next (({ s with mem := packMemory s } : State).succeed (packedSize s.width s.srcLen.toNat))

/-! ### UNPACK (R127) -/

/-- The first fault of an UNPACK, in the order of R127 and R203. -/
def unpackFault (s : State) : Option SpeFault :=
  notConfiguredFault s <|>
    lengthFault .srcLen s.srcLen.toNat 0 <|>
    overlapFault s.srcRange s.dstRange <|>
    rangeFault s.platform .source s.srcRange <|>
    rangeFault s.platform .destination s.dstRange <|>
    malformedFault s.width (s.readRange s.srcRange) 0 <|>
    lengthFault .decoded (decodedLength s.width (s.readRange s.srcRange)) 0 <|>
    overflowFault (decodedLength s.width (s.readRange s.srcRange)) s.dstCap.toNat

/-- The memory an UNPACK leaves: the symbols at the destination (R127). -/
def unpackMemory (s : State) : Memory :=
  s.mem.writeBytes s.dstAddr.toNat (s.symbols (s.readRange s.srcRange))

/-- UNPACK (R127). -/
def execUnpack (s : State) : Host.Outcome State Fault Refusal :=
  match unpackFault s with
  | some f => .next (s.failWith f)
  | none =>
    .next (({ s with mem := unpackMemory s } : State).succeed (decodedLength s.width (s.readRange s.srcRange)))

end Sys2Proof.Machine
end

