-- ==== Sys2Proof/Machine/Search.lean ====
section
/-! DEFINITION. The comparator and the binary search: CMP, PCMP, SEARCH and PSEARCH (43_search.md). -/

namespace Sys2Proof.Machine

/-- How a comparison ends when the key is exhausted (R163). -/
inductive Mode where
  | exact
  | prefixed
  deriving DecidableEq, Repr

/-- `ordK(k)`: the integer a key byte compares as (R162). -/
def ordKey (order : Config.KeyOrder) (k : Byte) : Int :=
  match order with
  | .unsigned => k.toNat
  | .signed => if 128 ≤ k.toNat then (k.toNat : Int) - 256 else k.toNat

/-- `Compare` on the symbols of a candidate and the bytes of a key (R163). Where one of them ends, both have lost the same
number of elements, so what remains compares as the whole lengths do. -/
def compareSymbols (order : Config.KeyOrder) (mode : Mode) : List Byte → List Byte → Int
  | s :: ss, k :: ks => if s = k then compareSymbols order mode ss ks else ((s.toNat : Int) - ordKey order k).sign
  | ss, ks =>
    if mode = .prefixed ∧ ks.length ≤ ss.length then 0 else ((ss.length : Int) - ks.length).sign

/-- `Compare(b, key, mode)` for a well-formed candidate (R163). -/
def State.compare (s : State) (b key : List Byte) (mode : Mode) : Int :=
  compareSymbols Config.keyOrder mode (s.symbols b) key

/-! ### CMP and PCMP (R166, R167) -/

/-- The first fault of a comparison, in the order of R166 and R203. -/
def compareFault (s : State) : Option SpeFault :=
  notConfiguredFault s <|>
    lengthFault .srcLen s.srcLen.toNat 0 <|>
    lengthFault .keyLen s.keyLen.toNat 0 <|>
    rangeFault s.platform .source s.srcRange <|>
    rangeFault s.platform .key s.keyRange <|>
    malformedFault s.width (s.readRange s.srcRange) 0

/-- One comparison of the candidate at SRC with the key (R166, R167). -/
def State.compareCommand (s : State) (mode : Mode) : State :=
  match compareFault s with
  | some f => s.failWith f
  | none => s.succeed (s.compare (s.readRange s.srcRange) (s.readRange s.keyRange) mode)

/-- CMP (R166). -/
def execCmp (s : State) : Host.Outcome State Fault Refusal := .next (s.compareCommand .exact)

/-- PCMP (R167). -/
def execPcmp (s : State) : Host.Outcome State Fault Refusal := .next (s.compareCommand .prefixed)

/-! ### The binary search (R168 to R171) -/

/-- The first fault of visiting element i with descriptor d (R171). -/
def elementFault (s : State) (i : Nat) (d : Descriptor) : Option SpeFault :=
  lengthFault .element d.len i <|>
    rangeFault s.platform .element d.range <|>
    malformedFault s.width (s.readRange d.range) i

/-- `Visit(i, key, mode, nulltol)` (R171): how element i compares with the key, or the fault it raises. -/
def visit (s : State) (key : List Byte) (mode : Mode) (nulltol : Bool) (i : Nat) : Except SpeFault Int :=
  let d := descriptorAt s.mem s.colAddr.toNat i
  if d.len = absentLen then
    if nulltol then .ok 1 else .error { code := .absentElement, sub := 0#8, val := 0, pos := i }
  else
    match elementFault s i d with
    | some f => .error f
    | none => .ok (s.compare (s.readRange d.range) key mode)

/-- The loop of `BinarySearch` between `lo` and `hi` (R171). Each visit makes the interval smaller, so a fuel of the
interval's length is never used up (log 14). -/
def searchLoop (probe : Nat → Except SpeFault Int) : Nat → Int → Int → Except SpeFault Int
  | 0, lo, _ => .ok (-(lo + 1))
  | fuel + 1, lo, hi =>
    if lo ≤ hi then
      let mid := (lo + hi) / 2
      match probe mid.toNat with
      | .error f => .error f
      | .ok c =>
        if c < 0 then searchLoop probe fuel (mid + 1) hi
        else if 0 < c then searchLoop probe fuel lo (mid - 1)
        else .ok mid
    else .ok (-(lo + 1))

/-- `BinarySearch(n, key, mode, nulltol)` over what a visit answers (R171). -/
def binarySearch (probe : Nat → Except SpeFault Int) (n : Nat) : Except SpeFault Int :=
  searchLoop probe n 0 ((n : Int) - 1)

/-! ### SEARCH and PSEARCH (R172, R173) -/

/-- ILLEGAL_CMD sub 2: NULLTOL is legal only at W = 4 (R172, R177). -/
def nulltolFault (s : State) (nulltol : Bool) : Option SpeFault :=
  if nulltol ∧ s.width ≠ .w4 then some { code := .illegalCmd, sub := 2#8, val := 0, pos := 0 } else none

/-- The first fault of a search before it visits an element, in the order of R172 and R203. -/
def searchFault (s : State) (nulltol : Bool) : Option SpeFault :=
  notConfiguredFault s <|>
    nulltolFault s nulltol <|>
    lengthFault .keyLen s.keyLen.toNat 0 <|>
    lengthFault .colLen s.colLen.toNat 0 <|>
    rangeFault s.platform .key s.keyRange <|>
    rangeFault s.platform .table s.tableRange

/-- What the search of R172 answers once its operands are checked. -/
def State.searchResult (s : State) (mode : Mode) (nulltol : Bool) : Except SpeFault Int :=
  binarySearch (visit s (s.readRange s.keyRange) mode nulltol) s.colLen.toNat

/-- One search of the collection (R172, R173). -/
def State.searchCommand (s : State) (mode : Mode) (nulltol : Bool) : State :=
  match searchFault s nulltol with
  | some f => s.failWith f
  | none =>
    match s.searchResult mode nulltol with
    | .error f => s.failWith f
    | .ok res => s.succeed res

/-- SEARCH (R172). -/
def execSearch (nulltol : Bool) (s : State) : Host.Outcome State Fault Refusal := .next (s.searchCommand .exact nulltol)

/-- PSEARCH (R173). -/
def execPsearch (nulltol : Bool) (s : State) : Host.Outcome State Fault Refusal :=
  .next (s.searchCommand .prefixed nulltol)

end Sys2Proof.Machine
end

