-- ==== Sys2Proof/Machine/Dispatch.lean ====
section
/-! DEFINITION. The meaning of each command, one arm per constructor (10_state.md R41). -/

namespace Sys2Proof.Machine

def exec (i : Instr) (s : State) : Host.Outcome State Fault Refusal :=
  match i with
  | .config wsel strict preserve dflt => Sys2Proof.Machine.execConfig wsel strict preserve dflt s
  | .pack => Sys2Proof.Machine.execPack s
  | .unpack => Sys2Proof.Machine.execUnpack s
  | .search nulltol => Sys2Proof.Machine.execSearch nulltol s
  | .psearch nulltol => Sys2Proof.Machine.execPsearch nulltol s
  | .cmp => Sys2Proof.Machine.execCmp s
  | .pcmp => Sys2Proof.Machine.execPcmp s

end Sys2Proof.Machine
end

