-- ==== Sys2Proof/WellFormed.lean ====
section
/-! DEFINITION. Which terms of `Instr` stand for a command word that decodes (30_encoding.md R86 to R89). -/

namespace Sys2Proof

/-- WSEL is 0, 1 or 2; WSEL = 3 is illegal (R87). -/
def wselLegal (wsel : BitVec 2) : Bool := wsel != 3#2

/-- A command is well formed when its options are legal for its OP (R86). -/
def Instr.wellFormed : Instr → Bool
  | .config wsel _ _ _ => wselLegal wsel
  | .pack => true
  | .unpack => true
  | .search _ => true
  | .psearch _ => true
  | .cmp => true
  | .pcmp => true

end Sys2Proof
end

