-- ==== Sys2Proof/Decode.lean ====
section
/-! DEFINITION. Decoding a command word, total on every word and refusing by name (30_encoding.md R84 to R89), and the
encoder that writes the word of a command (R93). -/

namespace Sys2Proof

/-- Why a word does not decode (R86, R91); the hardware reports each the same way, ILLEGAL_CMD sub 1. -/
inductive DecodeError where
  /-- OP is 0 or 8 to 15 (R85). -/
  | illegalOp
  /-- Word bits 7:4 are not 0 (R84). -/
  | reservedLow
  /-- Word bits 31:16 are not 0 (R84). -/
  | reservedHigh
  /-- OPT is not legal for OP (R87 to R89). -/
  | illegalOption
  deriving DecidableEq, Repr

/-- OP, word bits 3:0 (R84). -/
def opField (w : Word) : BitVec 4 := w.extractLsb' 0 4

/-- OPT, word bits 15:8 (R84). -/
def optField (w : Word) : BitVec 8 := w.extractLsb' 8 8

/-- CONFIG's options (R87). -/
def decodeConfig (opt : BitVec 8) : Except DecodeError Instr :=
  let wsel := opt.extractLsb' 0 2
  if opt.extractLsb' 5 3 = 0#3 ∧ wselLegal wsel then
    .ok (.config wsel (opt.getLsbD 2) (opt.getLsbD 3) (opt.getLsbD 4))
  else .error .illegalOption

/-- The options of SEARCH and PSEARCH: OPT[0] is NULLTOL, OPT[7:1] is 0 (R88). -/
def decodeSearch (opt : BitVec 8) (i : Bool → Instr) : Except DecodeError Instr :=
  if opt.extractLsb' 1 7 = 0#7 then .ok (i (opt.getLsbD 0)) else .error .illegalOption

/-- A command without options: OPT is 0 (R89). -/
def decodeNoOptions (opt : BitVec 8) (i : Instr) : Except DecodeError Instr :=
  if opt = 0#8 then .ok i else .error .illegalOption

/-- The command a word encodes (R85, R86). -/
def decode (w : Word) : Except DecodeError Instr :=
  if w.extractLsb' 4 4 ≠ 0#4 then .error .reservedLow
  else if w.extractLsb' 16 16 ≠ 0#16 then .error .reservedHigh
  else
    match (opField w).toNat with
    | 1 => decodeConfig (optField w)
    | 2 => decodeNoOptions (optField w) .pack
    | 3 => decodeNoOptions (optField w) .unpack
    | 4 => decodeSearch (optField w) .search
    | 5 => decodeSearch (optField w) .psearch
    | 6 => decodeNoOptions (optField w) .cmp
    | 7 => decodeNoOptions (optField w) .pcmp
    | _ => .error .illegalOp

/-- The word with OPT and OP as given and every other bit 0 (R84). -/
def commandWord (opt : BitVec 8) (op : BitVec 4) : Word := 0#16 ++ opt ++ 0#4 ++ op

/-- The word a command assembles to (R85, R87 to R89, R93). -/
def encode : Instr → Word
  | .config wsel strict preserve dflt =>
    commandWord (0#3 ++ BitVec.ofBool dflt ++ BitVec.ofBool preserve ++ BitVec.ofBool strict ++ wsel) 0x1#4
  | .pack => commandWord 0#8 0x2#4
  | .unpack => commandWord 0#8 0x3#4
  | .search nulltol => commandWord (0#7 ++ BitVec.ofBool nulltol) 0x4#4
  | .psearch nulltol => commandWord (0#7 ++ BitVec.ofBool nulltol) 0x5#4
  | .cmp => commandWord 0#8 0x6#4
  | .pcmp => commandWord 0#8 0x7#4

/-- The command word whose low `nbits` bits are those of `w` and whose other bits are 0. A command word is one 32-bit
register write (R84, R92), so there is no byte order to lay out. -/
def tableWord (nbits w : Nat) : Word := BitVec.ofNat 32 (w % 2 ^ nbits)

/-- What the decoder reads from a row of the opcode table. -/
def decodeTableWord (nbits w : Nat) : Option Instr :=
  match decode (tableWord nbits w) with
  | .ok i => some i
  | .error _ => none

end Sys2Proof
end

