-- ==== Sys2Proof/Machine/Hazards.lean ====
section
/-! DEFINITION. What a command in flight reads and writes, and the races the host and the platform must not cause
(70_reset_and_hazards.md R233, R240, R241). -/

namespace Sys2Proof.Machine

/-- How many descriptors the table has: COL_LEN, or as many as lie below 2^32 where the table passes it, since no byte lies
beyond (R50, R82). Log 8. -/
def State.descriptorCount (s : State) : Nat := min s.colLen.toNat ((Config.addressSpace - s.colAddr.toNat) / 8)

/-- The element ranges the descriptors of the table name, also where the table is one the command will refuse (R240); an absent
slot names none (R83). Log 8. -/
def State.elementRanges (s : State) : List Range :=
  (List.range s.descriptorCount).filterMap fun i =>
    let d := descriptorAt s.mem s.colAddr.toNat i
    if d.len = absentLen then none else some d.range

/-- The ranges a command reads and writes (R51, R240). Log 8. -/
def State.commandFootprint (s : State) : Instr → Footprint
  | .config wsel _ _ dflt =>
    { reads := if dflt then [] else (Width.ofSel wsel).toList.map s.listRange
      writes := [] }
  | .pack => { reads := [s.srcRange], writes := s.dstRange :: (if s.cfg.preserve then [] else [s.srcRange]) }
  | .unpack => { reads := [s.srcRange], writes := [s.dstRange] }
  | .search _ => { reads := s.keyRange :: s.tableRange :: s.elementRanges, writes := [] }
  | .psearch _ => { reads := s.keyRange :: s.tableRange :: s.elementRanges, writes := [] }
  | .cmp => { reads := [s.srcRange, s.keyRange], writes := [] }
  | .pcmp => { reads := [s.srcRange, s.keyRange], writes := [] }

/-- The ranges of the command in flight; none while IDLE, and none for a word that does not decode (R86). -/
def State.inFlight (s : State) : Footprint :=
  if s.status.busy then
    match decode s.cmdLatch with
    | .ok i => s.commandFootprint i
    | .error _ => { reads := [], writes := [] }
  else { reads := [], writes := [] }

/-- Does a command in flight read or write this byte? -/
def Footprint.touches (p : Footprint) (a : Nat) : Bool := (p.reads ++ p.writes).any fun r => r.contains a

/-- Does one of two commands write a byte the other reads or writes? (R241) -/
def Footprint.conflicts (p q : Footprint) : Bool :=
  (p.writes.any fun r => (q.reads ++ q.writes).any r.intersects) ||
    (q.writes.any fun r => (p.reads ++ p.writes).any r.intersects)

/-- Is this byte in a range of a command in flight, on this SPE or on another? (R240) -/
def State.byteInFlight (s : State) (a : Nat) : Bool := s.inFlight.touches a || s.peers.any fun p => p.touches a

/-- Reset (R230 to R233): every register and table takes its reset value; a command in flight is abandoned, and every byte
it could have written takes a free value (log 5). Host memory keeps its other bytes, and the platform, the host and the
other SPEs are not reset. -/
def State.applyReset (s : State) : State :=
  { State.reset with
    mem := s.inFlight.writes.foldl (fun m r => m.havoc s.freeCount r.base r.len) s.mem
    platform := s.platform
    host := s.host
    peers := s.peers
    turns := s.turns
    busData := s.busData
    freeCount := s.freeCount + 1 }

/-- Another SPE issues a command; conflicting ranges in flight are INSTANCE_RACE (R241). -/
def State.peerIssue (s : State) (p : Footprint) : Host.Outcome State Fault Refusal :=
  if s.inFlight.conflicts p || s.peers.any p.conflicts then .fault .instanceRace
  else .next { s with peers := s.peers ++ [p] }

/-- Another SPE performs its command: bytes of the ranges it writes change, no other (R241). -/
def State.peerPerform (s : State) (k : Nat) (bytes : List (Word × Byte)) : State :=
  match s.peers[k]? with
  | none => s
  | some p =>
    { s with
      peers := s.peers.eraseIdx k
      mem := bytes.foldl
        (fun m c => if p.writes.any fun r => r.contains c.1.toNat then m.write c.1.toNat c.2 else m) s.mem }

end Sys2Proof.Machine
end

