-- ==== Sys2Proof/Machine/Registers.lean ====
section
/-! DEFINITION. The register block as the host accesses it, the one place that reads and writes registers (10_state.md R21 to
R34, R40, R43), and the host's accesses to memory (20_memory.md R50, 30_encoding.md R93). -/

namespace Sys2Proof.Machine

/-- The offset of a register (R21). -/
def Reg.offset : Reg → Nat
  | .cmd => 0x000
  | .status => 0x004
  | .cfg => 0x008
  | .result => 0x00C
  | .srcAddr => 0x010
  | .srcLen => 0x014
  | .dstAddr => 0x018
  | .dstCap => 0x01C
  | .keyAddr => 0x020
  | .keyLen => 0x024
  | .colAddr => 0x028
  | .colLen => 0x02C
  | .errVal => 0x030
  | .errPos => 0x034
  | .ident => 0x038
  | .symtab i => 0x100 + 4 * i.val

/-- The register at an aligned offset of the block; `none` at an offset R21 does not list (R22). -/
def Reg.ofOffset (offset : Nat) : Option Reg :=
  if 0x100 ≤ offset then some (.symtab (Fin.ofNat 64 ((offset - 0x100) / 4)))
  else
    match offset / 4 with
    | 0 => some .cmd
    | 1 => some .status
    | 2 => some .cfg
    | 3 => some .result
    | 4 => some .srcAddr
    | 5 => some .srcLen
    | 6 => some .dstAddr
    | 7 => some .dstCap
    | 8 => some .keyAddr
    | 9 => some .keyLen
    | 10 => some .colAddr
    | 11 => some .colLen
    | 12 => some .errVal
    | 13 => some .errPos
    | 14 => some .ident
    | _ => none

/-- What a read of a register returns; a read changes nothing (R22 to R34). -/
def State.readReg (s : State) : Reg → Word
  | .cmd => s.cmd
  | .status => s.status.word
  | .cfg => s.cfgWord
  | .result => s.result
  | .srcAddr => s.srcAddr
  | .srcLen => s.srcLen
  | .dstAddr => s.dstAddr
  | .dstCap => s.dstCap
  | .keyAddr => s.keyAddr
  | .keyLen => s.keyLen
  | .colAddr => s.colAddr
  | .colLen => s.colLen
  | .errVal => s.errVal
  | .errPos => s.errPos
  | .ident => Config.idValue
  | .symtab i => s.symtabWord i

/-- A write to CMD while IDLE issues the command (R23, R40); a command of another SPE in flight on conflicting ranges makes
it an INSTANCE_RACE (R241). -/
def State.issue (s : State) (v : Word) : Host.Outcome State Fault Refusal :=
  let t := s.issueWord v
  if s.peers.any t.inFlight.conflicts then .fault .instanceRace else .next t

/-- A write to an operand register while IDLE (R27 to R30); other registers keep their values (R22). -/
def State.setOperand (s : State) (r : Reg) (v : Word) : State :=
  match r with
  | .srcAddr => { s with srcAddr := v }
  | .srcLen => { s with srcLen := v }
  | .dstAddr => { s with dstAddr := v }
  | .dstCap => { s with dstCap := v }
  | .keyAddr => { s with keyAddr := v }
  | .keyLen => { s with keyLen := v }
  | .colAddr => { s with colAddr := v }
  | .colLen => { s with colLen := v }
  | .cmd => s
  | .status => s
  | .cfg => s
  | .result => s
  | .errVal => s
  | .errPos => s
  | .ident => s
  | .symtab _ => s

/-- What a write of a register does: nothing while BUSY (R43) and nothing to a read-only register (R22). -/
def State.writeReg (s : State) (r : Reg) (v : Word) : Host.Outcome State Fault Refusal :=
  if s.status.busy then .next s
  else if r = .cmd then s.issue v
  else .next (s.setOperand r v)

/-- The host accesses the block only by aligned 32-bit accesses (R22). -/
def accessLegal (offset : BitVec 9) (width : Nat) : Bool := width == 4 && offset.toNat % 4 == 0

/-- A host read of the block; an unlisted offset reads 0 (R22). `none` is a BAD_ACCESS. -/
def State.readBlock (s : State) (offset : BitVec 9) (width : Nat) : Option Word :=
  if accessLegal offset width then
    match Reg.ofOffset offset.toNat with
    | none => some 0#32
    | some r => some (s.readReg r)
  else none

/-- A host write of the block; an unlisted offset ignores it (R22). -/
def State.writeBlock (s : State) (offset : BitVec 9) (width : Nat) (v : Word) : Host.Outcome State Fault Refusal :=
  if accessLegal offset width then
    match Reg.ofOffset offset.toNat with
    | none => .next s
    | some r => s.writeReg r v
  else .fault .badAccess

/-- A host read of one byte of memory (R93); a byte of the register block is no such byte (R22, log 10). -/
def State.hostReadByte (s : State) (a : Nat) : Option Byte :=
  if s.platform.block.contains a then none else some (s.mem.read a)

/-- A host write of one byte of memory (R93); a byte of a command in flight makes it a HOST_RACE (R240). -/
def State.hostWriteByte (s : State) (a : Nat) (b : Byte) : Host.Outcome State Fault Refusal :=
  if s.platform.block.contains a then .fault .badAccess
  else if s.byteInFlight a then .fault .hostRace
  else .next { s with mem := s.mem.write a b }

/-- An access by a host agent outside the host program (R213); a read leaves its value in `busData` (log 10). -/
def State.hostAccess (s : State) : Access → Host.Outcome State Fault Refusal
  | .regRead offset width =>
    match s.readBlock offset width with
    | none => .fault .badAccess
    | some v => .next { s with busData := v }
  | .regWrite offset width v => s.writeBlock offset width v
  | .memRead addr =>
    match s.hostReadByte addr.toNat with
    | none => .fault .badAccess
    | some b => .next { s with busData := b.setWidth 32 }
  | .memWrite addr b => s.hostWriteByte addr.toNat b

end Sys2Proof.Machine
end

