-- ==== Sys2Proof/Machine/Program.lean ====
section
/-! DEFINITION. The host program: its expressions and its lines (30_encoding.md R93). -/

namespace Sys2Proof.Machine

/-- A temporary's value (R93, log 11). -/
def HostState.temp (h : HostState) (t : Nat) : Word := tableRead Config.unwrittenTemp h.temps t

/-- Write a temporary. -/
def State.setTemp (s : State) (t : Nat) (v : Word) : State :=
  { s with host := { s.host with temps := tableWrite Config.unwrittenTemp s.host.temps t v } }

/-- Go to a line. -/
def State.jump (s : State) (line : Nat) : State := { s with host := { s.host with line := line } }

/-- Go to the next line. -/
def State.nextLine (s : State) : State := s.jump (s.host.line + 1)

/-- A shift amount of 32 or more leaves no bit of a 32-bit result (R9, R93). -/
def shiftLeft (a b : Word) : Word := if 32 ≤ b.toNat then 0#32 else a <<< b.toNat

/-- `a >> k` is ⌊a / 2^k⌋ (R9). -/
def shiftRight (a b : Word) : Word := if 32 ≤ b.toNat then 0#32 else a >>> b.toNat

/-- The value of a host expression, mod 2^32 (R93). -/
def HostState.eval (h : HostState) : Expr → Word
  | .lit v => v
  | .temp t => h.temp t
  | .bit t i => BitVec.ofNat 32 ((h.temp t).getLsbD (h.eval i).toNat).toNat
  | .add a b => h.eval a + h.eval b
  | .sub a b => h.eval a - h.eval b
  | .and a b => h.eval a &&& h.eval b
  | .shl a b => shiftLeft (h.eval a) (h.eval b)
  | .shr a b => shiftRight (h.eval a) (h.eval b)

/-- The relations compare unsigned values (R93). -/
def Relation.holds (r : Relation) (a b : Word) : Bool :=
  match r with
  | .eq => a == b
  | .ne => a != b
  | .lt => decide (a.toNat < b.toNat)
  | .ge => decide (b.toNat ≤ a.toNat)

/-- Continue a host line after an access that may stop. -/
def thenNextLine (o : Host.Outcome State Fault Refusal) : Host.Outcome State Fault Refusal :=
  match o with
  | .next s => .next s.nextLine
  | .fault f => .fault f
  | .refused r => .refused r

/-- One line of a host program (R93). -/
def execLine (s : State) : HostLine → Host.Outcome State Fault Refusal
  | .wr r v => thenNextLine (s.writeReg r (s.host.eval v))
  | .rd r t => .next (s.setTemp t (s.readReg r)).nextLine
  | .issue i => thenNextLine (s.writeReg .cmd (encode i))
  | .ldb t addr =>
    match s.hostReadByte (s.host.eval addr).toNat with
    | none => .fault .badAccess
    | some b => .next (s.setTemp t (b.setWidth 32)).nextLine
  | .stb addr v => thenNextLine (s.hostWriteByte (s.host.eval addr).toNat ((s.host.eval v).setWidth 8))
  | .set t e => .next (s.setTemp t (s.host.eval e)).nextLine
  | .ifGoto a rel b target =>
    .next (if rel.holds (s.host.eval a) (s.host.eval b) then s.jump target else s.nextLine)
  | .goto target => .next (s.jump target)
  | .halt => .next (s.jump s.host.program.length)

/-- The host program's next line; past the last line there is none and nothing happens (R93, R249). -/
def hostStep (s : State) : Host.Outcome State Fault Refusal :=
  match s.host.program[s.host.line]? with
  | none => .next s
  | some l => execLine s l

/-- Has the host program executed its last line or a HALT? (R249) -/
def HostState.ended (h : HostState) : Bool := decide (h.program.length ≤ h.line)

end Sys2Proof.Machine
end

