-- ==== Sys2Proof/Machine/Turns.lean ====
section
/-! DEFINITION. The steps of the agents: the engine (10_state.md R41), the host, the platform and the other SPEs
(20_memory.md R61). -/

namespace Sys2Proof.Machine

/-- The engine's step: while BUSY it performs the whole command in CMD_LATCH (R41); a word that does not decode raises
ILLEGAL_CMD sub 1 before anything else (R86). While IDLE it does nothing. -/
def engineStep (s : State) : Host.Outcome State Fault Refusal :=
  if s.status.busy then
    match decode s.cmdLatch with
    | .ok i => exec i s
    | .error _ => .next (s.failWith illegalWord)
  else .next s

/-- One turn of an agent (R61). -/
def takeTurn (t : Turn) (s : State) : Host.Outcome State Fault Refusal :=
  match t with
  | .engine => engineStep s
  | .host => hostStep s
  | .access a => s.hostAccess a
  | .reset => .next s.applyReset
  | .peerIssue p => s.peerIssue p
  | .peerPerform k bytes => .next (s.peerPerform k bytes)

/-- Who moves when `turns` names nobody: the engine while a command is in flight (R248), else the host program. Log 1. -/
def defaultTurn (s : State) : Turn := if s.status.busy then .engine else .host

end Sys2Proof.Machine
end

