-- ==== Sys2Proof/Machine/Step.lean ====
section
/-! DEFINITION. One step of the machine: the agent whose turn it is takes its step (20_memory.md R61). -/

namespace Sys2Proof.Machine

/-- The agent `turns` names takes its step; when it names nobody, `defaultTurn` says who does. -/
def step (s : State) : Host.Outcome State Fault Refusal :=
  match s.turns with
  | [] => takeTurn (defaultTurn s) s
  | t :: rest => takeTurn t { s with turns := rest }

/-- The state in which a command word has been issued and the engine moves next: what the host's write of the word to CMD
does (R40), and the engine's turn. It stands for the host, which is what brings a command into the SPE. Log 12. -/
def State.withFetchWord (s : State) (nbits w : Nat) : State :=
  { s.issueWord (tableWord nbits w) with turns := .engine :: s.turns }

end Sys2Proof.Machine
end

