-- ==== Sys2Proof/Machine/Assembler.lean ====
section
/-! DEFINITION. The assembler syntax of host programs: text, source lines with labels and pseudo-instructions, and the lines
they stand for (30_encoding.md R93, R94). A program's `MEM` lines give the start contents of memory. -/

namespace Sys2Proof.Machine

/-! ### Tokens -/

/-- A token of a program's text. A name is the list of its characters. -/
inductive Token where
  | num (n : Nat)
  | name (cs : List Char)
  | text (bs : List Byte)
  | comma
  | colon
  | lparen
  | rparen
  | lbrack
  | rbrack
  | plus
  | minus
  | amp
  | shl
  | shr
  | arrow
  | eq
  | ne
  | lt
  | ge
  deriving DecidableEq, Repr

/-- The character that begins and ends a string (R10). -/
def quoteChar : Char := Char.ofNat 34

/-- A character of a number or of a name, that is, of a label, a temporary or a word of R93: an ASCII letter, an ASCII digit
or `_`. R93 gives no form for a label or a temporary: DESIGN CHOICE (log 16). -/
def wordChar (c : Char) : Bool := c.isAlphanum || c == '_'

/-- The value of a digit in a base of at most 16. -/
def digitValue (base : Nat) (c : Char) : Option Nat :=
  let v :=
    if c.isDigit then c.toNat - '0'.toNat
    else if 'a' ≤ c && c ≤ 'f' then c.toNat - 'a'.toNat + 10
    else if 'A' ≤ c && c ≤ 'F' then c.toNat - 'A'.toNat + 10
    else 16
  if v < base then some v else none

/-- The value of a row of digits, most significant first. -/
def digitsValue (base : Nat) : Nat → List Char → Option Nat
  | acc, [] => some acc
  | acc, c :: cs =>
    match digitValue base c with
    | none => none
    | some d => digitsValue base (acc * base + d) cs

/-- An integer literal, decimal or hexadecimal (R10): DESIGN CHOICE, R93 does not say which forms it has (log 16). -/
def numberValue (cs : List Char) : Option Nat :=
  match cs with
  | '0' :: 'x' :: ds => digitsValue 16 0 ds
  | _ => digitsValue 10 0 cs

/-- A number when it begins with a digit, else a name, so that no label and no temporary begins with a digit: DESIGN CHOICE,
R93 gives them no form (log 16). -/
def wordToken (cs : List Char) : Option Token :=
  if cs.head?.any Char.isDigit then (numberValue cs).map .num else some (.name cs)

/-- The token two characters make, if they make one. -/
def doubleToken (c d : Char) : Option Token :=
  if c = '<' ∧ d = '<' then some .shl
  else if c = '>' ∧ d = '>' then some .shr
  else if c = '-' ∧ d = '>' then some .arrow
  else if c = '!' ∧ d = '=' then some .ne
  else if c = '>' ∧ d = '=' then some .ge
  else none

/-- The token one character makes, if it makes one. -/
def singleToken (c : Char) : Option Token :=
  if c = ',' then some .comma
  else if c = ':' then some .colon
  else if c = '(' then some .lparen
  else if c = ')' then some .rparen
  else if c = '[' then some .lbrack
  else if c = ']' then some .rbrack
  else if c = '+' then some .plus
  else if c = '-' then some .minus
  else if c = '&' then some .amp
  else if c = '=' then some .eq
  else if c = '<' then some .lt
  else none

/-- The byte of a character in a string: its ASCII value (R10). For a character outside ASCII, to which R10 gives no byte, it is
the low eight bits of the code point: DESIGN CHOICE (log 16). -/
def charByte (c : Char) : Byte := BitVec.ofNat 8 c.toNat

/-- The tokens of one line. White space may stand between any two tokens and need stand only between two words: DESIGN CHOICE,
R93 does not say (log 16). Text from ';' to the end of the line is a comment (R93). A ';' inside a string is a character of the
string (R10) and begins no comment: DESIGN CHOICE, R93 and R10 do not say which wins (log 16). A string ends at the next
quote, and one that does not end makes the line fail (log 16). -/
def lexLine : Nat → List Char → Option (List Token)
  | 0, _ => none
  | _ + 1, [] => some []
  | fuel + 1, c :: cs =>
    if c.isWhitespace then lexLine fuel cs
    else if c = ';' then some []
    else if c = quoteChar then
      match cs.dropWhile (· != quoteChar) with
      | [] => none
      | _ :: rest => (lexLine fuel rest).map (.text ((cs.takeWhile (· != quoteChar)).map charByte) :: ·)
    else if wordChar c then
      match wordToken (c :: cs.takeWhile wordChar) with
      | none => none
      | some t => (lexLine fuel (cs.dropWhile wordChar)).map (t :: ·)
    else
      match cs.head?.bind (doubleToken c) with
      | some t => (lexLine fuel cs.tail).map (t :: ·)
      | none =>
        match singleToken c with
        | none => none
        | some t => (lexLine fuel cs).map (t :: ·)

/-! ### Expressions -/

/-- A name as a number, so that temporaries and labels are numbers; 0 is no name. -/
def nameNumber (cs : List Char) : Nat := cs.foldl (fun n c => n * 256 + c.toNat) 0

/-- The operators of a level: `+` and `-` bind tightest, then `<<` and `>>`, then `&` (R93). -/
def binaryOperator (level : Nat) (t : Token) (a b : Expr) : Option Expr :=
  match level, t with
  | 1, .plus => some (.add a b)
  | 1, .minus => some (.sub a b)
  | 2, .shl => some (.shl a b)
  | 2, .shr => some (.shr a b)
  | 3, .amp => some (.and a b)
  | _, _ => none

/-- Is the token an operator of the level? -/
def isOperator (level : Nat) (t : Token) : Bool := (binaryOperator level t (.lit 0#32) (.lit 0#32)).isSome

/-- Parse an expression of a level; level 0 is a literal, a temporary, a bit `t[i]` or a parenthesis (R93). The third
argument is the left operand read so far. Operators of one level associate to the left, as in C (DEDUCED, log 16). `-` stands
only between two operands, so that a literal such as -1 fails to parse: DESIGN CHOICE, R93 does not say (log 16). -/
def parseAt : Nat → Nat → Option Expr → List Token → Option (Expr × List Token)
  | 0, _, _, _ => none
  | fuel + 1, 0, _, toks =>
    match toks with
    | .num n :: rest => some (.lit (BitVec.ofNat 32 n), rest)
    | .name t :: .lbrack :: rest =>
      match parseAt fuel 3 none rest with
      | some (i, .rbrack :: rest) => some (.bit (nameNumber t) i, rest)
      | _ => none
    | .name t :: rest => some (.temp (nameNumber t), rest)
    | .lparen :: rest =>
      match parseAt fuel 3 none rest with
      | some (e, .rparen :: rest) => some (e, rest)
      | _ => none
    | _ => none
  | fuel + 1, level + 1, none, toks =>
    match parseAt fuel level none toks with
    | none => none
    | some (e, rest) => parseAt fuel (level + 1) (some e) rest
  | fuel + 1, level + 1, some e, toks =>
    match toks with
    | [] => some (e, [])
    | t :: rest =>
      if isOperator (level + 1) t then
        match parseAt fuel level none rest with
        | none => none
        | some (e', rest') => (binaryOperator (level + 1) t e e').bind fun x => parseAt fuel (level + 1) (some x) rest'
      else some (e, t :: rest)

/-- Parse an expression. -/
def parseExpr (toks : List Token) : Option (Expr × List Token) := parseAt (8 * (toks.length + 1)) 3 none toks

/-- Parse an expression that ends the line. -/
def parseLastExpr (toks : List Token) : Option Expr :=
  match parseExpr toks with
  | some (e, []) => some e
  | _ => none

/-- Parse two expressions with a comma between them, the second ending the line. -/
def parsePair (toks : List Token) : Option (Expr × Expr) :=
  match parseExpr toks with
  | some (a, .comma :: rest) => (parseLastExpr rest).map fun b => (a, b)
  | _ => none

/-! ### Registers and commands -/

/-- The registers' names (R21). -/
def regNames : List (List Char × Reg) :=
  [(['C', 'M', 'D'], .cmd), (['S', 'T', 'A', 'T', 'U', 'S'], .status), (['C', 'F', 'G'], .cfg),
   (['R', 'E', 'S', 'U', 'L', 'T'], .result),
   (['S', 'R', 'C', '_', 'A', 'D', 'D', 'R'], .srcAddr), (['S', 'R', 'C', '_', 'L', 'E', 'N'], .srcLen),
   (['D', 'S', 'T', '_', 'A', 'D', 'D', 'R'], .dstAddr), (['D', 'S', 'T', '_', 'C', 'A', 'P'], .dstCap),
   (['K', 'E', 'Y', '_', 'A', 'D', 'D', 'R'], .keyAddr), (['K', 'E', 'Y', '_', 'L', 'E', 'N'], .keyLen),
   (['C', 'O', 'L', '_', 'A', 'D', 'D', 'R'], .colAddr), (['C', 'O', 'L', '_', 'L', 'E', 'N'], .colLen),
   (['E', 'R', 'R', '_', 'V', 'A', 'L'], .errVal), (['E', 'R', 'R', '_', 'P', 'O', 'S'], .errPos),
   (['I', 'D'], .ident)]

/-- Parse a register's name, SYMTAB[i] among them, its index a literal (R21, log 16). -/
def parseReg (toks : List Token) : Option (Reg × List Token) :=
  match toks with
  | .name ['S', 'Y', 'M', 'T', 'A', 'B'] :: .lbrack :: .num i :: .rbrack :: rest =>
    if h : i < 64 then some (.symtab ⟨i, h⟩, rest) else none
  | .name cs :: rest => (regNames.lookup cs).map fun r => (r, rest)
  | _ => none

/-- CONFIG's options, in any order (R93), a repeated one counting once (log 16); the options read so far are STRICT, PRESERVE
and DEFAULT. -/
def parseOptions (wsel : BitVec 2) : List Token → Bool → Bool → Bool → Option Instr
  | [], strict, preserve, dflt => some (.config wsel strict preserve dflt)
  | .comma :: .name cs :: rest, strict, preserve, dflt =>
    if cs = ['s', 't', 'r', 'i', 'c', 't'] then parseOptions wsel rest true preserve dflt
    else if cs = ['p', 'r', 'e', 's', 'e', 'r', 'v', 'e'] then parseOptions wsel rest strict true dflt
    else if cs = ['d', 'e', 'f', 'a', 'u', 'l', 't'] then parseOptions wsel rest strict preserve true
    else none
  | _, _, _, _ => none

/-- The option of SEARCH and PSEARCH (R93). -/
def parseNulltol (i : Bool → Instr) : List Token → Option Instr
  | [] => some (i false)
  | [.name cs] => if cs = ['n', 'u', 'l', 'l', 't', 'o', 'l'] then some (i true) else none
  | _ => none

/-- The commands without options (R93). -/
def plainCommands : List (List Char × Instr) :=
  [(['P', 'A', 'C', 'K'], .pack), (['U', 'N', 'P', 'A', 'C', 'K'], .unpack), (['C', 'M', 'P'], .cmp),
   (['P', 'C', 'M', 'P'], .pcmp)]

/-- Parse a command (R93). -/
def parseCommand (toks : List Token) : Option Instr :=
  match toks with
  | .name cs :: rest =>
    if cs = ['C', 'O', 'N', 'F', 'I', 'G'] then
      match rest with
      | .name ['w'] :: .eq :: .num n :: options =>
        if 4 ≤ n ∧ n ≤ 6 then parseOptions (BitVec.ofNat 2 (n - 4)) options false false false else none
      | _ => none
    else if cs = ['S', 'E', 'A', 'R', 'C', 'H'] then parseNulltol .search rest
    else if cs = ['P', 'S', 'E', 'A', 'R', 'C', 'H'] then parseNulltol .psearch rest
    else if rest = [] then plainCommands.lookup cs
    else none
  | _ => none

/-! ### Source lines -/

/-- A line of a program's source (R93, R94). In `line` a jump names a label, not a line; the address and the bytes of a `MEM`
line are expressions. -/
inductive SrcLine where
  | label (l : Nat)
  | line (l : HostLine)
  | wait
  | run (i : Instr)
  | regPair (r q : Reg) (a n : Expr)
  | memory (addr : Expr) (bytes : List Expr)
  deriving DecidableEq, Repr

/-- One item of a `MEM` line: a byte given by an expression, or a string, which stands for its bytes (R10, R93). -/
def parseItem (toks : List Token) : Option (List Expr × List Token) :=
  match toks with
  | .text bs :: rest => some (bs.map fun b => .lit (b.setWidth 32), rest)
  | _ => (parseExpr toks).map fun p => ([p.1], p.2)

/-- The bytes of a `MEM` line (R93). The first argument bounds the number of items. -/
def parseBytes : Nat → List Token → Option (List Expr)
  | 0, _ => none
  | fuel + 1, toks =>
    match parseItem toks with
    | some (es, []) => some es
    | some (es, .comma :: rest) => (parseBytes fuel rest).map (es ++ ·)
    | _ => none

/-- A relation (R93). -/
def relationOf : Token → Option Relation
  | .eq => some .eq
  | .ne => some .ne
  | .lt => some .lt
  | .ge => some .ge
  | _ => none

/-- Parse `<expression> <relation> <expression> goto <label>` (R93). -/
def parseIf (toks : List Token) : Option SrcLine :=
  match parseExpr toks with
  | some (a, t :: rest) =>
    match relationOf t, parseExpr rest with
    | some rel, some (b, [.name ['g', 'o', 't', 'o'], .name l]) => some (.line (.ifGoto a rel b (nameNumber l)))
    | _, _ => none
  | _ => none

/-- The pseudo-instructions that write an address and a length (R94). -/
def pairNames : List (List Char × (Reg × Reg)) :=
  [(['S', 'R', 'C'], (.srcAddr, .srcLen)), (['D', 'S', 'T'], (.dstAddr, .dstCap)),
   (['K', 'E', 'Y'], (.keyAddr, .keyLen)), (['C', 'O', 'L'], (.colAddr, .colLen))]

/-- Parse a line that begins with a name (R93, R94). -/
def parseStatement (cs : List Char) (rest : List Token) : Option SrcLine :=
  if cs = ['W', 'R'] then
    match parseReg rest with
    | some (r, .comma :: more) => (parseLastExpr more).map fun v => .line (.wr r v)
    | _ => none
  else if cs = ['R', 'D'] then
    match parseReg rest with
    | some (r, [.arrow, .name t]) => some (.line (.rd r (nameNumber t)))
    | _ => none
  else if cs = ['I', 'S', 'S', 'U', 'E'] then (parseCommand rest).map fun i => .line (.issue i)
  else if cs = ['R', 'U', 'N'] then (parseCommand rest).map .run
  else if cs = ['W', 'A', 'I', 'T'] then (if rest = [] then some .wait else none)
  else if cs = ['L', 'D', 'B'] then
    match rest with
    | .name t :: .comma :: more => (parseLastExpr more).map fun a => .line (.ldb (nameNumber t) a)
    | _ => none
  else if cs = ['S', 'T', 'B'] then (parsePair rest).map fun p => .line (.stb p.1 p.2)
  else if cs = ['S', 'E', 'T'] then
    match rest with
    | .name t :: .eq :: more => (parseLastExpr more).map fun e => .line (.set (nameNumber t) e)
    | _ => none
  else if cs = ['i', 'f'] then parseIf rest
  else if cs = ['g', 'o', 't', 'o'] then
    match rest with
    | [.name l] => some (.line (.goto (nameNumber l)))
    | _ => none
  else if cs = ['H', 'A', 'L', 'T'] then (if rest = [] then some (.line .halt) else none)
  else if cs = ['M', 'E', 'M'] then
    match parseExpr rest with
    | some (a, .colon :: more) => (parseBytes (more.length + 1) more).map (.memory a)
    | _ => none
  else
    match pairNames.lookup cs with
    | some (r, q) => (parsePair rest).map fun p => .regPair r q p.1 p.2
    | none => none

/-- Parse a line's tokens: a label, a statement, or a label and then a statement (R93, R94). A label is any name, a word of R93
or a register's name among them: DESIGN CHOICE, R93 gives labels no form (log 16). -/
def parseTokens (toks : List Token) : Option (List SrcLine) :=
  match toks with
  | [] => some []
  | [.name l, .colon] => some [.label (nameNumber l)]
  | .name l :: .colon :: .name cs :: rest => (parseStatement cs rest).map fun s => [.label (nameNumber l), s]
  | .name cs :: rest => (parseStatement cs rest).map fun s => [s]
  | _ => none

/-- Parse one line of text. -/
def parseLine (cs : List Char) : Option (List SrcLine) := (lexLine (cs.length + 1) cs).bind parseTokens

/-- The lines of a text. -/
def splitLines : List Char → List (List Char)
  | [] => [[]]
  | c :: cs =>
    if c = '\n' then [] :: splitLines cs
    else
      match splitLines cs with
      | [] => [[c]]
      | l :: ls => (c :: l) :: ls

/-- Parse lines in order; one that does not parse makes the whole program fail (log 16). -/
def parseLines : List (List Char) → Option (List SrcLine)
  | [] => some []
  | l :: ls =>
    match parseLine l, parseLines ls with
    | some a, some b => some (a ++ b)
    | _, _ => none

/-! ### Expansion and labels -/

/-- How many lines a source line expands to (R94). -/
def SrcLine.size : SrcLine → Nat
  | .label _ => 0
  | .line _ => 1
  | .wait => 2
  | .run _ => 3
  | .regPair _ _ _ _ => 2
  | .memory _ _ => 0

/-- The number of the line a label stands before; `at_` is the number of the first line. Where one label stands on two lines
the first in the source counts: DESIGN CHOICE, R93 says nothing of it (log 16). -/
def labelLine (l at_ : Nat) : List SrcLine → Option Nat
  | [] => none
  | .label k :: rest => if k = l then some at_ else labelLine l at_ rest
  | s :: rest => labelLine l (at_ + s.size) rest

/-- The temporary WAIT reads STATUS into, a temporary no program names (R94, log 11). -/
def waitTemp : Nat := 0

/-- WAIT, placed at a line: poll until DONE = 1 (R94). -/
def waitLines (at_ : Nat) : List HostLine :=
  [.rd .status waitTemp, .ifGoto (.bit waitTemp (.lit 1#32)) .eq (.lit 0#32) at_]

/-- The line a jump goes to in place of its label; a label that stands nowhere makes the program fail (log 16). -/
def resolveLabels (source : List SrcLine) : HostLine → Option HostLine
  | .ifGoto a rel b l => (labelLine l 0 source).map (.ifGoto a rel b)
  | .goto l => (labelLine l 0 source).map .goto
  | .wr r v => some (.wr r v)
  | .rd r t => some (.rd r t)
  | .issue i => some (.issue i)
  | .ldb t a => some (.ldb t a)
  | .stb a v => some (.stb a v)
  | .set t e => some (.set t e)
  | .halt => some .halt

/-- The lines a source line stands for, placed at a line (R94). -/
def SrcLine.expand (source : List SrcLine) (at_ : Nat) : SrcLine → Option (List HostLine)
  | .label _ => some []
  | .line l => (resolveLabels source l).map fun l => [l]
  | .wait => some (waitLines at_)
  | .run i => some (.issue i :: waitLines (at_ + 1))
  | .regPair r q a n => some [.wr r a, .wr q n]
  | .memory _ _ => some []

/-- The lines source lines stand for, the first placed at a line. -/
def expandLines (source : List SrcLine) : Nat → List SrcLine → Option (List HostLine)
  | _, [] => some []
  | at_, s :: rest =>
    match s.expand source at_, expandLines source (at_ + s.size) rest with
    | some a, some b => some (a ++ b)
    | _, _ => none

/-- The lines of a source program (R93, R94). -/
def assemble (source : List SrcLine) : Option (List HostLine) := expandLines source 0 source

/-- The start contents a program's `MEM` lines give memory, in the order of the lines; their expressions are evaluated before
the host has executed a line (R93). A `MEM` line that passes 2^32 gives no start contents (log 16). -/
def loadMemory (h : HostState) (m : Memory) : List SrcLine → Option Memory
  | [] => some m
  | .memory a bytes :: rest =>
    if (h.eval a).toNat + bytes.length ≤ Config.addressSpace then
      loadMemory h (m.writeBytes (h.eval a).toNat (bytes.map fun e => (h.eval e).setWidth 8)) rest
    else none
  | _ :: rest => loadMemory h m rest

/-- The host right before it executes a program's first line (log 11). -/
def startHost (lines : List HostLine) : HostState := { program := lines, line := 0, temps := [] }

/-- Place a program in the host, at its first line, with the start contents of memory it states (R93). -/
def State.loadSource (s : State) (source : List SrcLine) : Option State :=
  (assemble source).bind fun lines =>
    (loadMemory (startHost lines) s.mem source).map fun m => { s with mem := m, host := startHost lines }

/-- Place a program given as text in the host (R93). -/
def State.loadText (s : State) (text : List Char) : Option State :=
  (parseLines (splitLines text)).bind s.loadSource

end Sys2Proof.Machine
end

