-- ==== Sys2Proof/Safety.lean ====
section
/-! DEFINITION. The terms claims use: what every reachable state looks like, a run, its end (70_reset_and_hazards.md R249)
and a safe run. -/

namespace Sys2Proof.Machine

/-- The tables while CFG_OK = 1 (10_state.md R35, R37). -/
structure State.Configured (s : State) : Prop where
  /-- `codeOf[symbols[i]] == i`. -/
  code_symbol : ∀ (i : Nat) (h : i < 64), i < s.width.size → s.code s.sym[i] = some (BitVec.ofNat 6 i)
  /-- A byte that is no symbol of the alphabet is UNMAPPED. -/
  code_unmapped : ∀ b : Symbol, (∀ (i : Nat) (h : i < 64), i < s.width.size → s.sym[i] ≠ b) → s.code b = none
  /-- Unused entries hold 0. -/
  unused : ∀ (i : Nat) (h : i < 64), s.width.size ≤ i → s.sym[i] = 0#7

/-- The tables and CFG while CFG_OK = 0 (R24, R109, R231). -/
structure State.Unconfigured (s : State) : Prop where
  cfg : s.cfg = Cfg.reset
  sym : s.sym = clearedSym
  codeOf : s.codeOf = clearedCodeOf

/-- What holds of the machine after every step from reset: STATUS is as R25 says, the tables are as R35 and R37 say, and
memory and the host's temporaries are in canonical form. -/
structure State.Inv (s : State) : Prop where
  status : s.status.wf = true
  configured : s.status.cfgOk = true → s.Configured
  unconfigured : s.status.cfgOk = false → s.Unconfigured
  mem : s.mem.wf = true
  temps : tableCanonical Config.unwrittenTemp s.host.temps = true

/-- The run has ended: the host program has executed its last line and the engine is IDLE (R249). -/
def State.ended (s : State) : Bool := s.host.ended && !s.status.busy

/-- `k` steps, stopping at the first fault or refusal. -/
def runSteps : Nat → State → Host.Outcome State Fault Refusal
  | 0, s => .next s
  | k + 1, s =>
    match step s with
    | .next t => runSteps k t
    | .fault f => .fault f
    | .refused r => .refused r

/-- A run of `k` steps meets no model fault and no refusal. -/
def SafeRun (k : Nat) (s : State) : Prop := ∃ t, runSteps k s = .next t

/-! ### What the rules say of words and ranges -/

/-- R86: OP is 1 to 7, bits 7:4 and 31:16 are 0, and OPT is legal for OP by R87, R88 or R89. -/
abbrev legalWord (w : Word) : Prop :=
  w.toNat / 2 ^ 4 % 2 ^ 4 = 0 ∧ w.toNat / 2 ^ 16 = 0 ∧
    (w.toNat % 16 = 1 ∧ w.toNat / 2 ^ 8 % 4 ≠ 3 ∧ w.toNat / 2 ^ 13 % 8 = 0 ∨
      (w.toNat % 16 = 4 ∨ w.toNat % 16 = 5) ∧ w.toNat / 2 ^ 9 % 2 ^ 7 = 0 ∨
      (w.toNat % 16 = 2 ∨ w.toNat % 16 = 3 ∨ w.toNat % 16 = 6 ∨ w.toNat % 16 = 7) ∧ w.toNat / 2 ^ 8 % 2 ^ 8 = 0)

/-- A range is admitted (R54). -/
abbrev Admitted (p : Platform) (r : Range) : Prop :=
  r.len = 0 ∨ (r.base + r.len ≤ 2 ^ 32 ∧ ∀ k, k < r.len → p.admits (r.base + k) = true)

/-- A range is not admitted and is reported at `a` (R54): its base if it passes 2^32, else its lowest refused byte. -/
abbrev RefusedAt (p : Platform) (r : Range) (a : Nat) : Prop :=
  r.len ≠ 0 ∧
    ((2 ^ 32 < r.base + r.len ∧ a = r.base) ∨
      (r.base + r.len ≤ 2 ^ 32 ∧ r.base ≤ a ∧ a < r.base + r.len ∧ p.admits a = false ∧
        ∀ k, k < a - r.base → p.admits (r.base + k) = true))

/-- Two ranges share no byte (R56). -/
abbrev Separate (r q : Range) : Prop :=
  r.len = 0 ∨ q.len = 0 ∨ r.base + r.len ≤ q.base ∨ q.base + q.len ≤ r.base

/-! ### How a command ends -/

/-- The state after success with a result, the command having left memory `m` (R42). -/
def State.successEnd (s : State) (m : Memory) (res : Int) : State :=
  { s with
    mem := m
    result := BitVec.ofInt 32 res
    errVal := 0#32
    errPos := 0#32
    status :=
      { busy := false, done := true, err := false, cfgOk := s.status.cfgOk, errCode := .noFault, errSub := 0#8 } }

/-- The state after `Fault(CODE, SUB, VAL, POS)` (R205). -/
def State.faultEnd (s : State) (code : FaultCode) (sub : BitVec 8) (val pos : Nat) : State :=
  { s with
    result := 0#32
    errVal := BitVec.ofNat 32 val
    errPos := BitVec.ofNat 32 pos
    status :=
      { busy := false, done := true, err := true, cfgOk := s.status.cfgOk, errCode := code, errSub := sub } }

/-- The state after a fault of a CONFIG whose word decodes (R109, R205). -/
def State.configFaultEnd (s : State) (code : FaultCode) (sub : BitVec 8) (val pos : Nat) : State :=
  { s with
    result := 0#32
    errVal := BitVec.ofNat 32 val
    errPos := BitVec.ofNat 32 pos
    cfg := { width := .w4, strict := false, preserve := false }
    sym := Vector.replicate 64 0#7
    codeOf := Vector.replicate 128 none
    status := { busy := false, done := true, err := true, cfgOk := false, errCode := code, errSub := sub } }

/-! ### When a command meets no fault -/

/-- No check of PACK fails (R124). -/
abbrev PackReady (s : State) : Prop :=
  s.status.cfgOk = true ∧ s.srcLen.toNat ≤ 2 ^ 31 - 1 ∧ Separate s.srcRange s.dstRange ∧
    Admitted s.platform s.srcRange ∧ Admitted s.platform s.dstRange ∧
    packedSize s.width s.srcLen.toNat ≤ s.dstCap.toNat ∧
    ∀ k, k < s.srcLen.toNat → (s.encode (s.mem.read (s.srcAddr.toNat + k))).isSome = true

/-- No check of UNPACK fails (R127). -/
abbrev UnpackReady (s : State) : Prop :=
  s.status.cfgOk = true ∧ s.srcLen.toNat ≤ 2 ^ 31 - 1 ∧ Separate s.srcRange s.dstRange ∧
    Admitted s.platform s.srcRange ∧ Admitted s.platform s.dstRange ∧
    malformedSub s.width (s.readRange s.srcRange) = none ∧
    decodedLength s.width (s.readRange s.srcRange) ≤ 2 ^ 31 - 1 ∧
    decodedLength s.width (s.readRange s.srcRange) ≤ s.dstCap.toNat

/-- No check of CMP and PCMP fails (R166). -/
abbrev CompareReady (s : State) : Prop :=
  s.status.cfgOk = true ∧ s.srcLen.toNat ≤ 2 ^ 31 - 1 ∧ s.keyLen.toNat ≤ 2 ^ 31 - 1 ∧
    Admitted s.platform s.srcRange ∧ Admitted s.platform s.keyRange ∧
    malformedSub s.width (s.readRange s.srcRange) = none

/-- No check of SEARCH and PSEARCH fails before an element is visited (R172). -/
abbrev SearchReady (s : State) (nulltol : Bool) : Prop :=
  s.status.cfgOk = true ∧ (nulltol = true → s.width = .w4) ∧ s.keyLen.toNat ≤ 2 ^ 31 - 1 ∧
    s.colLen.toNat ≤ 2 ^ 31 - 1 ∧ Admitted s.platform s.keyRange ∧ Admitted s.platform s.tableRange

/-! ### The collection -/

/-- Descriptor i of the collection (R82). -/
def State.descriptor (s : State) (i : Nat) : Descriptor := descriptorAt s.mem s.colAddr.toNat i

/-- The plain string element i holds; `none` is an absent slot (R83, R160). -/
def State.element (s : State) (i : Nat) : Option (List Byte) :=
  if (s.descriptor i).len = absentLen then none else some (s.symbols (s.readRange (s.descriptor i).range))

/-- The key (R29). -/
def State.key (s : State) : List Byte := s.readRange s.keyRange

/-- A visit of element i does not fault (R171). -/
abbrev ElementReady (s : State) (nulltol : Bool) (i : Nat) : Prop :=
  if (s.descriptor i).len = absentLen then nulltol = true
  else
    (s.descriptor i).len ≤ 2 ^ 31 - 1 ∧ Admitted s.platform (s.descriptor i).range ∧
      malformedSub s.width (s.readRange (s.descriptor i).range) = none

/-- No visit of an element faults (R171). -/
abbrev ElementsReady (s : State) (nulltol : Bool) : Prop := ∀ i, i < s.colLen.toNat → ElementReady s nulltol i

/-- A string as the integers of its bytes, ordered lexicographically, shorter-is-less on a common prefix (R162, R169). -/
def plain (bs : List Byte) : List Nat := bs.map BitVec.toNat

/-- Element i may stand before element j: present elements rise and absent slots come last (R169). -/
def mayPrecede (x y : Option (List Byte)) : Bool :=
  match x, y with
  | some x, some y => decide (¬plain y < plain x)
  | none, some _ => false
  | _, none => true

/-- The collection is sorted (R169). -/
abbrev SortedCollection (s : State) : Prop :=
  ∀ j, j < s.colLen.toNat → ∀ i, i < j → mayPrecede (s.element i) (s.element j) = true

/-- How many present elements are less than the key (R174). -/
def State.insertionPoint (s : State) : Nat :=
  (List.range s.colLen.toNat).countP fun i => (s.element i).any fun x => decide (plain x < plain s.key)

/-- How element i compares with the key: 0 is a match, in prefix mode also where the key starts the element; a negative number
says that the element comes first; an absent slot comes after every key (R163, R168). -/
def State.elementOrder (s : State) (prefixed : Bool) (i : Nat) : Int :=
  match s.element i with
  | none => 1
  | some x => if x = s.key ∨ (prefixed = true ∧ s.key <+: x) then 0 else if plain x < plain s.key then -1 else 1

/-- The intervals of indices the binary search comes to, `lo` to `hi`: the whole collection, and the part above or below the
middle of an interval it has come to, as the element there compares (R171). -/
inductive SearchInterval (s : State) (nulltol prefixed : Bool) : Int → Int → Prop
  | whole : SearchInterval s nulltol prefixed 0 ((s.colLen.toNat : Int) - 1)
  | upper {lo hi : Int} {mid : Nat} : SearchInterval s nulltol prefixed lo hi → lo ≤ hi → (mid : Int) = (lo + hi) / 2 →
      ElementReady s nulltol mid → s.elementOrder prefixed mid < 0 → SearchInterval s nulltol prefixed (mid + 1) hi
  | lower {lo hi : Int} {mid : Nat} : SearchInterval s nulltol prefixed lo hi → lo ≤ hi → (mid : Int) = (lo + hi) / 2 →
      ElementReady s nulltol mid → 0 < s.elementOrder prefixed mid → SearchInterval s nulltol prefixed lo (mid - 1)

/-! ### The bytes commands in flight use (R240, R241) -/

/-- A command reads this byte: the list of a CONFIG of a list, the source, the key, the descriptor table, or an element that a
descriptor below 2^32 names (log 8). -/
def readsByte (s : State) (i : Instr) (a : Nat) : Prop :=
  match i with
  | .config wsel _ _ dflt => dflt = false ∧ s.srcAddr.toNat ≤ a ∧ a < s.srcAddr.toNat + 2 ^ (4 + wsel.toNat)
  | .pack => s.srcRange.contains a = true
  | .unpack => s.srcRange.contains a = true
  | .search _ => searchReads a
  | .psearch _ => searchReads a
  | .cmp => s.srcRange.contains a = true ∨ s.keyRange.contains a = true
  | .pcmp => s.srcRange.contains a = true ∨ s.keyRange.contains a = true
where
  /-- The bytes a search reads. -/
  searchReads (a : Nat) : Prop :=
    s.keyRange.contains a = true ∨ s.tableRange.contains a = true ∨
      ∃ j, j < s.colLen.toNat ∧ s.colAddr.toNat + 8 * (j + 1) ≤ 2 ^ 32 ∧ (s.descriptor j).len ≠ 0xFFFFFFFF ∧
        (s.descriptor j).range.contains a = true

/-- A command writes this byte: the destination of PACK and UNPACK, and the source of a PACK in place (R240, R123). -/
def writesByte (s : State) (i : Instr) (a : Nat) : Prop :=
  match i with
  | .config _ _ _ _ => False
  | .pack => s.dstRange.contains a = true ∨ (s.cfg.preserve = false ∧ s.srcRange.contains a = true)
  | .unpack => s.dstRange.contains a = true
  | .search _ => False
  | .psearch _ => False
  | .cmp => False
  | .pcmp => False

/-- The command in flight here reads this byte. -/
def readsInFlight (s : State) (a : Nat) : Prop :=
  s.status.busy = true ∧ ∃ i, decode s.cmdLatch = .ok i ∧ readsByte s i a

/-- The command in flight here writes this byte. -/
def writesInFlight (s : State) (a : Nat) : Prop :=
  s.status.busy = true ∧ ∃ i, decode s.cmdLatch = .ok i ∧ writesByte s i a

/-- A command of another SPE reads this byte. -/
abbrev Footprint.readsAt (p : Footprint) (a : Nat) : Prop := ∃ r ∈ p.reads, r.contains a = true

/-- A command of another SPE writes this byte. -/
abbrev Footprint.writesAt (p : Footprint) (a : Nat) : Prop := ∃ r ∈ p.writes, r.contains a = true

/-- One of two commands writes a byte that the other reads or writes (R241); `r` and `w` say whether each reads and writes
the byte. -/
abbrev Conflict (r w r' w' : Prop) : Prop := (w ∧ (r' ∨ w')) ∨ (w' ∧ (r ∨ w))

end Sys2Proof.Machine
end

