-- ==== Sys2Proof/Certificates/Slice0/Obligations.lean ====
section
/-! DEFINITION. The statements for the provers. Each docstring names the rule or the log entry a statement rests on. -/

open Sys2Proof Sys2Proof.Machine

/-! ### Command words and the step -/

/-- R86. A word decodes exactly when it is legal; performing one that does not decode ends in ILLEGAL_CMD sub 1 and changes
nothing beyond R205. -/
def Obligations.ExactlyTheLegalWordsDecode : Prop :=
  (∀ w : Word, (∃ i, decode w = .ok i) ↔ legalWord w) ∧
    ∀ (s : State) (rest : List Turn), s.status.busy = true → ¬legalWord s.cmdLatch → s.turns = .engine :: rest →
      step s = .next (({ s with turns := rest } : State).faultEnd .illegalCmd 1#8 0 0)

/-- Decode and encode agree on every word and every command (R84 to R89, R93): no bit of a word is dropped. -/
def Obligations.DecodeAndEncodeAgree : Prop :=
  ∀ (w : Word) (i : Instr), decode w = .ok i ↔ i.wellFormed = true ∧ encode i = w

/-- Words of R93's syntax table and of 95_test_vectors.md decode to the commands they stand for. -/
def Obligations.SyntaxTableWordsDecode : Prop :=
  decode 0x00000001#32 = .ok (.config 0#2 false false false) ∧ decode 0x00000D01#32 = .ok (.config 1#2 true true false) ∧
    decode 0x00001201#32 = .ok (.config 2#2 false false true) ∧ decode 0x00000002#32 = .ok .pack ∧
    decode 0x00000003#32 = .ok .unpack ∧ decode 0x00000104#32 = .ok (.search true) ∧
    decode 0x00000005#32 = .ok (.psearch false) ∧ decode 0x00000006#32 = .ok .cmp ∧ decode 0x00000007#32 = .ok .pcmp ∧
    (∀ i, decode 0x00000000#32 ≠ .ok i) ∧ (∀ i, decode 0x00000301#32 ≠ .ok i) ∧ ∀ i, decode 0x00000012#32 ≠ .ok i

/-- R41. While BUSY, the engine's step is the command the latch holds, whole; the model lets the engine move first when
`turns` names nobody (log 1). -/
def Obligations.StepPerformsTheLatchedCommand : Prop :=
  ∀ (s : State) (i : Instr), s.status.busy = true → decode s.cmdLatch = .ok i →
    (s.turns = [] → step s = exec i s) ∧
      ∀ rest, s.turns = .engine :: rest → step s = exec i { s with turns := rest }

/-- R41, R42, R205, R202: whatever the latch holds, one engine step ends the command: BUSY is 0 and DONE is 1 after it, a
success leaves the diagnostics 0 and a fault leaves RESULT 0; the machine never stops there. That the engine moves first
when `turns` names nobody is the model's choice (log 1). -/
def Obligations.EveryCommandEndsInOneEngineStep : Prop :=
  ∀ s : State, s.status.busy = true → (s.turns = [] ∨ ∃ rest, s.turns = .engine :: rest) →
    ∃ t, step s = .next t ∧ t.status.busy = false ∧ t.status.done = true ∧
      (t.status.err = false → t.status.errCode = .noFault ∧ t.status.errSub = 0#8 ∧ t.errVal = 0#32 ∧ t.errPos = 0#32) ∧
      (t.status.err = true → t.status.errCode ≠ .noFault ∧ t.result = 0#32)

/-! ### The register block -/

/-- R40. A host write of v to CMD while IDLE latches v and sets STATUS to BUSY alone, whatever v is; CFG_OK, RESULT,
ERR_VAL, ERR_POS, the operand registers and all else keep their values. `writeReg` is the one operation every host write
of a register goes through. Other SPEs in flight must not conflict (R241). -/
def Obligations.IssueLatchesTheCommand : Prop :=
  ∀ (s t : State) (v : Word), s.status.busy = false →
    (∀ p ∈ s.peers, (s.issueWord v).inFlight.conflicts p = false) →
    t =
      { s with
        cmdLatch := v
        cmd := v
        status :=
          { busy := true, done := false, err := false, cfgOk := s.status.cfgOk, errCode := .noFault, errSub := 0#8 } } →
      s.writeReg .cmd v = .next t ∧
        ∀ rest, s.turns = .access (.regWrite 0x000#9 4 v) :: rest → step s = .next { t with turns := rest }

/-- R43, R238. While BUSY a write to any register, at any offset, has no effect; a read answers and changes no register.
`writeReg` is the one operation every host write of a register goes through. That the value a read access answers goes to
`busData` is the model's choice (log 10). -/
def Obligations.BusyDropsRegisterWrites : Prop :=
  ∀ s : State, s.status.busy = true →
    (∀ r v, s.writeReg r v = .next s) ∧
      ∀ (offset : BitVec 9) (rest : List Turn), offset.toNat % 4 = 0 →
        (∀ v, s.turns = .access (.regWrite offset 4 v) :: rest → step s = .next { s with turns := rest }) ∧
          (s.turns = .access (.regRead offset 4) :: rest →
            ∃ x, s.readBlock offset 4 = some x ∧ step s = .next { s with turns := rest, busData := x })

/-- R22, R209. Only aligned 32-bit accesses have a meaning; a read changes no register; an unlisted offset (0x03C to 0x0FF) reads
0 and ignores writes; a read-only register ignores writes. The value an access reads is the register's (`readBlock`, which
`EachOffsetReadsItsField` says); that it goes to `busData` is the model's choice (log 10). -/
def Obligations.RegisterAccessRules : Prop :=
  ∀ (s : State) (offset : BitVec 9) (width : Nat) (v : Word) (rest : List Turn),
    (¬(width = 4 ∧ offset.toNat % 4 = 0) →
      (s.turns = .access (.regRead offset width) :: rest → step s = .fault .badAccess) ∧
        (s.turns = .access (.regWrite offset width v) :: rest → step s = .fault .badAccess)) ∧
    (offset.toNat % 4 = 0 → s.turns = .access (.regRead offset 4) :: rest →
      ∃ x, s.readBlock offset 4 = some x ∧ step s = .next { s with turns := rest, busData := x } ∧
        (0x3C ≤ offset.toNat → offset.toNat ≤ 0xFF → x = 0#32)) ∧
    (offset.toNat % 4 = 0 →
      (0x3C ≤ offset.toNat ∨ offset.toNat ∈ [0x004, 0x008, 0x00C, 0x030, 0x034, 0x038]) →
      s.turns = .access (.regWrite offset 4 v) :: rest → step s = .next { s with turns := rest })

/-- R21, R23, R26 to R33: what each offset of the block reads, the words of STATUS, CFG and SYMTAB apart, which
`StatusAndCfgRegisterBits` and `SymtabShowsTheAlphabet` say; the host program's RD reads the same value by the register's
name. -/
def Obligations.EachOffsetReadsItsField : Prop :=
  ∀ (s : State) (offset : BitVec 9) (r : Reg) (x : Word),
    (offset, r, x) ∈
      [(0x000#9, Reg.cmd, s.cmd), (0x00C#9, .result, s.result), (0x010#9, .srcAddr, s.srcAddr), (0x014#9, .srcLen, s.srcLen),
        (0x018#9, .dstAddr, s.dstAddr), (0x01C#9, .dstCap, s.dstCap), (0x020#9, .keyAddr, s.keyAddr),
        (0x024#9, .keyLen, s.keyLen), (0x028#9, .colAddr, s.colAddr), (0x02C#9, .colLen, s.colLen),
        (0x030#9, .errVal, s.errVal), (0x034#9, .errPos, s.errPos), (0x038#9, .ident, 0x53504501#32)] →
      s.readBlock offset 4 = some x ∧ s.readReg r = x

/-- R21, R27 to R30: a host write to an operand register while IDLE, by its offset or by its name, sets the field R21 lists at
that offset and nothing else; it is read back, and every other register of the block reads as before. -/
def Obligations.OperandRegistersReadBack : Prop :=
  ∀ (s t : State) (offset : BitVec 9) (r : Reg) (v : Word), s.status.busy = false →
    (offset, r, t) ∈
      [(0x010#9, Reg.srcAddr, { s with srcAddr := v }), (0x014#9, .srcLen, { s with srcLen := v }),
        (0x018#9, .dstAddr, { s with dstAddr := v }), (0x01C#9, .dstCap, { s with dstCap := v }),
        (0x020#9, .keyAddr, { s with keyAddr := v }), (0x024#9, .keyLen, { s with keyLen := v }),
        (0x028#9, .colAddr, { s with colAddr := v }), (0x02C#9, .colLen, { s with colLen := v })] →
      s.writeReg r v = .next t ∧ s.writeBlock offset 4 v = .next t ∧
        (∀ rest, s.turns = .access (.regWrite offset 4 v) :: rest → step s = .next { t with turns := rest }) ∧
        t.readBlock offset 4 = some v ∧
        ∀ other : BitVec 9, other ≠ offset → other.toNat % 4 = 0 → t.readBlock other 4 = s.readBlock other 4

/-- R25, R200. The bits of STATUS, bit by bit, with the number of each fault code; R24: the bits of CFG, which reads 0 while CFG_OK = 0; R33: ID. -/
def Obligations.StatusAndCfgRegisterBits : Prop :=
  ∀ s : State,
    (∃ x, s.readBlock 0x004#9 4 = some x ∧ x.getLsbD 0 = s.status.busy ∧ x.getLsbD 1 = s.status.done ∧
      x.getLsbD 2 = s.status.err ∧ x.getLsbD 3 = s.status.cfgOk ∧
      x.extractLsb' 4 4 =
        (match s.status.errCode with
        | .noFault => 0#4
        | .illegalCmd => 1#4
        | .notConfigured => 2#4
        | .configError => 3#4
        | .unsupportedChar => 4#4
        | .dstOverflow => 5#4
        | .malformed => 6#4
        | .busError => 7#4
        | .lengthError => 8#4
        | .absentElement => 9#4
        | .overlap => 10#4) ∧
      x.extractLsb' 8 8 = s.status.errSub ∧ x.extractLsb' 16 16 = 0#16) ∧
    (∃ x, s.readBlock 0x008#9 4 = some x ∧ (s.status.cfgOk = false → x = 0#32) ∧
      (s.status.cfgOk = true → 4 + (x.extractLsb' 0 2).toNat = s.cfg.width.bits ∧ x.getLsbD 2 = s.cfg.strict ∧
        x.getLsbD 3 = s.cfg.preserve ∧ x.extractLsb' 4 28 = 0#28)) ∧
    s.readBlock 0x038#9 4 = some 0x53504501#32

/-- R34. While CFG_OK = 1 and i < 2^W, SYMTAB[i] is SYM[i] with zeros above; otherwise it reads 0. -/
def Obligations.SymtabShowsTheAlphabet : Prop :=
  ∀ (s : State) (i : Nat) (h : i < 64),
    s.readBlock (BitVec.ofNat 9 (0x100 + 4 * i)) 4 =
      some (if s.status.cfgOk = true ∧ i < 2 ^ s.cfg.width.bits then s.sym[i].setWidth 32 else 0#32)

/-! ### Reset -/

/-- R230. After a reset applied in any state every listed register reads its reset value, ID 0x53504501 and every other 0,
every SYMTAB register among them; so it is right after power-on. -/
def Obligations.ResetRegisterValues : Prop :=
  ∀ offset : BitVec 9, offset.toNat % 4 = 0 →
    State.reset.readBlock offset 4 = some (if offset = 0x038#9 then 0x53504501#32 else 0#32) ∧
      ∀ (s : State) (rest : List Turn), s.turns = .reset :: rest →
        ∃ t, step s = .next t ∧ t.readBlock offset 4 = some (if offset = 0x038#9 then 0x53504501#32 else 0#32)

/-- R231. The state no register shows directly, after a reset applied in any state: the engine is IDLE, CMD_LATCH 0, CFG_OK
0, SYM all 0, CODEOF all UNMAPPED, and DONE, ERR, ERRCODE and ERRSUB 0. -/
def Obligations.ResetClearsHiddenState : Prop :=
  ∀ (s : State) (rest : List Turn), s.turns = .reset :: rest →
    ∃ t, step s = .next t ∧ t.status.busy = false ∧ t.cmdLatch = 0#32 ∧ t.status.cfgOk = false ∧
      (∀ (i : Nat) (h : i < 64), t.sym[i] = 0#7) ∧ (∀ (b : Nat) (h : b < 128), t.codeOf[b] = none) ∧
      t.status.done = false ∧ t.status.err = false ∧ t.status.errCode.number = 0#4 ∧ t.status.errSub = 0#8

/-- R232, R233. Reset changes no byte of host memory but those an abandoned command could have written: the destination of
a PACK or an UNPACK in flight, and the source of a PACK in place. Which bytes count as written is the model's reading of
R233 (log 5). -/
def Obligations.ResetTouchesOnlyAbandonedRanges : Prop :=
  ∀ (s : State) (rest : List Turn) (a : Nat), s.turns = .reset :: rest →
    ¬(s.status.busy = true ∧
      ((s.cmdLatch = 0x2#32 ∨ s.cmdLatch = 0x3#32) ∧ s.dstRange.contains a = true ∨
        s.cmdLatch = 0x2#32 ∧ s.cfg.preserve = false ∧ s.srcRange.contains a = true)) →
      ∃ t, step s = .next t ∧ t.mem.read a = s.mem.read a ∧ t.platform = s.platform

/-! ### CONFIG -/

/-- R103, R108. CONFIG of a valid list in admitted memory succeeds (R101): SYM holds the list and zeros after it, CODEOF is
its inverse, CFG holds the options, CFG_OK is 1, RESULT is 2^W, and all else is as before. -/
def Obligations.ConfigLoadsTheAlphabet : Prop :=
  ∀ (s : State) (w : Width) (strict preserve : Bool), s.srcLen.toNat = w.size →
    Admitted s.platform { base := s.srcAddr.toNat, len := w.size } →
    (∀ i, i < w.size → (s.mem.read (s.srcAddr.toNat + i)).toNat < 128) →
    (∀ i, i < w.size → ∀ j, j < i → s.mem.read (s.srcAddr.toNat + j) ≠ s.mem.read (s.srcAddr.toNat + i)) →
      ∃ t, exec (.config w.sel strict preserve false) s = .next t ∧
        t =
          { s with
            cfg := { width := w, strict := strict, preserve := preserve }
            sym := t.sym
            codeOf := t.codeOf
            result := BitVec.ofNat 32 (2 ^ w.bits)
            errVal := 0#32
            errPos := 0#32
            status :=
              { busy := false, done := true, err := false, cfgOk := true, errCode := .noFault, errSub := 0#8 } } ∧
        (∀ (i : Nat) (h : i < 64), t.sym[i] =
          if i < w.size then (s.mem.read (s.srcAddr.toNat + i)).setWidth 7 else 0#7) ∧
        (∀ i, i < w.size → t.codeOf[(s.mem.read (s.srcAddr.toNat + i)).toNat]? = some (some (BitVec.ofNat 6 i))) ∧
        ∀ (b : Nat) (h : b < 128), (∀ i, i < w.size → (s.mem.read (s.srcAddr.toNat + i)).toNat ≠ b) → t.codeOf[b] = none

/-- R103, R108. A CONFIG that succeeds, of a list or of a default list, has stored the list S: SYM holds S and zeros after
it, CODEOF[b] is i where S[i] = b and UNMAPPED where b is no symbol, CFG holds the options, and CFG_OK is 1. -/
def Obligations.SuccessfulConfigCommits : Prop :=
  ∀ (s t : State) (w : Width) (strict preserve dflt : Bool) (S : List Byte), S = s.symbolList w dflt →
    exec (.config w.sel strict preserve dflt) s = .next t → t.status.err = false →
      (∀ (i : Nat) (h : i < 64), t.sym[i] = if i < 2 ^ w.bits then (S.getD i 0#8).setWidth 7 else 0#7) ∧
      (∀ (b : Nat) (h : b < 128),
        (∀ i, i < 2 ^ w.bits → (S.getD i 0#8).toNat = b → t.codeOf[b] = some (BitVec.ofNat 6 i)) ∧
          ((∀ i, i < 2 ^ w.bits → (S.getD i 0#8).toNat ≠ b) → t.codeOf[b] = none)) ∧
      t.cfg = { width := w, strict := strict, preserve := preserve } ∧ t.status.cfgOk = true

/-- R101, R102, R7: CONFIG with DEFAULT = 1 succeeds in every state and reads no SRC register; at W = 4 the alphabet is the list
of R102. At W = 5 and 6 the list is a free value, some valid alphabet (log 4). -/
def Obligations.ConfigDefaultAlwaysSucceeds : Prop :=
  ∀ (s : State) (w : Width) (strict preserve : Bool),
    ∃ t, exec (.config w.sel strict preserve true) s = .next t ∧
      t =
        { s with
          cfg := { width := w, strict := strict, preserve := preserve }
          sym := t.sym
          codeOf := t.codeOf
          result := BitVec.ofNat 32 (2 ^ w.bits)
          errVal := 0#32
          errPos := 0#32
          status :=
            { busy := false, done := true, err := false, cfgOk := true, errCode := .noFault, errSub := 0#8 } } ∧
      t.Configured ∧
      (w = .w4 → (t.sym.toList.take 16).map (BitVec.toNat) =
        [0x30, 0x31, 0x32, 0x33, 0x34, 0x35, 0x36, 0x37, 0x38, 0x39, 0x3B, 0x23, 0x2D, 0x2B, 0x2E, 0x2C])

/-- R101, R109 and the order of R203: which fault a CONFIG of a list reports, and the state it leaves. -/
def Obligations.ConfigFaultsInOrder : Prop :=
  ∀ (s : State) (w : Width) (strict preserve : Bool),
    (s.srcLen.toNat ≠ w.size →
      exec (.config w.sel strict preserve false) s = .next (s.configFaultEnd .configError 1#8 0 s.srcLen.toNat)) ∧
    (s.srcLen.toNat = w.size → ∀ a, RefusedAt s.platform { base := s.srcAddr.toNat, len := w.size } a →
      exec (.config w.sel strict preserve false) s = .next (s.configFaultEnd .busError 0#8 1 a)) ∧
    (s.srcLen.toNat = w.size → Admitted s.platform { base := s.srcAddr.toNat, len := w.size } →
      ∀ i, i < w.size → 128 ≤ (s.mem.read (s.srcAddr.toNat + i)).toNat →
        (∀ j, j < i → (s.mem.read (s.srcAddr.toNat + j)).toNat < 128) →
          exec (.config w.sel strict preserve false) s =
            .next (s.configFaultEnd .configError 2#8 (s.mem.read (s.srcAddr.toNat + i)).toNat i)) ∧
    (s.srcLen.toNat = w.size → Admitted s.platform { base := s.srcAddr.toNat, len := w.size } →
      (∀ i, i < w.size → (s.mem.read (s.srcAddr.toNat + i)).toNat < 128) →
      ∀ i, i < w.size → (∃ j, j < i ∧ s.mem.read (s.srcAddr.toNat + j) = s.mem.read (s.srcAddr.toNat + i)) →
        (∀ k, k < i → ∀ j, j < k → s.mem.read (s.srcAddr.toNat + j) ≠ s.mem.read (s.srcAddr.toNat + k)) →
          exec (.config w.sel strict preserve false) s =
            .next (s.configFaultEnd .configError 3#8 (s.mem.read (s.srcAddr.toNat + i)).toNat i))

/-- R109. A CONFIG whose word decodes and that ends in any fault leaves CFG_OK 0, CFG reading 0, every SYM entry 0 and every
CODEOF entry UNMAPPED; a word of OP 1 that does not decode leaves the configuration as it was. -/
def Obligations.FailedConfigLeavesNoConfiguration : Prop :=
  (∀ (s t : State) (w : Width) (strict preserve dflt : Bool), exec (.config w.sel strict preserve dflt) s = .next t →
    t.status.err = true →
      t.status.cfgOk = false ∧ t.readBlock 0x008#9 4 = some 0#32 ∧ (∀ (i : Nat) (h : i < 64), t.sym[i] = 0#7) ∧
        (∀ (b : Nat) (h : b < 128), t.codeOf[b] = none) ∧ t.mem = s.mem ∧ t.result = 0#32) ∧
    ∀ (s : State) (rest : List Turn), s.status.busy = true → s.turns = .engine :: rest →
      s.cmdLatch.toNat % 16 = 1 → (∀ i, decode s.cmdLatch ≠ .ok i) →
      ∃ t, step s = .next t ∧ t.status.err = true ∧ t.status.cfgOk = s.status.cfgOk ∧ t.cfg = s.cfg ∧ t.sym = s.sym ∧
        t.codeOf = s.codeOf

/-! ### PACK and UNPACK -/

/-- R124, R123, R42: PACK of an input none of whose checks fails succeeds with the packed size; the packed buffer of the
input's codes (R120) stands at the destination; in place the codes stand over the source; every other byte of memory and
every other register is as before. -/
def Obligations.PackWritesThePackedBuffer : Prop :=
  ∀ s : State, s.mem.wf = true → PackReady s →
    ∃ (m : Memory) (cs : List Nat),
      exec .pack s = .next (s.successEnd m (packedSize s.width s.srcLen.toNat)) ∧ m.wf = true ∧
      cs.length = s.srcLen.toNat ∧
      (∀ (k : Nat) (h : k < cs.length),
        (s.encode (s.mem.read (s.srcAddr.toNat + k))).map BitVec.toNat = some cs[k]) ∧
      (packBytes s.width cs).length = packedSize s.width s.srcLen.toNat ∧
      (∀ (k : Nat) (h : k < (packBytes s.width cs).length),
        m.read (s.dstAddr.toNat + k) = (packBytes s.width cs)[k]) ∧
      (s.cfg.preserve = false → ∀ (k : Nat) (h : k < cs.length),
        m.read (s.srcAddr.toNat + k) = BitVec.ofNat 8 cs[k]) ∧
      ∀ a : Nat,
        ¬(s.dstAddr.toNat ≤ a ∧ a < s.dstAddr.toNat + packedSize s.width s.srcLen.toNat) →
        (s.cfg.preserve = true ∨ s.srcRange.contains a = false) → m.read a = s.mem.read a

/-- R124 and the order of R203: which fault PACK reports, and that it writes nothing. -/
def Obligations.PackFaultsInOrder : Prop :=
  ∀ s : State, s.status.cfgOk = true →
    (2 ^ 31 - 1 < s.srcLen.toNat → exec .pack s = .next (s.faultEnd .lengthError 0#8 1 0)) ∧
    (s.srcLen.toNat ≤ 2 ^ 31 - 1 →
      (¬Separate s.srcRange s.dstRange → exec .pack s = .next (s.faultEnd .overlap 0#8 0 0)) ∧
      (Separate s.srcRange s.dstRange →
        (∀ a, RefusedAt s.platform s.srcRange a → exec .pack s = .next (s.faultEnd .busError 0#8 1 a)) ∧
        (Admitted s.platform s.srcRange →
          (∀ a, RefusedAt s.platform s.dstRange a → exec .pack s = .next (s.faultEnd .busError 0#8 2 a)) ∧
          (Admitted s.platform s.dstRange →
            (s.dstCap.toNat < packedSize s.width s.srcLen.toNat →
              exec .pack s = .next (s.faultEnd .dstOverflow 0#8 0 (packedSize s.width s.srcLen.toNat))) ∧
            (packedSize s.width s.srcLen.toNat ≤ s.dstCap.toNat →
              ∀ i, i < s.srcLen.toNat → s.encode (s.mem.read (s.srcAddr.toNat + i)) = none →
                (∀ j, j < i → s.encode (s.mem.read (s.srcAddr.toNat + j)) ≠ none) →
                  exec .pack s =
                    .next (s.faultEnd .unsupportedChar 0#8 (s.mem.read (s.srcAddr.toNat + i)).toNat i))))))

/-- R120, R121, R122: under the strict policy a byte has a code exactly when it is below 128 and mapped, and that is its
code; under the lenient policy every byte takes the code of its low seven bits, 0 when that slot is unmapped. -/
def Obligations.EncodePolicies : Prop :=
  ∀ (s : State) (b : Byte),
    (s.cfg.strict = true →
      (128 ≤ b.toNat → s.encode b = none) ∧
        ∀ h : b.toNat < 128, s.encode b = s.codeOf[b.toNat]) ∧
    (s.cfg.strict = false →
      ∀ h : (b &&& 0x7F#8).toNat < 128, s.encode b = some (s.codeOf[(b &&& 0x7F#8).toNat].getD 0#6))

/-- R127, R42: UNPACK of a well-formed buffer none of whose checks fails succeeds with the decoded length; the symbols of its
codes stand at the destination; every other byte of memory, the source's among them, and every other register is as
before. -/
def Obligations.UnpackWritesTheSymbols : Prop :=
  ∀ s : State, s.mem.wf = true → UnpackReady s →
    ∃ (m : Memory) (cs : List Nat),
      cs = codes s.width (s.readRange s.srcRange) ∧ cs.length = decodedLength s.width (s.readRange s.srcRange) ∧
      exec .unpack s = .next (s.successEnd m cs.length) ∧ m.wf = true ∧
      (∀ (k : Nat) (h : k < cs.length), cs[k] < 2 ^ s.width.bits ∧
        ∃ h64 : cs[k] < 64, m.read (s.dstAddr.toNat + k) = s.sym[cs[k]].setWidth 8) ∧
      ∀ a : Nat, ¬(s.dstAddr.toNat ≤ a ∧ a < s.dstAddr.toNat + cs.length) → m.read a = s.mem.read a

/-- R127, R79 and the order of R203: which fault UNPACK reports, and that it writes nothing. -/
def Obligations.UnpackFaultsInOrder : Prop :=
  ∀ s : State, s.status.cfgOk = true →
    (2 ^ 31 - 1 < s.srcLen.toNat → exec .unpack s = .next (s.faultEnd .lengthError 0#8 1 0)) ∧
    (s.srcLen.toNat ≤ 2 ^ 31 - 1 →
      (¬Separate s.srcRange s.dstRange → exec .unpack s = .next (s.faultEnd .overlap 0#8 0 0)) ∧
      (Separate s.srcRange s.dstRange →
        (∀ a, RefusedAt s.platform s.srcRange a → exec .unpack s = .next (s.faultEnd .busError 0#8 1 a)) ∧
        (Admitted s.platform s.srcRange →
          (∀ a, RefusedAt s.platform s.dstRange a → exec .unpack s = .next (s.faultEnd .busError 0#8 2 a)) ∧
          (Admitted s.platform s.dstRange →
            (s.srcLen.toNat = 1 → exec .unpack s = .next (s.faultEnd .malformed 1#8 0 0)) ∧
            (2 ≤ s.srcLen.toNat → 2 ≤ (s.mem.read (s.srcAddr.toNat + s.srcLen.toNat - 1)).toNat →
              exec .unpack s = .next (s.faultEnd .malformed 2#8 0 0)) ∧
            (2 ≤ s.srcLen.toNat → s.width = .w4 →
              s.mem.read (s.srcAddr.toNat + s.srcLen.toNat - 1) = 0x01#8 →
              16 ≤ (s.mem.read (s.srcAddr.toNat + s.srcLen.toNat - 2)).toNat →
                exec .unpack s = .next (s.faultEnd .malformed 3#8 0 0)) ∧
            (∀ W B L f : Nat, 2 ≤ s.srcLen.toNat → s.width ≠ .w4 → W = s.width.bits → B = s.srcLen.toNat - 1 →
              f = (s.mem.read (s.srcAddr.toNat + s.srcLen.toNat - 1)).toNat → f < 2 → L = B * 8 / W - f →
              ((L = 0 ∨ (L * W + 7) / 8 ≠ B) → exec .unpack s = .next (s.faultEnd .malformed 1#8 0 0)) ∧
                (1 ≤ L → (L * W + 7) / 8 = B → 0 < L * W % 8 →
                  (s.mem.read (s.srcAddr.toNat + s.srcLen.toNat - 2)).toNat % 2 ^ (8 - L * W % 8) ≠ 0 →
                    exec .unpack s = .next (s.faultEnd .malformed 3#8 0 0))) ∧
            (∀ sub, malformedSub s.width (s.readRange s.srcRange) = some sub →
              exec .unpack s = .next (s.faultEnd .malformed sub 0 0)) ∧
            (malformedSub s.width (s.readRange s.srcRange) = none →
              (2 ^ 31 - 1 < decodedLength s.width (s.readRange s.srcRange) →
                exec .unpack s = .next (s.faultEnd .lengthError 0#8 6 0)) ∧
              (decodedLength s.width (s.readRange s.srcRange) ≤ 2 ^ 31 - 1 →
                s.dstCap.toNat < decodedLength s.width (s.readRange s.srcRange) →
                  exec .unpack s =
                    .next (s.faultEnd .dstOverflow 0#8 0 (decodedLength s.width (s.readRange s.srcRange)))))))))

/-! ### The packed buffer -/

/-- R73, R77, R70: the size of a packed buffer, 0 for the empty string. -/
def Obligations.PackedBufferSizes : Prop :=
  ∀ c : List Nat,
    (c = [] → ∀ w, (packBytes w c).length = 0) ∧
      (c ≠ [] →
        (packBytes .w4 c).length = (c.length + 1) / 2 + 1 ∧
          (packBytes .w5 c).length = (c.length * 5 + 7) / 8 + 1 ∧
          (packBytes .w6 c).length = (c.length * 6 + 7) / 8 + 1) ∧
      ∀ w, (packBytes w c).length = packedSize w c.length

/-- R78 to R81: the decoded length of a buffer and the sub-code of the first check it fails, from its bytes; L, B and f are
those of R78 and R80. Every command that reads a packed buffer reports this sub-code. -/
def Obligations.WellFormednessChecksInOrder : Prop :=
  ∀ (w : Width) (b : List Byte) (B L f : Nat),
    (b = [] → malformedSub w b = none ∧ decodedLength w b = 0) ∧
    (b.length = 1 → malformedSub w b = some 1#8) ∧
    (2 ≤ b.length → B = b.length - 1 → f = (b.getD B 0#8).toNat →
      (2 ≤ f → malformedSub w b = some 2#8) ∧
      (f < 2 → w = .w4 → L = 2 * B - f →
        decodedLength w b = L ∧
        (f = 1 → 16 ≤ (b.getD (B - 1) 0#8).toNat → malformedSub w b = some 3#8) ∧
        ((f = 0 ∨ (b.getD (B - 1) 0#8).toNat < 16) → malformedSub w b = none)) ∧
      (f < 2 → w ≠ .w4 → L = B * 8 / w.bits - f →
        decodedLength w b = L ∧
        ((L = 0 ∨ (L * w.bits + 7) / 8 ≠ B) → malformedSub w b = some 1#8) ∧
        (1 ≤ L → (L * w.bits + 7) / 8 = B →
          (0 < L * w.bits % 8 → (b.getD (B - 1) 0#8).toNat % 2 ^ (8 - L * w.bits % 8) ≠ 0 →
            malformedSub w b = some 3#8) ∧
          ((L * w.bits % 8 = 0 ∨ (b.getD (B - 1) 0#8).toNat % 2 ^ (8 - L * w.bits % 8) = 0) →
            malformedSub w b = none))))

/-- R71, R72, R73: the size and the bytes of a W = 4 buffer: pairs high nibble first, an unpaired code unshifted in its own byte, and the
parity flag. -/
def Obligations.PackedLayoutAtFourBits : Prop :=
  ∀ c : List Nat, c ≠ [] → (∀ x ∈ c, x < 16) →
    (packBytes .w4 c).length = (c.length + 1) / 2 + 1 ∧
    (∀ j, j < c.length / 2 →
      ((packBytes .w4 c).getD j 0#8).toNat = 16 * c.getD (2 * j) 0 + c.getD (2 * j + 1) 0) ∧
    (c.length % 2 = 1 →
      ((packBytes .w4 c).getD (c.length / 2) 0#8).toNat = c.getD (c.length - 1) 0 ∧
        (packBytes .w4 c).getLast? = some 0x01#8) ∧
    (c.length % 2 = 0 → (packBytes .w4 c).getLast? = some 0x00#8)

/-- R74, R76: at W = 5 and 6, stream bit p, which is bit W - 1 - p mod W of code p / W, is bit 7 - p mod 8 of data byte
p / 8; the bits of the last data byte after the stream are 0; the flag byte is 1 exactly when the residual bit count is from
1 to 8 - W. -/
def Obligations.PackedLayoutAtFiveAndSixBits : Prop :=
  ∀ (w : Width) (c : List Nat), w ≠ .w4 → c ≠ [] → (∀ x ∈ c, x < 2 ^ w.bits) →
    (packBytes w c).length = (c.length * w.bits + 7) / 8 + 1 ∧
    (∀ p, p < c.length * w.bits →
      ((packBytes w c).getD (p / 8) 0#8).getLsbD (7 - p % 8) =
        (c.getD (p / w.bits) 0).testBit (w.bits - 1 - p % w.bits)) ∧
    (∀ p, c.length * w.bits ≤ p → p < 8 * ((c.length * w.bits + 7) / 8) →
      ((packBytes w c).getD (p / 8) 0#8).getLsbD (7 - p % 8) = false) ∧
    (packBytes w c).getLast? =
      some (if 0 < c.length * w.bits % 8 ∧ c.length * w.bits % 8 ≤ 8 - w.bits then 0x01#8 else 0x00#8)

/-- R130, R147 at the level of codes: the packed buffer of any string of codes is well formed, has that string's length, and
decodes to its codes, at every width and every length. -/
def Obligations.CodesOfAPackedBuffer : Prop :=
  ∀ (w : Width) (c : List Nat), (∀ x ∈ c, x < 2 ^ w.bits) →
    malformedSub w (packBytes w c) = none ∧ decodedLength w (packBytes w c) = c.length ∧ codes w (packBytes w c) = c

/-- R79, R81: a buffer is well formed exactly when PACK can make it. -/
def Obligations.WellFormedBuffersAreThePackedOnes : Prop :=
  ∀ (w : Width) (b : List Byte),
    malformedSub w b = none ↔ ∃ c : List Nat, (∀ x ∈ c, x < 2 ^ w.bits) ∧ packBytes w c = b

/-- R130, R147, R129 on the machine: in a configured state whose input holds only symbols, PACK and then UNPACK of what it
wrote gives the input back, at every width, policy and length, also when PACK ran in place. -/
def Obligations.UnpackOfPackRestoresTheInput : Prop :=
  ∀ s : State, s.mem.wf = true → s.Configured → PackReady s →
    (∀ k, k < s.srcLen.toNat → ∃ (i : Nat) (h : i < 64), i < s.width.size ∧
      s.sym[i].setWidth 8 = s.mem.read (s.srcAddr.toNat + k)) →
      ∃ t, exec .pack s = .next t ∧
        ∀ (dst cap : Word) (u : State),
          u = { t with srcAddr := s.dstAddr, srcLen := t.result, dstAddr := dst, dstCap := cap } →
          Separate u.srcRange u.dstRange → Admitted u.platform u.dstRange → s.srcLen.toNat ≤ cap.toNat →
            ∃ v, exec .unpack u = .next v ∧ v.result = s.srcLen ∧
              ∀ k, k < s.srcLen.toNat → v.mem.read (dst.toNat + k) = s.mem.read (s.srcAddr.toNat + k)

/-! ### CMP and PCMP -/

/-- R166, R167, R42: a comparison none of whose checks fails succeeds with -1, 0 or +1 and changes nothing but the completion
fields. CMP answers 0 exactly when the candidate's plain string equals the key, and else says which comes first; PCMP
answers 0 exactly when the key is a prefix of it, and else answers as CMP (R162, R163). -/
def Obligations.ComparisonsAnswerTheOrder : Prop :=
  ∀ (s : State) (x k : List Nat), CompareReady s → x = plain (s.symbols (s.readRange s.srcRange)) → k = plain s.key →
    ∃ r q : Int, exec .cmp s = .next (s.successEnd s.mem r) ∧ exec .pcmp s = .next (s.successEnd s.mem q) ∧
      (r = 0 ↔ x = k) ∧ (r = -1 ↔ x < k) ∧ (r = 1 ↔ k < x) ∧
      (q = 0 ↔ k <+: x) ∧ (¬k <+: x → q = r)

/-- R166, R167 and the order of R203: which fault a comparison reports. -/
def Obligations.ComparisonFaultsInOrder : Prop :=
  ∀ (s : State) (i : Instr), (i = .cmp ∨ i = .pcmp) → s.status.cfgOk = true →
    (2 ^ 31 - 1 < s.srcLen.toNat → exec i s = .next (s.faultEnd .lengthError 0#8 1 0)) ∧
    (s.srcLen.toNat ≤ 2 ^ 31 - 1 →
      (2 ^ 31 - 1 < s.keyLen.toNat → exec i s = .next (s.faultEnd .lengthError 0#8 3 0)) ∧
      (s.keyLen.toNat ≤ 2 ^ 31 - 1 →
        (∀ a, RefusedAt s.platform s.srcRange a → exec i s = .next (s.faultEnd .busError 0#8 1 a)) ∧
        (Admitted s.platform s.srcRange →
          (∀ a, RefusedAt s.platform s.keyRange a → exec i s = .next (s.faultEnd .busError 0#8 3 a)) ∧
          (Admitted s.platform s.keyRange → ∀ sub, malformedSub s.width (s.readRange s.srcRange) = some sub →
            exec i s = .next (s.faultEnd .malformed sub 0 0)))))

/-! ### SEARCH and PSEARCH -/

/-- R172, R173, R170, R42: a search none of whose checks fails, at the collection or at an element, succeeds and changes
nothing but the completion fields; its result is an index or -(p) - 1 for an insertion point p of the collection, and an
index it answers is a present element that compares as a match. Sortedness is not needed (R169). -/
def Obligations.SearchesAnswerAnIndexOrAnInsertionPoint : Prop :=
  ∀ (s : State) (nulltol : Bool), SearchReady s nulltol → ElementsReady s nulltol →
    ∃ r q : Int, exec (.search nulltol) s = .next (s.successEnd s.mem r) ∧
      exec (.psearch nulltol) s = .next (s.successEnd s.mem q) ∧
      -(s.colLen.toNat : Int) - 1 ≤ r ∧ r < s.colLen.toNat ∧ -(s.colLen.toNat : Int) - 1 ≤ q ∧ q < s.colLen.toNat ∧
      (0 ≤ r → s.element r.toNat = some s.key) ∧
      (0 ≤ q → ∃ x, s.element q.toNat = some x ∧ s.key <+: x)

/-- R174. On a sorted collection SEARCH answers an index whose element's plain string equals the key if any element's does,
and otherwise -(p) - 1 with p the number of present elements less than the key. -/
def Obligations.SearchAgreesWithAReferenceSearch : Prop :=
  ∀ (s : State) (nulltol : Bool), SearchReady s nulltol → ElementsReady s nulltol → SortedCollection s →
    ∃ r : Int, exec (.search nulltol) s = .next (s.successEnd s.mem r) ∧
      ((∃ i, i < s.colLen.toNat ∧ s.element i = some s.key) →
        0 ≤ r ∧ r < s.colLen.toNat ∧ s.element r.toNat = some s.key) ∧
      ((∀ i, i < s.colLen.toNat → s.element i ≠ some s.key) → r = -(s.insertionPoint : Int) - 1)

/-- R175. On a sorted collection PSEARCH answers an index whose element's plain string starts with the key whenever some
element's does, and otherwise the result of SEARCH for the same key. -/
def Obligations.PrefixSearchFindsAPrefixedElement : Prop :=
  ∀ (s : State) (nulltol : Bool), SearchReady s nulltol → ElementsReady s nulltol → SortedCollection s →
    ∃ r q : Int, exec (.search nulltol) s = .next (s.successEnd s.mem r) ∧
      exec (.psearch nulltol) s = .next (s.successEnd s.mem q) ∧
      ((∃ i x, i < s.colLen.toNat ∧ s.element i = some x ∧ s.key <+: x) →
        0 ≤ q ∧ q < s.colLen.toNat ∧ ∃ x, s.element q.toNat = some x ∧ s.key <+: x) ∧
      ((∀ i x, i < s.colLen.toNat → s.element i = some x → ¬s.key <+: x) → q = r)

/-- R172: an empty collection gives -1 for any key, in both modes, visiting nothing. -/
def Obligations.EmptyCollectionGivesMinusOne : Prop :=
  ∀ (s : State) (nulltol : Bool), SearchReady s nulltol → s.colLen = 0#32 →
    exec (.search nulltol) s = .next (s.successEnd s.mem (-1)) ∧
      exec (.psearch nulltol) s = .next (s.successEnd s.mem (-1))

/-- R172, R177 and the order of R203: which fault a search reports before it visits an element, and at the element it visits
first (R168, R171). -/
def Obligations.SearchFaultsInOrder : Prop :=
  ∀ (s : State) (nulltol : Bool) (i : Instr), (i = .search nulltol ∨ i = .psearch nulltol) → s.status.cfgOk = true →
    (nulltol = true → s.width ≠ .w4 → exec i s = .next (s.faultEnd .illegalCmd 2#8 0 0)) ∧
    ((nulltol = true → s.width = .w4) →
      (2 ^ 31 - 1 < s.keyLen.toNat → exec i s = .next (s.faultEnd .lengthError 0#8 3 0)) ∧
      (s.keyLen.toNat ≤ 2 ^ 31 - 1 →
        (2 ^ 31 - 1 < s.colLen.toNat → exec i s = .next (s.faultEnd .lengthError 0#8 4 0)) ∧
        (s.colLen.toNat ≤ 2 ^ 31 - 1 →
          (∀ a, RefusedAt s.platform s.keyRange a → exec i s = .next (s.faultEnd .busError 0#8 3 a)) ∧
          (Admitted s.platform s.keyRange →
            (∀ a, RefusedAt s.platform s.tableRange a → exec i s = .next (s.faultEnd .busError 0#8 4 a)) ∧
            (Admitted s.platform s.tableRange → 0 < s.colLen.toNat →
              ∀ (mid : Nat) (d : Descriptor), mid = (s.colLen.toNat - 1) / 2 → d = s.descriptor mid →
                (nulltol = false → d.len = 0xFFFFFFFF →
                  exec i s = .next (s.faultEnd .absentElement 0#8 0 mid)) ∧
                (2 ^ 31 - 1 < d.len → d.len < 0xFFFFFFFF →
                  exec i s = .next (s.faultEnd .lengthError 0#8 5 mid)) ∧
                (d.len ≤ 2 ^ 31 - 1 →
                  (∀ a, RefusedAt s.platform d.range a → exec i s = .next (s.faultEnd .busError 0#8 5 a)) ∧
                  (Admitted s.platform d.range → ∀ sub, malformedSub s.width (s.readRange d.range) = some sub →
                    exec i s = .next (s.faultEnd .malformed sub 0 mid))))))))

/-- R171, R163, R168, R83, R54, R200, R203, R205: what a search does at each interval of indices it comes to, sorted collection
or not. An empty interval ends it with -(lo) - 1; a matching element in the middle ends it with that index; an element in
the middle that fails a check ends it with that fault, however late it is visited: ERR_POS is the element's index, but for
BUS_ERROR, where it is the address refused. It always comes to such an interval, and
it raises no fault of an element it does not visit: where it faults, it has come to an interval whose middle element fails
a check. -/
def Obligations.SearchesEndAtTheElementTheyVisit : Prop :=
  ∀ (s : State) (nulltol prefixed : Bool) (i : Instr), SearchReady s nulltol →
    i = (if prefixed = true then .psearch nulltol else .search nulltol) →
    (∀ lo hi : Int, SearchInterval s nulltol prefixed lo hi →
      (hi < lo → exec i s = .next (s.successEnd s.mem (-lo - 1))) ∧
      (lo ≤ hi → ∀ (mid : Nat) (d : Descriptor), (mid : Int) = (lo + hi) / 2 → d = s.descriptor mid →
        (ElementReady s nulltol mid → s.elementOrder prefixed mid = 0 → exec i s = .next (s.successEnd s.mem mid)) ∧
        (nulltol = false → d.len = 0xFFFFFFFF → exec i s = .next (s.faultEnd .absentElement 0#8 0 mid)) ∧
        (2 ^ 31 - 1 < d.len → d.len < 0xFFFFFFFF → exec i s = .next (s.faultEnd .lengthError 0#8 5 mid)) ∧
        (d.len ≤ 2 ^ 31 - 1 →
          (∀ a, RefusedAt s.platform d.range a → exec i s = .next (s.faultEnd .busError 0#8 5 a)) ∧
          (Admitted s.platform d.range → ∀ sub, malformedSub s.width (s.readRange d.range) = some sub →
            exec i s = .next (s.faultEnd .malformed sub 0 mid))))) ∧
    (∃ (lo hi : Int) (mid : Nat), SearchInterval s nulltol prefixed lo hi ∧
      (hi < lo ∨ (lo ≤ hi ∧ (mid : Int) = (lo + hi) / 2 ∧
        (¬ElementReady s nulltol mid ∨ s.elementOrder prefixed mid = 0)))) ∧
    ∀ t, exec i s = .next t → t.status.err = true →
      ∃ (lo hi : Int) (mid : Nat), SearchInterval s nulltol prefixed lo hi ∧ lo ≤ hi ∧ (mid : Int) = (lo + hi) / 2 ∧
        ¬ElementReady s nulltol mid

/-! ### What holds of every command -/

/-- R38, R200, R203: while CFG_OK = 0 every command but CONFIG faults with NOT_CONFIGURED and changes nothing else. -/
def Obligations.UnconfiguredCommandsFault : Prop :=
  ∀ (s : State) (i : Instr), s.status.cfgOk = false → (∀ wsel strict preserve dflt, i ≠ .config wsel strict preserve dflt) →
    exec i s = .next (s.faultEnd .notConfigured 0#8 0 0)

/-- R206: a command that ends in a fault has written no host memory, as `exec` performs it and as the engine's step does,
also when its word does not decode. -/
def Obligations.FaultingCommandsWriteNoMemory : Prop :=
  (∀ (i : Instr) (s t : State), exec i s = .next t → t.status.err = true → t.mem = s.mem) ∧
    ∀ (s t : State) (rest : List Turn), s.status.busy = true → s.turns = .engine :: rest → step s = .next t →
      t.status.err = true → t.mem = s.mem

/-- R205. A command that ends in a fault has changed RESULT, ERR_VAL, ERR_POS and STATUS as fault completion says, and
nothing else; a CONFIG whose word decodes has lost the configuration beside it (R109). -/
def Obligations.FaultCompletionChangesNothingElse : Prop :=
  ∀ (i : Instr) (s t : State), i.wellFormed = true → exec i s = .next t → t.status.err = true →
    ∃ (code : FaultCode) (sub : BitVec 8) (val pos : Nat), code ≠ .noFault ∧
      t =
        (match i with
        | .config _ _ _ _ => s.configFaultEnd code sub val pos
        | _ => s.faultEnd code sub val pos)

/-- R45, R38, R205, R42: no command writes an operand register, CMD or the latch; none but CONFIG changes the configuration
or the tables; none but PACK and UNPACK writes memory; and a command that succeeds leaves the diagnostics at 0, while one
that faults leaves RESULT at 0. -/
def Obligations.CommandsKeepWhatTheyDoNotName : Prop :=
  ∀ (i : Instr) (s t : State), exec i s = .next t →
    (t.cmd = s.cmd ∧ t.cmdLatch = s.cmdLatch ∧ t.srcAddr = s.srcAddr ∧ t.srcLen = s.srcLen ∧ t.dstAddr = s.dstAddr ∧
      t.dstCap = s.dstCap ∧ t.keyAddr = s.keyAddr ∧ t.keyLen = s.keyLen ∧ t.colAddr = s.colAddr ∧ t.colLen = s.colLen ∧
      t.platform = s.platform ∧ t.host = s.host ∧ t.peers = s.peers ∧ t.turns = s.turns ∧ t.busData = s.busData ∧
      t.freeCount = s.freeCount) ∧
    ((∀ wsel strict preserve dflt, i ≠ .config wsel strict preserve dflt) →
      t.cfg = s.cfg ∧ t.sym = s.sym ∧ t.codeOf = s.codeOf ∧ t.status.cfgOk = s.status.cfgOk) ∧
    (i ≠ .pack → i ≠ .unpack → t.mem = s.mem) ∧
    t.status.busy = false ∧ t.status.done = true ∧
    (t.status.err = false → t.errVal = 0#32 ∧ t.errPos = 0#32 ∧ t.status.errCode = .noFault ∧ t.status.errSub = 0#8) ∧
    (t.status.err = true → t.result = 0#32 ∧ t.status.errCode ≠ .noFault)

/-- R59: a command that does not pack in place is idempotent: issued again on the memory it left, it ends the same way and
leaves the same memory. -/
def Obligations.CommandsAreIdempotent : Prop :=
  ∀ (i : Instr) (s t : State), s.mem.wf = true → (i = .pack → s.cfg.preserve = true) → exec i s = .next t →
    ∃ u, exec i t = .next u ∧ u.result = t.result ∧ u.status = t.status ∧ u.errVal = t.errVal ∧ u.errPos = t.errPos ∧
      u.mem = t.mem

/-! ### The invariant -/

/-- The machine right after reset meets the invariant (R230, R231). -/
def Obligations.ResetMeetsTheInvariant : Prop := State.reset.Inv

/-- R25, R24, R35, R37, R38: every step, of whatever agent, keeps the invariant: BUSY and DONE never hold together, ERR
implies DONE and a code that is not 0, the tables are those of a valid alphabet while CFG_OK = 1 and are cleared while it is
0, and memory keeps its canonical form. -/
def Obligations.EveryStepKeepsTheInvariant : Prop :=
  ∀ s t : State, s.Inv → step s = .next t → t.Inv

/-! ### The host and the other SPEs -/

/-- R240, R209: a host write to a byte that the command in flight reads or writes, or that a command in flight on another SPE
does, is HOST_RACE, whatever host line or access makes it. It is the model's reading that the ranges count also when the
command would fault, the elements that a table past 2^32 names below it among them (log 8), and its choice that another
SPE is its ranges (log 9). -/
def Obligations.HostWriteToARangeInFlightIsARace : Prop :=
  ∀ (s : State) (addr : Word) (b : Byte), s.platform.block.contains addr.toNat = false →
    (readsInFlight s addr.toNat ∨ writesInFlight s addr.toNat ∨
      ∃ p ∈ s.peers, p.readsAt addr.toNat ∨ p.writesAt addr.toNat) →
      s.hostWriteByte addr.toNat b = .fault .hostRace ∧
        ∀ rest, s.turns = .access (.memWrite addr b) :: rest → step s = .fault .hostRace

/-- R50, R61, R64, R240: a host write to a byte that no command in flight uses, here or on another SPE, BUSY or not, is
allowed and changes that byte alone: every other byte, every register and the alphabet keep their values. Which bytes a
command uses is the model's reading of R240 (log 8): an absent slot and a descriptor that does not lie below 2^32 name
none. That another SPE is its ranges is log 9. -/
def Obligations.HostWriteChangesOneByte : Prop :=
  ∀ (s : State) (addr : Word) (b : Byte), s.mem.wf = true → s.platform.block.contains addr.toNat = false →
    ¬readsInFlight s addr.toNat → ¬writesInFlight s addr.toNat →
    (∀ p ∈ s.peers, ¬p.readsAt addr.toNat ∧ ¬p.writesAt addr.toNat) →
      ∃ m : Memory, s.hostWriteByte addr.toNat b = .next { s with mem := m } ∧
        (∀ rest, s.turns = .access (.memWrite addr b) :: rest → step s = .next { s with turns := rest, mem := m }) ∧
        m.wf = true ∧ m.read addr.toNat = b ∧ ∀ a, a ≠ addr.toNat → m.read a = s.mem.read a

/-- R241, R209: where one of two commands in flight on two SPEs writes a byte that the other reads or writes, the issue of the
later one is INSTANCE_RACE: the issue on another SPE while a command is in flight here, the issue here while one is in
flight on another SPE, and the issue on another SPE while one is in flight on a third. It is the model's reading that the
ranges a command names count as read and written also when it would fault, an unconfigured PACK's among them (log 8), and
its choice that another SPE is its ranges and that a conflict is found at the later issue (log 9). -/
def Obligations.ConflictingInstancesAreARace : Prop :=
  (∀ (s : State) (p : Footprint) (a : Nat) (rest : List Turn), s.turns = .peerIssue p :: rest →
    Conflict (readsInFlight s a) (writesInFlight s a) (p.readsAt a) (p.writesAt a) → step s = .fault .instanceRace) ∧
  (∀ (s : State) (v : Word) (i : Instr) (p : Footprint) (a : Nat), s.status.busy = false → decode v = .ok i →
    p ∈ s.peers → Conflict (readsByte s i a) (writesByte s i a) (p.readsAt a) (p.writesAt a) →
      s.writeReg .cmd v = .fault .instanceRace ∧
        ∀ rest, s.turns = .access (.regWrite 0x000#9 4 v) :: rest → step s = .fault .instanceRace) ∧
  ∀ (s : State) (p q : Footprint) (a : Nat) (rest : List Turn), s.turns = .peerIssue p :: rest → q ∈ s.peers →
    Conflict (q.readsAt a) (q.writesAt a) (p.readsAt a) (p.writesAt a) → step s = .fault .instanceRace

/-- R241: commands in flight on several SPEs that do not conflict go on; ranges that both only read may be shared. Which bytes
a command uses is the model's reading (log 8), and that another SPE is its ranges is its choice (log 9). -/
def Obligations.InstancesWithoutConflictGoOn : Prop :=
  (∀ (s : State) (p : Footprint) (rest : List Turn), s.turns = .peerIssue p :: rest →
    (∀ a, ¬Conflict (readsInFlight s a) (writesInFlight s a) (p.readsAt a) (p.writesAt a)) →
    (∀ q ∈ s.peers, ∀ a, ¬Conflict (q.readsAt a) (q.writesAt a) (p.readsAt a) (p.writesAt a)) →
      step s = .next { s with turns := rest, peers := s.peers ++ [p] }) ∧
  ∀ (s : State) (v : Word), s.status.busy = false →
    (∀ i, decode v = .ok i → ∀ p ∈ s.peers, ∀ a,
      ¬Conflict (readsByte s i a) (writesByte s i a) (p.readsAt a) (p.writesAt a)) →
      s.writeReg .cmd v = .next (s.issueWord v)

/-- R93: what the lines of a host program do. WR writes the register, ISSUE writes the word of its command to CMD and STB
writes the low byte of its value, each as any host write (`writeReg`, `hostWriteByte`), with the model fault of that write
if it has one, and then goes to the next line. RD, LDB, SET, `goto`, HALT and `if` change nothing but the host.
`HostExpressionsAreMod32` says what the values are. -/
def Obligations.HostLinesDoWhatTheySay : Prop :=
  ∀ (s : State) (l : HostLine) (rest : List Turn), s.turns = .host :: rest →
    s.host.program[s.host.line]? = some l → tableCanonical 0#32 s.host.temps = true →
    (∀ r t, l = .rd r t → ∃ h, step s = .next { s with turns := rest, host := h } ∧
      h.temp t = s.readReg r ∧ (∀ u, u ≠ t → h.temp u = s.host.temp u) ∧ h.line = s.host.line + 1 ∧
      h.program = s.host.program) ∧
    (∀ t e, l = .ldb t e → s.platform.block.contains (s.host.eval e).toNat = false →
      ∃ h, step s = .next { s with turns := rest, host := h } ∧
        h.temp t = (s.mem.read (s.host.eval e).toNat).setWidth 32 ∧ (∀ u, u ≠ t → h.temp u = s.host.temp u) ∧
        h.line = s.host.line + 1 ∧ h.program = s.host.program) ∧
    (∀ t e, l = .set t e → ∃ h, step s = .next { s with turns := rest, host := h } ∧
      h.temp t = s.host.eval e ∧ (∀ u, u ≠ t → h.temp u = s.host.temp u) ∧ h.line = s.host.line + 1 ∧
      h.program = s.host.program) ∧
    (∀ r e o, l = .wr r e → o = ({ s with turns := rest } : State).writeReg r (s.host.eval e) →
      (∀ t, o = .next t → step s = .next { t with host := { s.host with line := s.host.line + 1 } }) ∧
        ∀ f, o = .fault f → step s = .fault f) ∧
    (∀ i o, l = .issue i → o = ({ s with turns := rest } : State).writeReg .cmd (encode i) →
      (∀ t, o = .next t → step s = .next { t with host := { s.host with line := s.host.line + 1 } }) ∧
        ∀ f, o = .fault f → step s = .fault f) ∧
    (∀ e v o, l = .stb e v →
      o = ({ s with turns := rest } : State).hostWriteByte (s.host.eval e).toNat ((s.host.eval v).setWidth 8) →
      (∀ t, o = .next t → step s = .next { t with host := { s.host with line := s.host.line + 1 } }) ∧
        ∀ f, o = .fault f → step s = .fault f) ∧
    (∀ target, l = .goto target →
      step s = .next { s with turns := rest, host := { s.host with line := target } }) ∧
    (l = .halt → step s = .next { s with turns := rest, host := { s.host with line := s.host.program.length } }) ∧
    ∀ a rel b target, l = .ifGoto a rel b target →
      step s = .next
        { s with
          turns := rest
          host := { s.host with line := if rel.holds (s.host.eval a) (s.host.eval b) then target else s.host.line + 1 } }

/-- R93, R9: the values of host expressions, every result mod 2^32, shifts as products and quotients by powers of 2, `t[i]` as
bit i of t; and the relations, on unsigned values. -/
def Obligations.HostExpressionsAreMod32 : Prop :=
  (∀ (h : HostState) (a b : Expr) (t : Nat) (v : Word),
    h.eval (.lit v) = v ∧ h.eval (.temp t) = h.temp t ∧
    (h.eval (.bit t a)).toNat = (h.temp t).toNat / 2 ^ (h.eval a).toNat % 2 ∧
    (h.eval (.add a b)).toNat = ((h.eval a).toNat + (h.eval b).toNat) % 2 ^ 32 ∧
    ((h.eval (.sub a b)).toNat : Int) = (((h.eval a).toNat : Int) - (h.eval b).toNat) % 2 ^ 32 ∧
    (h.eval (.and a b)).toNat = (h.eval a).toNat &&& (h.eval b).toNat ∧
    (h.eval (.shl a b)).toNat = (h.eval a).toNat * 2 ^ (h.eval b).toNat % 2 ^ 32 ∧
    (h.eval (.shr a b)).toNat = (h.eval a).toNat / 2 ^ (h.eval b).toNat) ∧
  ∀ x y : Word,
    (Relation.eq.holds x y = true ↔ x.toNat = y.toNat) ∧ (Relation.ne.holds x y = true ↔ x.toNat ≠ y.toNat) ∧
      (Relation.lt.holds x y = true ↔ x.toNat < y.toNat) ∧ (Relation.ge.holds x y = true ↔ y.toNat ≤ x.toNat)

/-- R94, R237, R248: WAIT, placed at its own line of a host program. From a state whose command is in flight and whose host
stands at the WAIT, three steps (the engine's, the read of STATUS, the test) bring the host past it with the command done.
The engine moving first is the model's schedule (log 1). -/
def Obligations.WaitEndsWithTheCommandDone : Prop :=
  ∀ (s : State) (before after : List HostLine), s.turns = [] → s.status.busy = true →
    tableCanonical 0#32 s.host.temps = true → s.host.program = before ++ waitLines before.length ++ after →
    s.host.line = before.length →
      ∃ t, runSteps 3 s = .next t ∧ t.host.line = before.length + 2 ∧ t.status.busy = false ∧ t.status.done = true
end

