-- ==== Sys2Proof/Laws/Memory.lean ====
section
/-! SUPPORT. Host memory and the sparse tables behind it: read after write, the frame of a write, and that every operation
keeps the canonical form (20_memory.md R50 to R53). -/

namespace Sys2Proof.Machine

section Table
variable {α : Type} {d : α}

@[simp] theorem tableRead_nil (a : Nat) : tableRead d [] a = d := rfl

theorem tableRead_cons (k : Nat) (v : α) (t : List (Nat × α)) (a : Nat) :
    tableRead d ((k, v) :: t) a = if a = k then v else tableRead d t a := rfl

variable [DecidableEq α]

/-- Writing one key leaves every other key alone. -/
theorem tableRead_tableWrite_ne {a b : Nat} (h : b ≠ a) (t : List (Nat × α)) (x : α) :
    tableRead d (tableWrite d t a x) b = tableRead d t b := by
  induction t with
  | nil => unfold tableWrite; split <;> simp [tableRead_cons, h]
  | cons c t ih =>
    obtain ⟨k, v⟩ := c
    unfold tableWrite
    split_ifs with h1 h2 h3 h4
    · rfl
    · rw [tableRead_cons, if_neg h]
    · rw [tableRead_cons, if_neg (h3 ▸ h)]
    · rw [tableRead_cons, tableRead_cons, if_neg h, if_neg (h3 ▸ h)]
    · rw [tableRead_cons, tableRead_cons, ih]

theorem tableCanonicalFrom_cons {lo : Option Nat} {k : Nat} {v : α} {t : List (Nat × α)} :
    tableCanonicalFrom d lo ((k, v) :: t) = true ↔
      (∀ l ∈ lo, l < k) ∧ v ≠ d ∧ tableCanonicalFrom d (some k) t = true := by
  cases lo <;> simp [tableCanonicalFrom, and_assoc]

/-- A key at or below the bound of a canonical table is not listed. -/
theorem tableRead_below {l : Nat} {t : List (Nat × α)} (ht : tableCanonicalFrom d (some l) t = true) {a : Nat}
    (h : a ≤ l) : tableRead d t a = d := by
  induction t generalizing l with
  | nil => rfl
  | cons c t ih =>
    obtain ⟨k, v⟩ := c
    obtain ⟨hl, -, hr⟩ := tableCanonicalFrom_cons.1 ht
    have := hl l rfl
    rw [tableRead_cons, if_neg (by omega), ih hr (by omega)]

theorem tableCanonicalFrom_weaken {lo lo' : Option Nat} {t : List (Nat × α)} (h : tableCanonicalFrom d lo t = true)
    (hl : ∀ l' ∈ lo', ∃ l ∈ lo, l' ≤ l) : tableCanonicalFrom d lo' t = true := by
  cases t with
  | nil => rfl
  | cons c t =>
    obtain ⟨h1, h2, h3⟩ := tableCanonicalFrom_cons.1 h
    refine tableCanonicalFrom_cons.2 ⟨fun l' hl' => ?_, h2, h3⟩
    obtain ⟨l, hl1, hl2⟩ := hl l' hl'
    exact lt_of_le_of_lt hl2 (h1 l hl1)

theorem tableRead_tableWrite_same {lo : Option Nat} {t : List (Nat × α)} (ht : tableCanonicalFrom d lo t = true)
    (a : Nat) (x : α) : tableRead d (tableWrite d t a x) a = x := by
  induction t generalizing lo with
  | nil => unfold tableWrite; split_ifs with h <;> simp [tableRead_cons, h]
  | cons c t ih =>
    obtain ⟨k, v⟩ := c
    obtain ⟨-, -, hr⟩ := tableCanonicalFrom_cons.1 ht
    unfold tableWrite
    split_ifs with h1 h2 h3 h4
    · rw [tableRead_cons, if_neg (by omega), tableRead_below hr (by omega), h2]
    · rw [tableRead_cons, if_pos rfl]
    · rw [tableRead_below hr (by omega), h4]
    · rw [tableRead_cons, if_pos rfl]
    · rw [tableRead_cons, if_neg h3, ih hr]

theorem tableCanonicalFrom_tableWrite {lo : Option Nat} {t : List (Nat × α)} (ht : tableCanonicalFrom d lo t = true)
    {a : Nat} (ha : ∀ l ∈ lo, l < a) (x : α) : tableCanonicalFrom d lo (tableWrite d t a x) = true := by
  induction t generalizing lo with
  | nil =>
    unfold tableWrite
    split_ifs with h
    · rfl
    · exact tableCanonicalFrom_cons.2 ⟨ha, h, rfl⟩
  | cons c t ih =>
    obtain ⟨k, v⟩ := c
    obtain ⟨hk, hv, hr⟩ := tableCanonicalFrom_cons.1 ht
    unfold tableWrite
    split_ifs with h1 h2 h3 h4
    · exact ht
    · exact tableCanonicalFrom_cons.2 ⟨ha, h2, tableCanonicalFrom_cons.2 ⟨by simpa using h1, hv, hr⟩⟩
    · exact tableCanonicalFrom_weaken hr fun l hl => ⟨k, rfl, (hk l hl).le⟩
    · exact tableCanonicalFrom_cons.2 ⟨ha, h4, h3 ▸ hr⟩
    · exact tableCanonicalFrom_cons.2 ⟨hk, hv, ih hr (by simp; omega)⟩

/-- A write keeps the canonical form. -/
theorem tableCanonical_tableWrite {t : List (Nat × α)} (ht : tableCanonical d t = true) (a : Nat) (x : α) :
    tableCanonical d (tableWrite d t a x) = true :=
  tableCanonicalFrom_tableWrite ht (by simp) x

/-- Every entry of a written table is the entry written or an entry of the table. -/
theorem mem_tableWrite {t : List (Nat × α)} {a : Nat} {x : α} {c : Nat × α} (h : c ∈ tableWrite d t a x) :
    c = (a, x) ∨ c ∈ t := by
  induction t with
  | nil => unfold tableWrite at h; split_ifs at h <;> simp_all
  | cons e t ih =>
    obtain ⟨k, v⟩ := e
    unfold tableWrite at h
    split_ifs at h with h1 h2 h3 h4
    · exact .inr h
    · exact (List.mem_cons.1 h).imp_right id
    · exact .inr (List.mem_cons_of_mem _ h)
    · exact (List.mem_cons.1 h).imp_right (List.mem_cons_of_mem _)
    · rcases List.mem_cons.1 h with h | h
      · exact .inr (h ▸ List.mem_cons_self)
      · exact (ih h).imp_right (List.mem_cons_of_mem _)

theorem table_ext_from {lo lo' : Option Nat} {t u : List (Nat × α)} (ht : tableCanonicalFrom d lo t = true)
    (hu : tableCanonicalFrom d lo' u = true) (h : ∀ a, tableRead d t a = tableRead d u a) : t = u := by
  induction t generalizing lo lo' u with
  | nil =>
    cases u with
    | nil => rfl
    | cons c u =>
      obtain ⟨k, v⟩ := c
      exact absurd (by simpa [tableRead_cons] using (h k).symm) (tableCanonicalFrom_cons.1 hu).2.1
  | cons c t ih =>
    obtain ⟨k, v⟩ := c
    obtain ⟨-, hv, hr⟩ := tableCanonicalFrom_cons.1 ht
    cases u with
    | nil => exact absurd (by simpa [tableRead_cons] using h k) hv
    | cons e u =>
      obtain ⟨j, w⟩ := e
      obtain ⟨-, hw, hs⟩ := tableCanonicalFrom_cons.1 hu
      have hkj : k = j := by
        rcases lt_trichotomy k j with hlt | heq | hlt
        · have := h k
          rw [tableRead_cons, if_pos rfl, tableRead_cons, if_neg (by omega), tableRead_below hs hlt.le] at this
          exact absurd this hv
        · exact heq
        · have := h j
          rw [tableRead_cons, if_neg (by omega), tableRead_below hr hlt.le, tableRead_cons, if_pos rfl] at this
          exact absurd this.symm hw
      subst hkj
      have hvw : v = w := by simpa [tableRead_cons] using h k
      subst hvw
      have : t = u := by
        refine ih hr hs fun a => ?_
        by_cases ha : a = k
        · rw [ha, tableRead_below hr le_rfl, tableRead_below hs le_rfl]
        · simpa [tableRead_cons, ha] using h a
      rw [this]

/-- Canonical tables that read alike are equal data. -/
theorem table_ext {t u : List (Nat × α)} (ht : tableCanonical d t = true) (hu : tableCanonical d u = true)
    (h : ∀ a, tableRead d t a = tableRead d u a) : t = u := table_ext_from ht hu h

end Table

/-! ### Host memory -/

theorem Memory.wf_iff {m : Memory} :
    m.wf = true ↔ tableCanonical Config.unwrittenByte m = true ∧ ∀ c ∈ m, c.1 < Config.addressSpace := by
  simp [Memory.wf]

theorem Memory.wf_nil : Memory.wf [] = true := by decide

theorem Memory.read_write_same {m : Memory} (h : m.wf = true) (a : Nat) (b : Byte) : (m.write a b).read a = b :=
  tableRead_tableWrite_same (lo := none) (Memory.wf_iff.1 h).1 a b

theorem Memory.read_write_ne (m : Memory) {a a' : Nat} (h : a' ≠ a) (b : Byte) : (m.write a b).read a' = m.read a' :=
  tableRead_tableWrite_ne h m b

theorem Memory.wf_write {m : Memory} (h : m.wf = true) {a : Nat} (ha : a < Config.addressSpace) (b : Byte) :
    (m.write a b).wf = true := by
  obtain ⟨h1, h2⟩ := Memory.wf_iff.1 h
  refine Memory.wf_iff.2 ⟨tableCanonical_tableWrite h1 a b, fun c hc => ?_⟩
  rcases mem_tableWrite hc with rfl | hc
  · exact ha
  · exact h2 c hc

/-- Memories in canonical form that read alike are equal. -/
theorem Memory.ext_read {m m' : Memory} (h : m.wf = true) (h' : m'.wf = true) (hr : ∀ a, m.read a = m'.read a) : m = m' :=
  table_ext (Memory.wf_iff.1 h).1 (Memory.wf_iff.1 h').1 hr

@[simp] theorem Memory.readBytes_length (m : Memory) (a n : Nat) : (m.readBytes a n).length = n := by
  induction n generalizing a with
  | zero => rfl
  | succ n ih => simp [Memory.readBytes, ih]

theorem Memory.readBytes_get (m : Memory) (a n k : Nat) (h : k < n) :
    (m.readBytes a n)[k]'(by simpa using h) = m.read (a + k) := by
  induction n generalizing a k with
  | zero => omega
  | succ n ih =>
    cases k with
    | zero => rfl
    | succ k =>
      have := ih (a + 1) k (by omega)
      simp only [Memory.readBytes, List.getElem_cons_succ, this]
      congr 1
      omega

/-- A read of bytes is the list of the bytes at its addresses (R52). -/
theorem Memory.readBytes_eq_map (m : Memory) (a n : Nat) :
    m.readBytes a n = (List.range n).map fun k => m.read (a + k) := by
  refine List.ext_getElem (by simp) fun i h _ => ?_
  rw [Memory.readBytes_get m a n i (by simpa using h)]
  simp

/-- A write of bytes leaves every byte outside its range alone (R53). -/
theorem Memory.read_writeBytes_outside (m : Memory) (a : Nat) (bs : List Byte) {x : Nat}
    (h : x < a ∨ a + bs.length ≤ x) : (m.writeBytes a bs).read x = m.read x := by
  induction bs generalizing m a with
  | nil => rfl
  | cons b bs ih =>
    simp only [List.length_cons] at h
    rw [Memory.writeBytes, ih _ _ (by omega), Memory.read_write_ne _ (by omega)]

theorem Memory.wf_writeBytes {m : Memory} (h : m.wf = true) (a : Nat) (bs : List Byte)
    (ha : a + bs.length ≤ Config.addressSpace) : (m.writeBytes a bs).wf = true := by
  induction bs generalizing m a with
  | nil => exact h
  | cons b bs ih =>
    simp only [List.length_cons] at ha
    exact ih (Memory.wf_write h (by omega) b) (a + 1) (by omega)

/-- A write of bytes stores element k at address a + k (R53). -/
theorem Memory.read_writeBytes_inside {m : Memory} (h : m.wf = true) (a : Nat) (bs : List Byte)
    (ha : a + bs.length ≤ Config.addressSpace) (k : Nat) (hk : k < bs.length) :
    (m.writeBytes a bs).read (a + k) = bs[k] := by
  induction bs generalizing m a k with
  | nil => simp at hk
  | cons b bs ih =>
    simp only [List.length_cons] at ha hk
    have hw := Memory.wf_write h (a := a) (by omega) b
    cases k with
    | zero =>
      rw [Memory.writeBytes, Memory.read_writeBytes_outside _ _ _ (by omega)]
      exact Memory.read_write_same h a b
    | succ k =>
      have := ih hw (a + 1) (by omega) k (by omega)
      rw [Memory.writeBytes, List.getElem_cons_succ, ← this]
      congr 1
      omega

theorem Memory.wf_havoc {m : Memory} (h : m.wf = true) (count a n : Nat) : (m.havoc count a n).wf = true := by
  induction n generalizing m a with
  | zero => exact h
  | succ n ih =>
    unfold Memory.havoc
    split_ifs with ha
    · exact ih (Memory.wf_write h ha _) _
    · exact ih h _

/-- Free values reach only the bytes of the range (R233). -/
theorem Memory.read_havoc_outside (m : Memory) (count a n : Nat) {x : Nat} (h : x < a ∨ a + n ≤ x) :
    (m.havoc count a n).read x = m.read x := by
  induction n generalizing m a with
  | zero => rfl
  | succ n ih =>
    unfold Memory.havoc
    split_ifs with ha
    · rw [ih _ _ (by omega), Memory.read_write_ne _ (by omega)]
    · exact ih _ _ (by omega)

end Sys2Proof.Machine
end

