-- ==== Sys2Proof/Laws/State.lean ====
section
/-! SUPPORT. One lemma per field of the state per update, so that no proof unfolds a record update. -/

namespace Sys2Proof.Machine

variable (s : State)

/-! ### `State.issueWord` -/

@[simp] theorem State.issueWord_cmd (v : Word) : (s.issueWord v).cmd = v := rfl
@[simp] theorem State.issueWord_status (v : Word) :
    (s.issueWord v).status = { busy := true, done := false, err := false, cfgOk := s.status.cfgOk, errCode := .noFault, errSub := 0#8 } := rfl
@[simp] theorem State.issueWord_cfg (v : Word) : (s.issueWord v).cfg = s.cfg := rfl
@[simp] theorem State.issueWord_result (v : Word) : (s.issueWord v).result = s.result := rfl
@[simp] theorem State.issueWord_srcAddr (v : Word) : (s.issueWord v).srcAddr = s.srcAddr := rfl
@[simp] theorem State.issueWord_srcLen (v : Word) : (s.issueWord v).srcLen = s.srcLen := rfl
@[simp] theorem State.issueWord_dstAddr (v : Word) : (s.issueWord v).dstAddr = s.dstAddr := rfl
@[simp] theorem State.issueWord_dstCap (v : Word) : (s.issueWord v).dstCap = s.dstCap := rfl
@[simp] theorem State.issueWord_keyAddr (v : Word) : (s.issueWord v).keyAddr = s.keyAddr := rfl
@[simp] theorem State.issueWord_keyLen (v : Word) : (s.issueWord v).keyLen = s.keyLen := rfl
@[simp] theorem State.issueWord_colAddr (v : Word) : (s.issueWord v).colAddr = s.colAddr := rfl
@[simp] theorem State.issueWord_colLen (v : Word) : (s.issueWord v).colLen = s.colLen := rfl
@[simp] theorem State.issueWord_errVal (v : Word) : (s.issueWord v).errVal = s.errVal := rfl
@[simp] theorem State.issueWord_errPos (v : Word) : (s.issueWord v).errPos = s.errPos := rfl
@[simp] theorem State.issueWord_sym (v : Word) : (s.issueWord v).sym = s.sym := rfl
@[simp] theorem State.issueWord_codeOf (v : Word) : (s.issueWord v).codeOf = s.codeOf := rfl
@[simp] theorem State.issueWord_cmdLatch (v : Word) : (s.issueWord v).cmdLatch = v := rfl
@[simp] theorem State.issueWord_mem (v : Word) : (s.issueWord v).mem = s.mem := rfl
@[simp] theorem State.issueWord_platform (v : Word) : (s.issueWord v).platform = s.platform := rfl
@[simp] theorem State.issueWord_host (v : Word) : (s.issueWord v).host = s.host := rfl
@[simp] theorem State.issueWord_peers (v : Word) : (s.issueWord v).peers = s.peers := rfl
@[simp] theorem State.issueWord_turns (v : Word) : (s.issueWord v).turns = s.turns := rfl
@[simp] theorem State.issueWord_busData (v : Word) : (s.issueWord v).busData = s.busData := rfl
@[simp] theorem State.issueWord_freeCount (v : Word) : (s.issueWord v).freeCount = s.freeCount := rfl

/-! ### `State.succeed` -/

@[simp] theorem State.succeed_cmd (res : Int) : (s.succeed res).cmd = s.cmd := rfl
@[simp] theorem State.succeed_status (res : Int) :
    (s.succeed res).status = { busy := false, done := true, err := false, cfgOk := s.status.cfgOk, errCode := .noFault, errSub := 0#8 } := rfl
@[simp] theorem State.succeed_cfg (res : Int) : (s.succeed res).cfg = s.cfg := rfl
@[simp] theorem State.succeed_result (res : Int) : (s.succeed res).result = BitVec.ofInt 32 res := rfl
@[simp] theorem State.succeed_srcAddr (res : Int) : (s.succeed res).srcAddr = s.srcAddr := rfl
@[simp] theorem State.succeed_srcLen (res : Int) : (s.succeed res).srcLen = s.srcLen := rfl
@[simp] theorem State.succeed_dstAddr (res : Int) : (s.succeed res).dstAddr = s.dstAddr := rfl
@[simp] theorem State.succeed_dstCap (res : Int) : (s.succeed res).dstCap = s.dstCap := rfl
@[simp] theorem State.succeed_keyAddr (res : Int) : (s.succeed res).keyAddr = s.keyAddr := rfl
@[simp] theorem State.succeed_keyLen (res : Int) : (s.succeed res).keyLen = s.keyLen := rfl
@[simp] theorem State.succeed_colAddr (res : Int) : (s.succeed res).colAddr = s.colAddr := rfl
@[simp] theorem State.succeed_colLen (res : Int) : (s.succeed res).colLen = s.colLen := rfl
@[simp] theorem State.succeed_errVal (res : Int) : (s.succeed res).errVal = 0#32 := rfl
@[simp] theorem State.succeed_errPos (res : Int) : (s.succeed res).errPos = 0#32 := rfl
@[simp] theorem State.succeed_sym (res : Int) : (s.succeed res).sym = s.sym := rfl
@[simp] theorem State.succeed_codeOf (res : Int) : (s.succeed res).codeOf = s.codeOf := rfl
@[simp] theorem State.succeed_cmdLatch (res : Int) : (s.succeed res).cmdLatch = s.cmdLatch := rfl
@[simp] theorem State.succeed_mem (res : Int) : (s.succeed res).mem = s.mem := rfl
@[simp] theorem State.succeed_platform (res : Int) : (s.succeed res).platform = s.platform := rfl
@[simp] theorem State.succeed_host (res : Int) : (s.succeed res).host = s.host := rfl
@[simp] theorem State.succeed_peers (res : Int) : (s.succeed res).peers = s.peers := rfl
@[simp] theorem State.succeed_turns (res : Int) : (s.succeed res).turns = s.turns := rfl
@[simp] theorem State.succeed_busData (res : Int) : (s.succeed res).busData = s.busData := rfl
@[simp] theorem State.succeed_freeCount (res : Int) : (s.succeed res).freeCount = s.freeCount := rfl

/-! ### `State.failWith` -/

@[simp] theorem State.failWith_cmd (f : SpeFault) : (s.failWith f).cmd = s.cmd := rfl
@[simp] theorem State.failWith_status (f : SpeFault) :
    (s.failWith f).status = { busy := false, done := true, err := true, cfgOk := s.status.cfgOk, errCode := f.code, errSub := f.sub } := rfl
@[simp] theorem State.failWith_cfg (f : SpeFault) : (s.failWith f).cfg = s.cfg := rfl
@[simp] theorem State.failWith_result (f : SpeFault) : (s.failWith f).result = 0#32 := rfl
@[simp] theorem State.failWith_srcAddr (f : SpeFault) : (s.failWith f).srcAddr = s.srcAddr := rfl
@[simp] theorem State.failWith_srcLen (f : SpeFault) : (s.failWith f).srcLen = s.srcLen := rfl
@[simp] theorem State.failWith_dstAddr (f : SpeFault) : (s.failWith f).dstAddr = s.dstAddr := rfl
@[simp] theorem State.failWith_dstCap (f : SpeFault) : (s.failWith f).dstCap = s.dstCap := rfl
@[simp] theorem State.failWith_keyAddr (f : SpeFault) : (s.failWith f).keyAddr = s.keyAddr := rfl
@[simp] theorem State.failWith_keyLen (f : SpeFault) : (s.failWith f).keyLen = s.keyLen := rfl
@[simp] theorem State.failWith_colAddr (f : SpeFault) : (s.failWith f).colAddr = s.colAddr := rfl
@[simp] theorem State.failWith_colLen (f : SpeFault) : (s.failWith f).colLen = s.colLen := rfl
@[simp] theorem State.failWith_errVal (f : SpeFault) : (s.failWith f).errVal = BitVec.ofNat 32 f.val := rfl
@[simp] theorem State.failWith_errPos (f : SpeFault) : (s.failWith f).errPos = BitVec.ofNat 32 f.pos := rfl
@[simp] theorem State.failWith_sym (f : SpeFault) : (s.failWith f).sym = s.sym := rfl
@[simp] theorem State.failWith_codeOf (f : SpeFault) : (s.failWith f).codeOf = s.codeOf := rfl
@[simp] theorem State.failWith_cmdLatch (f : SpeFault) : (s.failWith f).cmdLatch = s.cmdLatch := rfl
@[simp] theorem State.failWith_mem (f : SpeFault) : (s.failWith f).mem = s.mem := rfl
@[simp] theorem State.failWith_platform (f : SpeFault) : (s.failWith f).platform = s.platform := rfl
@[simp] theorem State.failWith_host (f : SpeFault) : (s.failWith f).host = s.host := rfl
@[simp] theorem State.failWith_peers (f : SpeFault) : (s.failWith f).peers = s.peers := rfl
@[simp] theorem State.failWith_turns (f : SpeFault) : (s.failWith f).turns = s.turns := rfl
@[simp] theorem State.failWith_busData (f : SpeFault) : (s.failWith f).busData = s.busData := rfl
@[simp] theorem State.failWith_freeCount (f : SpeFault) : (s.failWith f).freeCount = s.freeCount := rfl

/-! ### `State.unconfigure` -/

@[simp] theorem State.unconfigure_cmd : s.unconfigure.cmd = s.cmd := rfl
@[simp] theorem State.unconfigure_status : s.unconfigure.status = { s.status with cfgOk := false } := rfl
@[simp] theorem State.unconfigure_cfg : s.unconfigure.cfg = Cfg.reset := rfl
@[simp] theorem State.unconfigure_result : s.unconfigure.result = s.result := rfl
@[simp] theorem State.unconfigure_srcAddr : s.unconfigure.srcAddr = s.srcAddr := rfl
@[simp] theorem State.unconfigure_srcLen : s.unconfigure.srcLen = s.srcLen := rfl
@[simp] theorem State.unconfigure_dstAddr : s.unconfigure.dstAddr = s.dstAddr := rfl
@[simp] theorem State.unconfigure_dstCap : s.unconfigure.dstCap = s.dstCap := rfl
@[simp] theorem State.unconfigure_keyAddr : s.unconfigure.keyAddr = s.keyAddr := rfl
@[simp] theorem State.unconfigure_keyLen : s.unconfigure.keyLen = s.keyLen := rfl
@[simp] theorem State.unconfigure_colAddr : s.unconfigure.colAddr = s.colAddr := rfl
@[simp] theorem State.unconfigure_colLen : s.unconfigure.colLen = s.colLen := rfl
@[simp] theorem State.unconfigure_errVal : s.unconfigure.errVal = s.errVal := rfl
@[simp] theorem State.unconfigure_errPos : s.unconfigure.errPos = s.errPos := rfl
@[simp] theorem State.unconfigure_sym : s.unconfigure.sym = clearedSym := rfl
@[simp] theorem State.unconfigure_codeOf : s.unconfigure.codeOf = clearedCodeOf := rfl
@[simp] theorem State.unconfigure_cmdLatch : s.unconfigure.cmdLatch = s.cmdLatch := rfl
@[simp] theorem State.unconfigure_mem : s.unconfigure.mem = s.mem := rfl
@[simp] theorem State.unconfigure_platform : s.unconfigure.platform = s.platform := rfl
@[simp] theorem State.unconfigure_host : s.unconfigure.host = s.host := rfl
@[simp] theorem State.unconfigure_peers : s.unconfigure.peers = s.peers := rfl
@[simp] theorem State.unconfigure_turns : s.unconfigure.turns = s.turns := rfl
@[simp] theorem State.unconfigure_busData : s.unconfigure.busData = s.busData := rfl
@[simp] theorem State.unconfigure_freeCount : s.unconfigure.freeCount = s.freeCount := rfl

/-! ### `State.commitConfig` -/

@[simp] theorem State.commitConfig_cmd (w : Width) (strict preserve : Bool) (l : List Byte) :
    (s.commitConfig w strict preserve l).cmd = s.cmd := rfl
@[simp] theorem State.commitConfig_status (w : Width) (strict preserve : Bool) (l : List Byte) :
    (s.commitConfig w strict preserve l).status = { s.status with cfgOk := true } := rfl
@[simp] theorem State.commitConfig_cfg (w : Width) (strict preserve : Bool) (l : List Byte) :
    (s.commitConfig w strict preserve l).cfg = { width := w, strict := strict, preserve := preserve } := rfl
@[simp] theorem State.commitConfig_result (w : Width) (strict preserve : Bool) (l : List Byte) :
    (s.commitConfig w strict preserve l).result = s.result := rfl
@[simp] theorem State.commitConfig_srcAddr (w : Width) (strict preserve : Bool) (l : List Byte) :
    (s.commitConfig w strict preserve l).srcAddr = s.srcAddr := rfl
@[simp] theorem State.commitConfig_srcLen (w : Width) (strict preserve : Bool) (l : List Byte) :
    (s.commitConfig w strict preserve l).srcLen = s.srcLen := rfl
@[simp] theorem State.commitConfig_dstAddr (w : Width) (strict preserve : Bool) (l : List Byte) :
    (s.commitConfig w strict preserve l).dstAddr = s.dstAddr := rfl
@[simp] theorem State.commitConfig_dstCap (w : Width) (strict preserve : Bool) (l : List Byte) :
    (s.commitConfig w strict preserve l).dstCap = s.dstCap := rfl
@[simp] theorem State.commitConfig_keyAddr (w : Width) (strict preserve : Bool) (l : List Byte) :
    (s.commitConfig w strict preserve l).keyAddr = s.keyAddr := rfl
@[simp] theorem State.commitConfig_keyLen (w : Width) (strict preserve : Bool) (l : List Byte) :
    (s.commitConfig w strict preserve l).keyLen = s.keyLen := rfl
@[simp] theorem State.commitConfig_colAddr (w : Width) (strict preserve : Bool) (l : List Byte) :
    (s.commitConfig w strict preserve l).colAddr = s.colAddr := rfl
@[simp] theorem State.commitConfig_colLen (w : Width) (strict preserve : Bool) (l : List Byte) :
    (s.commitConfig w strict preserve l).colLen = s.colLen := rfl
@[simp] theorem State.commitConfig_errVal (w : Width) (strict preserve : Bool) (l : List Byte) :
    (s.commitConfig w strict preserve l).errVal = s.errVal := rfl
@[simp] theorem State.commitConfig_errPos (w : Width) (strict preserve : Bool) (l : List Byte) :
    (s.commitConfig w strict preserve l).errPos = s.errPos := rfl
@[simp] theorem State.commitConfig_sym (w : Width) (strict preserve : Bool) (l : List Byte) :
    (s.commitConfig w strict preserve l).sym = symTable l := rfl
@[simp] theorem State.commitConfig_codeOf (w : Width) (strict preserve : Bool) (l : List Byte) :
    (s.commitConfig w strict preserve l).codeOf = codeTable l := rfl
@[simp] theorem State.commitConfig_cmdLatch (w : Width) (strict preserve : Bool) (l : List Byte) :
    (s.commitConfig w strict preserve l).cmdLatch = s.cmdLatch := rfl
@[simp] theorem State.commitConfig_mem (w : Width) (strict preserve : Bool) (l : List Byte) :
    (s.commitConfig w strict preserve l).mem = s.mem := rfl
@[simp] theorem State.commitConfig_platform (w : Width) (strict preserve : Bool) (l : List Byte) :
    (s.commitConfig w strict preserve l).platform = s.platform := rfl
@[simp] theorem State.commitConfig_host (w : Width) (strict preserve : Bool) (l : List Byte) :
    (s.commitConfig w strict preserve l).host = s.host := rfl
@[simp] theorem State.commitConfig_peers (w : Width) (strict preserve : Bool) (l : List Byte) :
    (s.commitConfig w strict preserve l).peers = s.peers := rfl
@[simp] theorem State.commitConfig_turns (w : Width) (strict preserve : Bool) (l : List Byte) :
    (s.commitConfig w strict preserve l).turns = s.turns := rfl
@[simp] theorem State.commitConfig_busData (w : Width) (strict preserve : Bool) (l : List Byte) :
    (s.commitConfig w strict preserve l).busData = s.busData := rfl
@[simp] theorem State.commitConfig_freeCount (w : Width) (strict preserve : Bool) (l : List Byte) :
    (s.commitConfig w strict preserve l).freeCount = s.freeCount := rfl

/-! ### `State.jump` -/

@[simp] theorem State.jump_cmd (n : Nat) : (s.jump n).cmd = s.cmd := rfl
@[simp] theorem State.jump_status (n : Nat) : (s.jump n).status = s.status := rfl
@[simp] theorem State.jump_cfg (n : Nat) : (s.jump n).cfg = s.cfg := rfl
@[simp] theorem State.jump_result (n : Nat) : (s.jump n).result = s.result := rfl
@[simp] theorem State.jump_srcAddr (n : Nat) : (s.jump n).srcAddr = s.srcAddr := rfl
@[simp] theorem State.jump_srcLen (n : Nat) : (s.jump n).srcLen = s.srcLen := rfl
@[simp] theorem State.jump_dstAddr (n : Nat) : (s.jump n).dstAddr = s.dstAddr := rfl
@[simp] theorem State.jump_dstCap (n : Nat) : (s.jump n).dstCap = s.dstCap := rfl
@[simp] theorem State.jump_keyAddr (n : Nat) : (s.jump n).keyAddr = s.keyAddr := rfl
@[simp] theorem State.jump_keyLen (n : Nat) : (s.jump n).keyLen = s.keyLen := rfl
@[simp] theorem State.jump_colAddr (n : Nat) : (s.jump n).colAddr = s.colAddr := rfl
@[simp] theorem State.jump_colLen (n : Nat) : (s.jump n).colLen = s.colLen := rfl
@[simp] theorem State.jump_errVal (n : Nat) : (s.jump n).errVal = s.errVal := rfl
@[simp] theorem State.jump_errPos (n : Nat) : (s.jump n).errPos = s.errPos := rfl
@[simp] theorem State.jump_sym (n : Nat) : (s.jump n).sym = s.sym := rfl
@[simp] theorem State.jump_codeOf (n : Nat) : (s.jump n).codeOf = s.codeOf := rfl
@[simp] theorem State.jump_cmdLatch (n : Nat) : (s.jump n).cmdLatch = s.cmdLatch := rfl
@[simp] theorem State.jump_mem (n : Nat) : (s.jump n).mem = s.mem := rfl
@[simp] theorem State.jump_platform (n : Nat) : (s.jump n).platform = s.platform := rfl
@[simp] theorem State.jump_host (n : Nat) : (s.jump n).host = { s.host with line := n } := rfl
@[simp] theorem State.jump_peers (n : Nat) : (s.jump n).peers = s.peers := rfl
@[simp] theorem State.jump_turns (n : Nat) : (s.jump n).turns = s.turns := rfl
@[simp] theorem State.jump_busData (n : Nat) : (s.jump n).busData = s.busData := rfl
@[simp] theorem State.jump_freeCount (n : Nat) : (s.jump n).freeCount = s.freeCount := rfl

/-! ### `State.nextLine` -/

@[simp] theorem State.nextLine_cmd : s.nextLine.cmd = s.cmd := rfl
@[simp] theorem State.nextLine_status : s.nextLine.status = s.status := rfl
@[simp] theorem State.nextLine_cfg : s.nextLine.cfg = s.cfg := rfl
@[simp] theorem State.nextLine_result : s.nextLine.result = s.result := rfl
@[simp] theorem State.nextLine_srcAddr : s.nextLine.srcAddr = s.srcAddr := rfl
@[simp] theorem State.nextLine_srcLen : s.nextLine.srcLen = s.srcLen := rfl
@[simp] theorem State.nextLine_dstAddr : s.nextLine.dstAddr = s.dstAddr := rfl
@[simp] theorem State.nextLine_dstCap : s.nextLine.dstCap = s.dstCap := rfl
@[simp] theorem State.nextLine_keyAddr : s.nextLine.keyAddr = s.keyAddr := rfl
@[simp] theorem State.nextLine_keyLen : s.nextLine.keyLen = s.keyLen := rfl
@[simp] theorem State.nextLine_colAddr : s.nextLine.colAddr = s.colAddr := rfl
@[simp] theorem State.nextLine_colLen : s.nextLine.colLen = s.colLen := rfl
@[simp] theorem State.nextLine_errVal : s.nextLine.errVal = s.errVal := rfl
@[simp] theorem State.nextLine_errPos : s.nextLine.errPos = s.errPos := rfl
@[simp] theorem State.nextLine_sym : s.nextLine.sym = s.sym := rfl
@[simp] theorem State.nextLine_codeOf : s.nextLine.codeOf = s.codeOf := rfl
@[simp] theorem State.nextLine_cmdLatch : s.nextLine.cmdLatch = s.cmdLatch := rfl
@[simp] theorem State.nextLine_mem : s.nextLine.mem = s.mem := rfl
@[simp] theorem State.nextLine_platform : s.nextLine.platform = s.platform := rfl
@[simp] theorem State.nextLine_host : s.nextLine.host = { s.host with line := s.host.line + 1 } := rfl
@[simp] theorem State.nextLine_peers : s.nextLine.peers = s.peers := rfl
@[simp] theorem State.nextLine_turns : s.nextLine.turns = s.turns := rfl
@[simp] theorem State.nextLine_busData : s.nextLine.busData = s.busData := rfl
@[simp] theorem State.nextLine_freeCount : s.nextLine.freeCount = s.freeCount := rfl

/-! ### `State.setTemp` -/

@[simp] theorem State.setTemp_cmd (t : Nat) (v : Word) : (s.setTemp t v).cmd = s.cmd := rfl
@[simp] theorem State.setTemp_status (t : Nat) (v : Word) : (s.setTemp t v).status = s.status := rfl
@[simp] theorem State.setTemp_cfg (t : Nat) (v : Word) : (s.setTemp t v).cfg = s.cfg := rfl
@[simp] theorem State.setTemp_result (t : Nat) (v : Word) : (s.setTemp t v).result = s.result := rfl
@[simp] theorem State.setTemp_srcAddr (t : Nat) (v : Word) : (s.setTemp t v).srcAddr = s.srcAddr := rfl
@[simp] theorem State.setTemp_srcLen (t : Nat) (v : Word) : (s.setTemp t v).srcLen = s.srcLen := rfl
@[simp] theorem State.setTemp_dstAddr (t : Nat) (v : Word) : (s.setTemp t v).dstAddr = s.dstAddr := rfl
@[simp] theorem State.setTemp_dstCap (t : Nat) (v : Word) : (s.setTemp t v).dstCap = s.dstCap := rfl
@[simp] theorem State.setTemp_keyAddr (t : Nat) (v : Word) : (s.setTemp t v).keyAddr = s.keyAddr := rfl
@[simp] theorem State.setTemp_keyLen (t : Nat) (v : Word) : (s.setTemp t v).keyLen = s.keyLen := rfl
@[simp] theorem State.setTemp_colAddr (t : Nat) (v : Word) : (s.setTemp t v).colAddr = s.colAddr := rfl
@[simp] theorem State.setTemp_colLen (t : Nat) (v : Word) : (s.setTemp t v).colLen = s.colLen := rfl
@[simp] theorem State.setTemp_errVal (t : Nat) (v : Word) : (s.setTemp t v).errVal = s.errVal := rfl
@[simp] theorem State.setTemp_errPos (t : Nat) (v : Word) : (s.setTemp t v).errPos = s.errPos := rfl
@[simp] theorem State.setTemp_sym (t : Nat) (v : Word) : (s.setTemp t v).sym = s.sym := rfl
@[simp] theorem State.setTemp_codeOf (t : Nat) (v : Word) : (s.setTemp t v).codeOf = s.codeOf := rfl
@[simp] theorem State.setTemp_cmdLatch (t : Nat) (v : Word) : (s.setTemp t v).cmdLatch = s.cmdLatch := rfl
@[simp] theorem State.setTemp_mem (t : Nat) (v : Word) : (s.setTemp t v).mem = s.mem := rfl
@[simp] theorem State.setTemp_platform (t : Nat) (v : Word) : (s.setTemp t v).platform = s.platform := rfl
@[simp] theorem State.setTemp_host (t : Nat) (v : Word) :
    (s.setTemp t v).host = { s.host with temps := tableWrite Config.unwrittenTemp s.host.temps t v } := rfl
@[simp] theorem State.setTemp_peers (t : Nat) (v : Word) : (s.setTemp t v).peers = s.peers := rfl
@[simp] theorem State.setTemp_turns (t : Nat) (v : Word) : (s.setTemp t v).turns = s.turns := rfl
@[simp] theorem State.setTemp_busData (t : Nat) (v : Word) : (s.setTemp t v).busData = s.busData := rfl
@[simp] theorem State.setTemp_freeCount (t : Nat) (v : Word) : (s.setTemp t v).freeCount = s.freeCount := rfl

/-! ### `State.applyReset` -/

@[simp] theorem State.applyReset_cmd : s.applyReset.cmd = 0#32 := rfl
@[simp] theorem State.applyReset_status : s.applyReset.status = Status.reset := rfl
@[simp] theorem State.applyReset_cfg : s.applyReset.cfg = Cfg.reset := rfl
@[simp] theorem State.applyReset_result : s.applyReset.result = 0#32 := rfl
@[simp] theorem State.applyReset_srcAddr : s.applyReset.srcAddr = 0#32 := rfl
@[simp] theorem State.applyReset_srcLen : s.applyReset.srcLen = 0#32 := rfl
@[simp] theorem State.applyReset_dstAddr : s.applyReset.dstAddr = 0#32 := rfl
@[simp] theorem State.applyReset_dstCap : s.applyReset.dstCap = 0#32 := rfl
@[simp] theorem State.applyReset_keyAddr : s.applyReset.keyAddr = 0#32 := rfl
@[simp] theorem State.applyReset_keyLen : s.applyReset.keyLen = 0#32 := rfl
@[simp] theorem State.applyReset_colAddr : s.applyReset.colAddr = 0#32 := rfl
@[simp] theorem State.applyReset_colLen : s.applyReset.colLen = 0#32 := rfl
@[simp] theorem State.applyReset_errVal : s.applyReset.errVal = 0#32 := rfl
@[simp] theorem State.applyReset_errPos : s.applyReset.errPos = 0#32 := rfl
@[simp] theorem State.applyReset_sym : s.applyReset.sym = clearedSym := rfl
@[simp] theorem State.applyReset_codeOf : s.applyReset.codeOf = clearedCodeOf := rfl
@[simp] theorem State.applyReset_cmdLatch : s.applyReset.cmdLatch = 0#32 := rfl
@[simp] theorem State.applyReset_mem :
    s.applyReset.mem = s.inFlight.writes.foldl (fun m r => m.havoc s.freeCount r.base r.len) s.mem := rfl
@[simp] theorem State.applyReset_platform : s.applyReset.platform = s.platform := rfl
@[simp] theorem State.applyReset_host : s.applyReset.host = s.host := rfl
@[simp] theorem State.applyReset_peers : s.applyReset.peers = s.peers := rfl
@[simp] theorem State.applyReset_turns : s.applyReset.turns = s.turns := rfl
@[simp] theorem State.applyReset_busData : s.applyReset.busData = s.busData := rfl
@[simp] theorem State.applyReset_freeCount : s.applyReset.freeCount = s.freeCount + 1 := rfl

/-! ### `State.withFetchWord` -/

@[simp] theorem State.withFetchWord_cmd (n w : Nat) : (s.withFetchWord n w).cmd = tableWord n w := rfl
@[simp] theorem State.withFetchWord_status (n w : Nat) :
    (s.withFetchWord n w).status = { busy := true, done := false, err := false, cfgOk := s.status.cfgOk, errCode := .noFault, errSub := 0#8 } := rfl
@[simp] theorem State.withFetchWord_cfg (n w : Nat) : (s.withFetchWord n w).cfg = s.cfg := rfl
@[simp] theorem State.withFetchWord_result (n w : Nat) : (s.withFetchWord n w).result = s.result := rfl
@[simp] theorem State.withFetchWord_srcAddr (n w : Nat) : (s.withFetchWord n w).srcAddr = s.srcAddr := rfl
@[simp] theorem State.withFetchWord_srcLen (n w : Nat) : (s.withFetchWord n w).srcLen = s.srcLen := rfl
@[simp] theorem State.withFetchWord_dstAddr (n w : Nat) : (s.withFetchWord n w).dstAddr = s.dstAddr := rfl
@[simp] theorem State.withFetchWord_dstCap (n w : Nat) : (s.withFetchWord n w).dstCap = s.dstCap := rfl
@[simp] theorem State.withFetchWord_keyAddr (n w : Nat) : (s.withFetchWord n w).keyAddr = s.keyAddr := rfl
@[simp] theorem State.withFetchWord_keyLen (n w : Nat) : (s.withFetchWord n w).keyLen = s.keyLen := rfl
@[simp] theorem State.withFetchWord_colAddr (n w : Nat) : (s.withFetchWord n w).colAddr = s.colAddr := rfl
@[simp] theorem State.withFetchWord_colLen (n w : Nat) : (s.withFetchWord n w).colLen = s.colLen := rfl
@[simp] theorem State.withFetchWord_errVal (n w : Nat) : (s.withFetchWord n w).errVal = s.errVal := rfl
@[simp] theorem State.withFetchWord_errPos (n w : Nat) : (s.withFetchWord n w).errPos = s.errPos := rfl
@[simp] theorem State.withFetchWord_sym (n w : Nat) : (s.withFetchWord n w).sym = s.sym := rfl
@[simp] theorem State.withFetchWord_codeOf (n w : Nat) : (s.withFetchWord n w).codeOf = s.codeOf := rfl
@[simp] theorem State.withFetchWord_cmdLatch (n w : Nat) : (s.withFetchWord n w).cmdLatch = tableWord n w := rfl
@[simp] theorem State.withFetchWord_mem (n w : Nat) : (s.withFetchWord n w).mem = s.mem := rfl
@[simp] theorem State.withFetchWord_platform (n w : Nat) : (s.withFetchWord n w).platform = s.platform := rfl
@[simp] theorem State.withFetchWord_host (n w : Nat) : (s.withFetchWord n w).host = s.host := rfl
@[simp] theorem State.withFetchWord_peers (n w : Nat) : (s.withFetchWord n w).peers = s.peers := rfl
@[simp] theorem State.withFetchWord_turns (n w : Nat) : (s.withFetchWord n w).turns = .engine :: s.turns := rfl
@[simp] theorem State.withFetchWord_busData (n w : Nat) : (s.withFetchWord n w).busData = s.busData := rfl
@[simp] theorem State.withFetchWord_freeCount (n w : Nat) : (s.withFetchWord n w).freeCount = s.freeCount := rfl

end Sys2Proof.Machine
end

