-- ==== Sys2Proof/Laws/Ops.lean ====
section
/-! SUPPORT. What each shared operation can do, said once: ranges and admission, the checks, and how a command ends. -/

namespace Sys2Proof.Machine

/-! ### Ranges (R54, R56) -/

@[simp] theorem Range.contains_iff {r : Range} {a : Nat} : r.contains a = true ↔ r.base ≤ a ∧ a < r.base + r.len := by
  simp [Range.contains]

theorem Range.intersects_iff {r q : Range} : r.intersects q = true ↔ ∃ a, r.contains a = true ∧ q.contains a = true := by
  simp only [Range.intersects, decide_eq_true_eq, Range.contains_iff]
  constructor
  · rintro ⟨h1, h2, h3, h4⟩
    exact ⟨max r.base q.base, by omega, by omega⟩
  · rintro ⟨a, ⟨h1, h2⟩, h3, h4⟩
    omega

/-- `Separate` says that no byte belongs to both ranges. -/
theorem separate_iff {r q : Range} : Separate r q ↔ r.intersects q = false := by
  simp only [Separate, Range.intersects, decide_eq_false_iff_not]
  omega

theorem Platform.admit_eq_false_iff {p : Platform} {a : Nat} :
    p.admits a = false ↔ ∃ h ∈ p.block :: p.denied, h.contains a = true := by
  rw [Platform.admits, List.all_eq_false]
  simp only [Bool.not_eq_true', Bool.not_eq_false]

/-- The engine never accesses the register block (R55). -/
theorem Platform.admit_block {p : Platform} {a : Nat} (h : p.block.contains a = true) : p.admits a = false :=
  Platform.admit_eq_false_iff.2 ⟨p.block, List.mem_cons_self, h⟩

/-- `lowestShared` answers `none` exactly when no hole meets the range, else the lowest byte of the range in a hole. -/
theorem lowestShared_spec (r : Range) (holes : List Range) :
    match lowestShared r holes with
    | none => ∀ x, r.contains x = true → ¬∃ h ∈ holes, h.contains x = true
    | some a =>
      (r.contains a = true ∧ ∃ h ∈ holes, h.contains a = true) ∧
        ∀ x, r.contains x = true → (∃ h ∈ holes, h.contains x = true) → a ≤ x := by
  induction holes with
  | nil => simp [lowestShared]
  | cons h rest ih =>
    unfold lowestShared
    by_cases hi : h.intersects r = true
    · rw [if_pos hi]
      obtain ⟨y, hy1, hy2⟩ := Range.intersects_iff.1 hi
      simp only [Range.contains_iff] at hy1 hy2
      have hmax : r.contains (max h.base r.base) = true ∧ h.contains (max h.base r.base) = true := by
        simp only [Range.contains_iff]; omega
      have hlow : ∀ x, r.contains x = true → h.contains x = true → max h.base r.base ≤ x := by
        simp only [Range.contains_iff]; omega
      cases hl : lowestShared r rest with
      | none =>
        rw [hl] at ih
        refine ⟨⟨hmax.1, h, List.mem_cons_self, hmax.2⟩, fun x hx hex => ?_⟩
        obtain ⟨g, hg, hgx⟩ := hex
        rcases List.mem_cons.1 hg with rfl | hg
        · exact hlow x hx hgx
        · exact absurd ⟨g, hg, hgx⟩ (ih x hx)
      | some a =>
        rw [hl] at ih
        obtain ⟨⟨ha, g, hg, hga⟩, hmin⟩ := ih
        refine ⟨?_, fun x hx hex => ?_⟩
        · rcases min_choice (max h.base r.base) a with h' | h' <;> rw [h']
          · exact ⟨hmax.1, h, List.mem_cons_self, hmax.2⟩
          · exact ⟨ha, g, List.mem_cons_of_mem _ hg, hga⟩
        · obtain ⟨g', hg', hgx⟩ := hex
          rcases List.mem_cons.1 hg' with rfl | hg'
          · exact le_trans (min_le_left _ _) (hlow x hx hgx)
          · exact le_trans (min_le_right _ _) (hmin x hx ⟨g', hg', hgx⟩)
    · rw [if_neg hi]
      have hno : ∀ x, r.contains x = true → ¬h.contains x = true := fun x hx hh =>
        hi (Range.intersects_iff.2 ⟨x, hh, hx⟩)
      cases hl : lowestShared r rest with
      | none =>
        rw [hl] at ih
        rintro x hx ⟨g, hg, hgx⟩
        rcases List.mem_cons.1 hg with rfl | hg
        · exact hno x hx hgx
        · exact ih x hx ⟨g, hg, hgx⟩
      | some a =>
        rw [hl] at ih
        obtain ⟨⟨ha, g, hg, hga⟩, hmin⟩ := ih
        refine ⟨⟨ha, g, List.mem_cons_of_mem _ hg, hga⟩, fun x hx hex => ?_⟩
        obtain ⟨g', hg', hgx⟩ := hex
        rcases List.mem_cons.1 hg' with rfl | hg'
        · exact absurd hgx (hno x hx)
        · exact hmin x hx ⟨g', hg', hgx⟩

/-- A range is reported nowhere exactly when it is admitted (R54). -/
theorem Platform.refusedAt_eq_none_iff {p : Platform} {r : Range} : p.refusedAt r = none ↔ Admitted p r := by
  have hs := lowestShared_spec r (p.block :: p.denied)
  unfold Platform.refusedAt Admitted Config.addressSpace
  split_ifs with h1 h2
  · simp [h1]
  · simp only [h1, false_or, false_iff, not_and]
    omega
  · simp only [h1, false_or]
    cases hl : lowestShared r (p.block :: p.denied) with
    | none =>
      rw [hl] at hs
      refine ⟨fun _ => ⟨by omega, fun k hk => ?_⟩, fun _ => rfl⟩
      by_contra hc
      rw [Bool.not_eq_true, Platform.admit_eq_false_iff] at hc
      exact hs (r.base + k) (by simp only [Range.contains_iff]; omega) hc
    | some a =>
      rw [hl] at hs
      obtain ⟨⟨ha, hh⟩, -⟩ := hs
      simp only [Range.contains_iff] at ha
      simp only [reduceCtorEq, false_iff, not_and, not_forall]
      intro _
      refine ⟨a - r.base, by omega, ?_⟩
      rw [show r.base + (a - r.base) = a by omega, Platform.admit_eq_false_iff.2 hh]
      simp

/-- A range that is not admitted is reported at its base if it passes 2^32, else at its lowest refused byte (R54). -/
theorem Platform.refusedAt_eq_some_iff {p : Platform} {r : Range} {a : Nat} :
    p.refusedAt r = some a ↔ RefusedAt p r a := by
  have hs := lowestShared_spec r (p.block :: p.denied)
  unfold Platform.refusedAt RefusedAt Config.addressSpace
  split_ifs with h1 h2
  · simp [h1]
  · simp only [Option.some.injEq, ne_eq, h1, not_false_eq_true, true_and]
    constructor
    · rintro rfl; exact .inl ⟨h2, rfl⟩
    · rintro (⟨-, h⟩ | ⟨h, -⟩)
      · exact h.symm
      · omega
  · simp only [ne_eq, h1, not_false_eq_true, true_and]
    have low : ∀ b, r.base ≤ b → b < r.base + r.len → (∀ k, k < b - r.base → p.admits (r.base + k) = true) →
        ∀ x, r.contains x = true → p.admits x = false → b ≤ x := by
      intro b hb1 hb2 hb x hx hxf
      by_contra hlt
      simp only [Range.contains_iff] at hx
      have := hb (x - r.base) (by omega)
      rw [show r.base + (x - r.base) = x by omega, hxf] at this
      exact absurd this (by simp)
    cases hl : lowestShared r (p.block :: p.denied) with
    | none =>
      rw [hl] at hs
      simp only [reduceCtorEq, false_iff, not_or, not_and]
      refine ⟨fun h => absurd h h2, fun _ hb1 hb2 hf _ => ?_⟩
      exact hs a (by simp only [Range.contains_iff]; omega) (Platform.admit_eq_false_iff.1 hf)
    | some b =>
      rw [hl] at hs
      obtain ⟨⟨hb, hh⟩, hmin⟩ := hs
      have hb' := Range.contains_iff.1 hb
      simp only [Option.some.injEq]
      constructor
      · rintro rfl
        refine .inr ⟨by omega, hb'.1, hb'.2, Platform.admit_eq_false_iff.2 hh, fun k hk => ?_⟩
        by_contra hc
        rw [Bool.not_eq_true, Platform.admit_eq_false_iff] at hc
        have := hmin (r.base + k) (by simp only [Range.contains_iff]; omega) hc
        omega
      · rintro (⟨h, -⟩ | ⟨-, ha1, ha2, haf, hk⟩)
        · omega
        · have h3 := low a ha1 ha2 hk b hb (Platform.admit_eq_false_iff.2 hh)
          have h4 := hmin a (by simp only [Range.contains_iff]; omega) (Platform.admit_eq_false_iff.1 haf)
          omega

/-! ### The checks -/

@[simp] theorem rangeFault_eq_none_iff {p : Platform} {id : RangeId} {r : Range} :
    rangeFault p id r = none ↔ Admitted p r := by
  rw [← Platform.refusedAt_eq_none_iff, rangeFault]
  cases p.refusedAt r <;> simp

theorem rangeFault_eq_some_iff {p : Platform} {id : RangeId} {r : Range} {f : SpeFault} :
    rangeFault p id r = some f ↔
      ∃ a, RefusedAt p r a ∧ f = { code := .busError, sub := 0#8, val := id.number, pos := a } := by
  simp only [← Platform.refusedAt_eq_some_iff, rangeFault]
  cases p.refusedAt r <;> simp [eq_comm]

@[simp] theorem lengthFault_eq_none_iff {id : LengthId} {n pos : Nat} :
    lengthFault id n pos = none ↔ n ≤ 2 ^ 31 - 1 := by
  simp [lengthFault, Config.maxLen]

@[simp] theorem overlapFault_eq_none_iff {r q : Range} : overlapFault r q = none ↔ Separate r q := by
  rw [separate_iff, overlapFault]
  split_ifs with h <;> simp [h]

@[simp] theorem overflowFault_eq_none_iff {n cap : Nat} : overflowFault n cap = none ↔ n ≤ cap := by
  simp [overflowFault]

@[simp] theorem notConfiguredFault_eq_none_iff {s : State} :
    notConfiguredFault s = none ↔ s.status.cfgOk = true := by
  unfold notConfiguredFault
  split_ifs with h <;> simp [h]

@[simp] theorem malformedFault_eq_none_iff {w : Width} {b : List Byte} {pos : Nat} :
    malformedFault w b pos = none ↔ malformedSub w b = none := by
  unfold malformedFault
  cases malformedSub w b <;> simp

@[simp] theorem nulltolFault_eq_none_iff {s : State} {nulltol : Bool} :
    nulltolFault s nulltol = none ↔ (nulltol = true → s.width = .w4) := by
  unfold nulltolFault
  split_ifs with h
  · simpa using h
  · simpa using h

@[simp] theorem sizeFault_eq_none_iff {s : State} {w : Width} : sizeFault s w = none ↔ s.srcLen.toNat = w.size := by
  simp [sizeFault]

/-- A first fault is absent exactly when both checks pass. -/
@[simp] theorem orElse_eq_none_iff {α : Type} {a b : Option α} : (a <|> b) = none ↔ a = none ∧ b = none := by
  cases a <;> simp

/-- No byte of a string lacks a code (R120). -/
theorem unsupportedFault_eq_none_iff {s : State} {i : Nat} {bs : List Byte} :
    unsupportedFault s i bs = none ↔ ∀ b ∈ bs, (s.encode b).isSome = true := by
  induction bs generalizing i with
  | nil => simp [unsupportedFault]
  | cons b bs ih =>
    unfold unsupportedFault
    cases h : s.encode b <;> simp [h, ih]

/-- UNSUPPORTED_CHAR names the lowest index whose byte has no code (R120, R121). -/
theorem unsupportedFault_eq_some {s : State} {i : Nat} {bs : List Byte} {k : Nat} (hk : k < bs.length)
    (h : s.encode bs[k] = none) (hb : ∀ j (hj : j < k), (s.encode (bs[j]'(hj.trans hk))).isSome = true) :
    unsupportedFault s i bs = some { code := .unsupportedChar, sub := 0#8, val := bs[k].toNat, pos := i + k } := by
  induction bs generalizing i k with
  | nil => simp at hk
  | cons b bs ih =>
    unfold unsupportedFault
    cases k with
    | zero => simp only [List.getElem_cons_zero] at h; simp [h]
    | succ k =>
      have h0 := hb 0 (by omega)
      simp only [List.getElem_cons_zero] at h0
      obtain ⟨c, hc⟩ := Option.isSome_iff_exists.1 h0
      rw [hc]
      simp only [List.getElem_cons_succ] at h ⊢
      rw [ih (i := i + 1) (by simpa using hk) h fun j hj => by simpa using hb (j + 1) (by omega)]
      congr 2
      omega

/-- When every byte has a code, there is a code for each byte (R120). -/
theorem State.encodeAll_length {s : State} {bs : List Byte} (h : ∀ b ∈ bs, (s.encode b).isSome = true) :
    (s.encodeAll bs).length = bs.length := by
  induction bs with
  | nil => rfl
  | cons b bs ih =>
    obtain ⟨c, hc⟩ := Option.isSome_iff_exists.1 (h b List.mem_cons_self)
    have := ih fun x hx => h x (List.mem_cons_of_mem _ hx)
    simp only [State.encodeAll, List.filterMap_cons, hc, Option.map_some, List.length_cons] at this ⊢
    omega

@[simp] theorem State.readRange_length (s : State) (r : Range) : (s.readRange r).length = r.len := by
  simp [State.readRange]

/-! ### When a command meets no fault, and how it ends -/

theorem packFault_eq_none_iff {s : State} : packFault s = none ↔ PackReady s := by
  simp only [packFault, orElse_eq_none_iff, notConfiguredFault_eq_none_iff, lengthFault_eq_none_iff,
    overlapFault_eq_none_iff, rangeFault_eq_none_iff, overflowFault_eq_none_iff, unsupportedFault_eq_none_iff, PackReady,
    State.readRange, Memory.readBytes_eq_map, List.forall_mem_map, List.mem_range]
  exact Iff.rfl

theorem unpackFault_eq_none_iff {s : State} : unpackFault s = none ↔ UnpackReady s := by
  simp only [unpackFault, orElse_eq_none_iff, notConfiguredFault_eq_none_iff, lengthFault_eq_none_iff,
    overlapFault_eq_none_iff, rangeFault_eq_none_iff, overflowFault_eq_none_iff, malformedFault_eq_none_iff, UnpackReady]

theorem compareFault_eq_none_iff {s : State} : compareFault s = none ↔ CompareReady s := by
  simp only [compareFault, orElse_eq_none_iff, notConfiguredFault_eq_none_iff, lengthFault_eq_none_iff,
    rangeFault_eq_none_iff, malformedFault_eq_none_iff, CompareReady]

theorem searchFault_eq_none_iff {s : State} {nulltol : Bool} : searchFault s nulltol = none ↔ SearchReady s nulltol := by
  simp only [searchFault, orElse_eq_none_iff, notConfiguredFault_eq_none_iff, lengthFault_eq_none_iff,
    rangeFault_eq_none_iff, nulltolFault_eq_none_iff, SearchReady]

/-- What a visit of an element answers when it does not fault (R171). -/
theorem visit_eq_ok_iff {s : State} {key : List Byte} {mode : Mode} {nulltol : Bool} {i : Nat} {c : Int} :
    visit s key mode nulltol i = .ok c ↔
      if (s.descriptor i).len = absentLen then nulltol = true ∧ c = 1
      else
        (s.descriptor i).len ≤ 2 ^ 31 - 1 ∧ Admitted s.platform (s.descriptor i).range ∧
          malformedSub s.width (s.readRange (s.descriptor i).range) = none ∧
          c = s.compare (s.readRange (s.descriptor i).range) key mode := by
  have hd : descriptorAt s.mem s.colAddr.toNat i = s.descriptor i := rfl
  simp only [visit, hd]
  by_cases h1 : (s.descriptor i).len = absentLen
  · cases nulltol <;> simp [h1, eq_comm]
  · have hn : elementFault s i (s.descriptor i) = none ↔ (s.descriptor i).len ≤ 2 ^ 31 - 1 ∧
        Admitted s.platform (s.descriptor i).range ∧
          malformedSub s.width (s.readRange (s.descriptor i).range) = none := by
      simp only [elementFault, orElse_eq_none_iff, lengthFault_eq_none_iff, rangeFault_eq_none_iff,
        malformedFault_eq_none_iff]
    simp only [if_neg h1]
    cases hf : elementFault s i (s.descriptor i) with
    | none =>
      obtain ⟨h2, h3, h4⟩ := hn.1 hf
      simp only [Except.ok.injEq]
      exact ⟨fun h => ⟨h2, h3, h4, h.symm⟩, fun h => h.2.2.2.symm⟩
    | some f =>
      simp only [reduceCtorEq, false_iff]
      rintro ⟨h2, h3, h4, -⟩
      rw [hn.2 ⟨h2, h3, h4⟩] at hf
      cases hf

theorem execPack_eq (s : State) :
    execPack s =
      match packFault s with
      | some f => .next (s.failWith f)
      | none => .next (s.successEnd (packMemory s) (packedSize s.width s.srcLen.toNat)) := rfl

theorem execUnpack_eq (s : State) :
    execUnpack s =
      match unpackFault s with
      | some f => .next (s.failWith f)
      | none => .next (s.successEnd (unpackMemory s) (decodedLength s.width (s.readRange s.srcRange))) := rfl

theorem failWith_eq_faultEnd (s : State) (f : SpeFault) : s.failWith f = s.faultEnd f.code f.sub f.val f.pos := rfl

theorem succeed_eq_successEnd (s : State) (res : Int) : s.succeed res = s.successEnd s.mem res := rfl

theorem unconfigure_failWith_eq (s : State) (f : SpeFault) :
    s.unconfigure.failWith f = s.configFaultEnd f.code f.sub f.val f.pos := rfl

end Sys2Proof.Machine
end

