-- ==== Sys2Proof/Laws/Alphabet.lean ====
section
/-! SUPPORT. The alphabet a successful CONFIG builds: its checks, and that the tables are those of a valid alphabet
(40_config.md R100, R103; 10_state.md R37). -/

namespace Sys2Proof.Machine

/-- No symbol of a list is high (R100 (b)). -/
theorem highSymbolFault_eq_none_iff {i : Nat} {l : List Byte} :
    highSymbolFault i l = none ↔ ∀ b ∈ l, b.toNat < 128 := by
  induction l generalizing i with
  | nil => simp [highSymbolFault]
  | cons b bs ih =>
    unfold highSymbolFault
    split_ifs with h
    · simpa using fun h' : b.toNat < 128 => absurd h (by omega)
    · simp only [ih, List.forall_mem_cons]
      exact ⟨fun h' => ⟨by omega, h'⟩, fun h' => h'.2⟩

/-- No symbol of a list stands twice (R100 (c)). -/
theorem duplicateFault_eq_none_iff {i : Nat} {seen l : List Byte} :
    duplicateFault i seen l = none ↔ l.Nodup ∧ ∀ b ∈ l, b ∉ seen := by
  induction l generalizing i seen with
  | nil => simp [duplicateFault]
  | cons b bs ih =>
    unfold duplicateFault
    split_ifs with h
    · simp [h]
    · rw [ih, List.nodup_cons]
      constructor
      · rintro ⟨h1, h2⟩
        refine ⟨⟨fun hb => (h2 b hb) List.mem_cons_self, h1⟩, ?_⟩
        intro x hx
        rcases List.mem_cons.1 hx with rfl | hx
        · exact h
        · exact fun hs => h2 x hx (List.mem_cons_of_mem _ hs)
      · rintro ⟨⟨h1, h2⟩, h3⟩
        refine ⟨h2, fun x hx hs => ?_⟩
        rcases List.mem_cons.1 hs with rfl | hs
        · exact h1 hx
        · exact h3 x (List.mem_cons_of_mem _ hx) hs

/-- The code of a symbol of a list without repeats is its place (R103, R104). -/
theorem codeIn_getElem {l : List Byte} (hl : l.Nodup) (i k : Nat) (hk : k < l.length) :
    codeIn i l l[k] = some (BitVec.ofNat 6 (i + k)) := by
  induction l generalizing i k with
  | nil => simp at hk
  | cons b bs ih =>
    obtain ⟨hb, hbs⟩ := List.nodup_cons.1 hl
    unfold codeIn
    cases k with
    | zero => simp
    | succ k =>
      have hk' : k < bs.length := by simpa using hk
      have : b ≠ bs[k] := fun h => hb (h ▸ List.getElem_mem hk')
      rw [List.getElem_cons_succ, if_neg this, ih hbs (i + 1) k hk']
      congr 2
      omega

/-- A byte that is no symbol of a list has no code (R103). -/
theorem codeIn_eq_none_iff {i : Nat} {l : List Byte} {b : Byte} : codeIn i l b = none ↔ b ∉ l := by
  induction l generalizing i with
  | nil => simp [codeIn]
  | cons s ss ih =>
    unfold codeIn
    split_ifs with h
    · simp [h]
    · simp [ih, Ne.symm h]

/-- SYM after a commit (R108). -/
theorem symTable_getElem (l : List Byte) (i : Nat) (h : i < 64) :
    (symTable l)[i] = (l.getD i 0x00#8).setWidth 7 := by
  simp [symTable]

/-- CODEOF after a commit (R103). -/
theorem commitConfig_code (s : State) (w : Width) (strict preserve : Bool) (l : List Byte) (b : Symbol) :
    (s.commitConfig w strict preserve l).code b = codeIn 0 l (b.setWidth 8) := by
  have : BitVec.ofNat 8 b.toNat = b.setWidth 8 := by
    apply BitVec.eq_of_toNat_eq
    simp
  simp [State.code, State.commitConfig, codeTable, this]

/-- The tables of a committed valid alphabet satisfy R35 and R37. -/
theorem commitConfig_configured (s : State) (w : Width) (strict preserve : Bool) {l : List Byte} (hl : l.length = w.size)
    (hs : ∀ b ∈ l, b.toNat < 128) (hd : l.Nodup) : (s.commitConfig w strict preserve l).Configured := by
  have h64 : w.size ≤ 64 := by cases w <;> decide
  have back : ∀ b ∈ l, (b.setWidth 7).setWidth 8 = b := by
    intro b hb
    have := hs b hb
    apply BitVec.eq_of_toNat_eq
    simp only [BitVec.toNat_setWidth]
    omega
  have sym : ∀ (i : Nat) (h : i < 64) (hi : i < l.length), (s.commitConfig w strict preserve l).sym[i] = l[i].setWidth 7 := by
    intro i h hi
    simp only [State.commitConfig_sym, symTable_getElem]
    simp [List.getD_eq_getElem?_getD, List.getElem?_eq_getElem hi]
  constructor
  · intro i h hi
    have hi : i < l.length := hl ▸ hi
    rw [sym i h hi, commitConfig_code, back _ (List.getElem_mem hi), codeIn_getElem hd 0 i hi]
    simp
  · intro b hb
    rw [commitConfig_code, codeIn_eq_none_iff]
    intro hmem
    obtain ⟨i, hi, hib⟩ := List.getElem_of_mem hmem
    refine hb i (by omega) (hl ▸ hi) ?_
    rw [sym i (by omega) hi, hib]
    apply BitVec.eq_of_toNat_eq
    simp only [BitVec.toNat_setWidth]
    omega
  · intro i h hi
    simp only [State.commitConfig_sym, State.commitConfig_cfg, State.width] at hi ⊢
    rw [symTable_getElem, List.getD_eq_default _ _ (by omega)]
    rfl

/-- The default lists are valid alphabets (R100, R102). -/
theorem defaultSymbols_valid (w : Width) :
    (defaultSymbols w).length = w.size ∧ (∀ b ∈ defaultSymbols w, b.toNat < 128) ∧ (defaultSymbols w).Nodup := by
  have order : ∀ (σ : Equiv.Perm (Fin 128)) (n : Nat), n ≤ 128 →
      (firstOfOrder σ n).length = n ∧ (∀ b ∈ firstOfOrder σ n, b.toNat < 128) ∧ (firstOfOrder σ n).Nodup := by
    intro σ n hn
    have val : ∀ i, (BitVec.ofNat 8 (σ (Fin.ofNat 128 i)).val).toNat = (σ (Fin.ofNat 128 i)).val := by
      intro i
      have := (σ (Fin.ofNat 128 i)).isLt
      simp only [BitVec.toNat_ofNat]
      omega
    refine ⟨by simp [firstOfOrder], ?_, ?_⟩
    · simp only [firstOfOrder, List.forall_mem_map]
      intro i _
      rw [val]
      exact (σ (Fin.ofNat 128 i)).isLt
    · refine List.Nodup.map_on ?_ List.nodup_range
      intro i hi j hj hij
      rw [List.mem_range] at hi hj
      have := congrArg BitVec.toNat hij
      rw [val, val] at this
      have := congrArg Fin.val (σ.injective (Fin.ext this))
      simp only [Fin.ofNat] at this
      omega
  cases w with
  | w4 => decide
  | w5 => exact order _ 32 (by decide)
  | w6 => exact order _ 64 (by decide)

end Sys2Proof.Machine
end

