-- ==== Sys2Proof/Laws/Assembler.lean ====
section
/-! SUPPORT. Placing a program keeps memory in canonical form (30_encoding.md R93). -/

namespace Sys2Proof.Machine

theorem wf_loadMemory {h : HostState} {source : List SrcLine} {m m' : Memory} (hm : m.wf = true)
    (hl : loadMemory h m source = some m') : m'.wf = true := by
  induction source generalizing m with
  | nil =>
    cases hl
    exact hm
  | cons l rest ih =>
    cases l with
    | memory a bytes =>
      simp only [loadMemory] at hl
      split at hl
      · exact ih (Memory.wf_writeBytes hm _ _ (by simpa using ‹_›)) hl
      · cases hl
    | label l => exact ih hm hl
    | line l => exact ih hm hl
    | wait => exact ih hm hl
    | run i => exact ih hm hl
    | regPair r q a n => exact ih hm hl

/-- A program changes the host and memory alone, and keeps memory canonical. -/
theorem loadSource_eq_some {s t : State} {source : List SrcLine} (hm : s.mem.wf = true)
    (hl : s.loadSource source = some t) :
    ∃ lines m, assemble source = some lines ∧ m.wf = true ∧ t = { s with mem := m, host := startHost lines } := by
  unfold State.loadSource at hl
  cases ha : assemble source with
  | none => simp [ha] at hl
  | some lines =>
    simp only [ha, Option.bind_some, Option.map_eq_some_iff] at hl
    obtain ⟨m, hlm, rfl⟩ := hl
    exact ⟨lines, m, rfl, wf_loadMemory hm hlm, rfl⟩

end Sys2Proof.Machine
end

