-- ==== Sys2Proof/Laws/Hazards.lean ====
section
/-! SUPPORT. What the ranges in flight are and when two commands conflict, in the terms claims use (70_reset_and_hazards.md
R240, R241). -/

namespace Sys2Proof.Machine

/-- A descriptor of the table is one of the COL_LEN and lies below 2^32 (R82). -/
theorem State.lt_descriptorCount_iff {s : State} {j : Nat} :
    j < s.descriptorCount ↔ j < s.colLen.toNat ∧ s.colAddr.toNat + 8 * (j + 1) ≤ 2 ^ 32 := by
  have := s.colAddr.isLt
  simp only [State.descriptorCount, Config.addressSpace]
  omega

/-- The bytes of the element ranges: those of a descriptor of the table that is no absent slot (R83, R240). -/
theorem State.elementRanges_contains_iff {s : State} {a : Nat} :
    (∃ r ∈ s.elementRanges, r.contains a = true) ↔
      ∃ j, j < s.colLen.toNat ∧ s.colAddr.toNat + 8 * (j + 1) ≤ 2 ^ 32 ∧ (s.descriptor j).len ≠ 0xFFFFFFFF ∧
        (s.descriptor j).range.contains a = true := by
  simp only [State.elementRanges, List.mem_filterMap, List.mem_range, State.lt_descriptorCount_iff]
  constructor
  · rintro ⟨r, ⟨j, hj, hr⟩, hc⟩
    split at hr
    · cases hr
    · rename_i hl
      cases hr
      exact ⟨j, hj.1, hj.2, hl, hc⟩
  · rintro ⟨j, hj, hb, hl, hc⟩
    exact ⟨_, ⟨j, ⟨hj, hb⟩, if_neg hl⟩, hc⟩

/-- The bytes a footprint reads, of the ranges a command reads (R240). -/
theorem commandFootprint_readsAt_iff {s : State} {i : Instr} {a : Nat} (hi : i.wellFormed = true) :
    (s.commandFootprint i).readsAt a ↔ readsByte s i a := by
  have search :
      (∃ r ∈ s.keyRange :: s.tableRange :: s.elementRanges, r.contains a = true) ↔ readsByte.searchReads s a := by
    simp only [List.mem_cons, or_and_right, exists_or, exists_eq_left, readsByte.searchReads,
      State.elementRanges_contains_iff]
  cases i with
  | config wsel strict preserve dflt =>
    obtain ⟨w, hw, hs⟩ : ∃ w, Width.ofSel wsel = some w ∧ w.size = 2 ^ (4 + wsel.toNat) := by
      revert hi
      revert wsel
      decide +revert
    cases dflt <;>
      simp [State.commandFootprint, Footprint.readsAt, readsByte, hw, State.listRange, hs]
  | pack => simp [State.commandFootprint, Footprint.readsAt, readsByte]
  | unpack => simp [State.commandFootprint, Footprint.readsAt, readsByte]
  | search nulltol => exact search
  | psearch nulltol => exact search
  | cmp => simp [State.commandFootprint, Footprint.readsAt, readsByte]
  | pcmp => simp [State.commandFootprint, Footprint.readsAt, readsByte]

/-- The bytes a footprint writes, of the ranges a command writes (R240). -/
theorem commandFootprint_writesAt_iff {s : State} {i : Instr} {a : Nat} :
    (s.commandFootprint i).writesAt a ↔ writesByte s i a := by
  cases i with
  | pack => cases hp : s.cfg.preserve <;> simp [State.commandFootprint, Footprint.writesAt, writesByte, hp]
  | _ => simp [State.commandFootprint, Footprint.writesAt, writesByte]

/-- A byte of a footprint is a byte it reads or writes. -/
theorem Footprint.touches_iff {p : Footprint} {a : Nat} : p.touches a = true ↔ p.readsAt a ∨ p.writesAt a := by
  simp only [Footprint.touches, List.any_append, Bool.or_eq_true, List.any_eq_true, Footprint.readsAt, Footprint.writesAt]

/-- Two footprints conflict where one writes a byte that the other uses (R241). -/
theorem Footprint.conflicts_iff {p q : Footprint} :
    p.conflicts q = true ↔ ∃ a, Conflict (p.readsAt a) (p.writesAt a) (q.readsAt a) (q.writesAt a) := by
  simp only [Footprint.conflicts, Bool.or_eq_true, List.any_eq_true, List.mem_append, Range.intersects_iff, Conflict,
    Footprint.readsAt, Footprint.writesAt]
  constructor
  · rintro (⟨r, hr, x, hx, a, h1, h2⟩ | ⟨r, hr, x, hx, a, h1, h2⟩)
    · exact ⟨a, .inl ⟨⟨r, hr, h1⟩, hx.imp (⟨x, ·, h2⟩) (⟨x, ·, h2⟩)⟩⟩
    · exact ⟨a, .inr ⟨⟨r, hr, h1⟩, hx.imp (⟨x, ·, h2⟩) (⟨x, ·, h2⟩)⟩⟩
  · rintro ⟨a, ⟨⟨r, hr, h1⟩, (⟨x, hx, h2⟩ | ⟨x, hx, h2⟩)⟩ | ⟨⟨r, hr, h1⟩, (⟨x, hx, h2⟩ | ⟨x, hx, h2⟩)⟩⟩
    · exact .inl ⟨r, hr, x, .inl hx, a, h1, h2⟩
    · exact .inl ⟨r, hr, x, .inr hx, a, h1, h2⟩
    · exact .inr ⟨r, hr, x, .inl hx, a, h1, h2⟩
    · exact .inr ⟨r, hr, x, .inr hx, a, h1, h2⟩

end Sys2Proof.Machine
end

