-- ==== Sys2Proof/Laws/PerInstr.lean ====
section
/-! SUPPORT. Statements about every instruction as syntax, one lemma per constructor. -/

namespace Sys2Proof.Laws

/-- The decoder reads a well-formed command back from its word (30_encoding.md R84 to R89). -/
def DecodeEncode.Statement (i : Instr) : Prop := i.wellFormed = true → decode (encode i) = .ok i

theorem DecodeEncode.config (wsel : BitVec 2) (strict preserve dflt : Bool) :
    DecodeEncode.Statement (.config wsel strict preserve dflt) := by
  revert wsel strict preserve dflt
  unfold DecodeEncode.Statement
  decide

theorem DecodeEncode.pack : DecodeEncode.Statement .pack := fun _ => rfl

theorem DecodeEncode.unpack : DecodeEncode.Statement .unpack := fun _ => rfl

theorem DecodeEncode.search (nulltol : Bool) : DecodeEncode.Statement (.search nulltol) := by
  cases nulltol <;> exact fun _ => rfl

theorem DecodeEncode.psearch (nulltol : Bool) : DecodeEncode.Statement (.psearch nulltol) := by
  cases nulltol <;> exact fun _ => rfl

theorem DecodeEncode.cmp : DecodeEncode.Statement .cmp := fun _ => rfl

theorem DecodeEncode.pcmp : DecodeEncode.Statement .pcmp := fun _ => rfl

end Sys2Proof.Laws
end

