-- ==== Sys2Proof/Tests/Slice0.lean ====
section
/-! SUPPORT. Tests. Expected values come from the spec's encodings (30_encoding.md R84 to R93) and its vectors
(95_test_vectors.md), named at each test; a `witness_` theorem shows a state that meets the hypotheses of a statement. -/

open Sys2Proof Sys2Proof.Machine

namespace Sys2Proof.Tests

set_option maxRecDepth 4000

/-! ### Well-formedness: WSEL is the one check (R87) -/

theorem test_wsel_three_is_ill_formed : (Instr.config 3#2 true false true).wellFormed = false := by decide

theorem test_other_selections_are_well_formed :
    (Instr.config 0#2 true false true).wellFormed = true ∧ (Instr.config 2#2 false true false).wellFormed = true ∧
      Instr.pcmp.wellFormed = true := by decide

/-! ### Words written out from R84 to R89: bits 31:16, OPT, bits 7:4, OP -/

theorem test_decode_config :
    decode 0b0000000000000000_00001010_0000_0001#32 = .ok (.config 2#2 false true false) ∧
      decode 0b0000000000000000_00010101_0000_0001#32 = .ok (.config 1#2 true false true) := by decide

theorem test_decode_pack : decode 0b0000000000000000_00000000_0000_0010#32 = .ok .pack := by decide

theorem test_decode_unpack : decode 0b0000000000000000_00000000_0000_0011#32 = .ok .unpack := by decide

theorem test_decode_search :
    decode 0b0000000000000000_00000001_0000_0100#32 = .ok (.search true) ∧
      decode 0b0000000000000000_00000000_0000_0100#32 = .ok (.search false) := by decide

theorem test_decode_psearch :
    decode 0b0000000000000000_00000001_0000_0101#32 = .ok (.psearch true) ∧
      decode 0b0000000000000000_00000000_0000_0101#32 = .ok (.psearch false) := by decide

theorem test_decode_cmp : decode 0b0000000000000000_00000000_0000_0110#32 = .ok .cmp := by decide

theorem test_decode_pcmp : decode 0b0000000000000000_00000000_0000_0111#32 = .ok .pcmp := by decide

/-- X2 to X10, CF6 and CF7 of 95_test_vectors.md. -/
theorem test_illegal_words :
    decode 0x00000000#32 = .error .illegalOp ∧ decode 0x00000008#32 = .error .illegalOp ∧
      decode 0x0000000F#32 = .error .illegalOp ∧ decode 0x00000012#32 = .error .reservedLow ∧
      decode 0x00010002#32 = .error .reservedHigh ∧ decode 0x08000001#32 = .error .reservedHigh ∧
      decode 0x00000102#32 = .error .illegalOption ∧ decode 0x00000106#32 = .error .illegalOption ∧
      decode 0x00000204#32 = .error .illegalOption ∧ decode 0x00000301#32 = .error .illegalOption ∧
      decode 0x00002001#32 = .error .illegalOption := by decide

theorem test_decode_table_word :
    decodeTableWord 32 0x104 = some (.search true) ∧ decodeTableWord 32 0x10002 = none := by decide

/-! ### Small states -/

/-- The state a step answers. -/
def nextOf (o : Host.Outcome State Fault Refusal) : Option State :=
  match o with
  | .next s => some s
  | .fault _ => none
  | .refused _ => none

/-- The model fault a step answers. -/
def faultOf (o : Host.Outcome State Fault Refusal) : Option Fault :=
  match o with
  | .next _ => none
  | .fault f => some f
  | .refused _ => none

/-- STATUS, RESULT, ERR_VAL and ERR_POS after a command. -/
def ending (o : Host.Outcome State Fault Refusal) : Option (Word × Word × Word × Word) :=
  (nextOf o).map fun s => (s.status.word, s.result, s.errVal, s.errPos)

/-- Bytes of memory after a command. -/
def bytesAt (o : Host.Outcome State Fault Refusal) (a n : Nat) : Option (List Byte) :=
  (nextOf o).map fun s => s.mem.readBytes a n

/-- Configured as CONFIG of the W = 4 default list leaves it (R102). -/
def four (strict preserve : Bool) : State := State.reset.commitConfig .w4 strict preserve Config.defaultSymbols4

/-- The 2^W bytes from `first` on; T5 and T6 of 95_test_vectors.md. -/
def rising (first n : Nat) : List Byte := (List.range n).map fun i => BitVec.ofNat 8 (first + i)

/-- Configured with T5. -/
def five : State := State.reset.commitConfig .w5 false true (rising 0x40 32)

/-- Configured with T6. -/
def six : State := State.reset.commitConfig .w6 false true (rising 0x20 64)

/-- A source and a destination with its capacity. -/
def withBuffers (s : State) (src len dst cap : Word) (m : Memory) : State :=
  { s with srcAddr := src, srcLen := len, dstAddr := dst, dstCap := cap, mem := m }

/-- A candidate at 0x5000 and a key at 0x6000. -/
def withCandidate (s : State) (len klen : Word) (m : Memory) : State :=
  { s with srcAddr := 0x5000#32, srcLen := len, keyAddr := 0x6000#32, keyLen := klen, mem := m }

/-- A collection whose table is at 0x8000 and a key at 0x6000. -/
def withCollection (s : State) (n klen : Word) (m : Memory) : State :=
  { s with colAddr := 0x8000#32, colLen := n, keyAddr := 0x6000#32, keyLen := klen, mem := m }

/-- A command in flight. -/
def busyWith (s : State) (word : Word) (turns : List Turn) : State := { s.issueWord word with turns := turns }

/-! ### One step of each command -/

/-- CF11. -/
theorem test_config_default :
    (nextOf (step (State.reset.withFetchWord 32 0x1C01))).map
      (fun s => (s.status.word, s.result, s.cfgWord, s.symtabWord 11, s.symtabWord 16)) =
        some (0xA#32, 16#32, 0xC#32, 0x23#32, 0#32) := by decide

/-- CF5: the range check runs over the whole list before the duplicate check. Byte 0 and byte 1 are equal, byte 15 is 0xFF;
the configuration before is lost (R109). -/
theorem test_config_range_before_duplicate :
    (nextOf (exec (.config 0#2 false false false)
      (withBuffers (four false true) 0x1000#32 16#32 0#32 0#32 [(0x100F, 0xFF#8)]))).map
        (fun s => (s.status.word, s.errVal, s.errPos, s.cfgWord)) = some (0x236#32, 0xFF#32, 15#32, 0#32) := by decide

/-- PK27: in place, odd length; the source holds the codes afterwards. -/
theorem test_pack_in_place :
    bytesAt (exec .pack (withBuffers (four false false) 0x2000#32 3#32 0x3000#32 64#32
      [(0x2000, 0x30#8), (0x2001, 0x31#8), (0x2002, 0x32#8)])) 0x3000 3 = some [0x01#8, 0x02#8, 0x01#8] ∧
    bytesAt (exec .pack (withBuffers (four false false) 0x2000#32 3#32 0x3000#32 64#32
      [(0x2000, 0x30#8), (0x2001, 0x31#8), (0x2002, 0x32#8)])) 0x2000 3 = some [0x00#8, 0x01#8, 0x02#8] := by decide

/-- F7: "ABCDEFG" at W = 5, and S3: "ABC" at W = 6. -/
theorem test_pack_five_and_six :
    bytesAt (exec .pack (withBuffers five 0x2000#32 7#32 0x3000#32 64#32
      [(0x2000, 0x41#8), (0x2001, 0x42#8), (0x2002, 0x43#8), (0x2003, 0x44#8), (0x2004, 0x45#8), (0x2005, 0x46#8),
       (0x2006, 0x47#8)])) 0x3000 7 = some [0x08#8, 0x86#8, 0x42#8, 0x98#8, 0xE0#8, 0x01#8, 0x00#8] ∧
    bytesAt (exec .pack (withBuffers six 0x2000#32 3#32 0x3000#32 64#32
      [(0x2000, 0x41#8), (0x2001, 0x42#8), (0x2002, 0x43#8)])) 0x3000 4 = some [0x86#8, 0x28#8, 0xC0#8, 0x01#8] := by
  decide

/-- UP8, and UP13: the unpaired byte is 16. -/
theorem test_unpack_four :
    bytesAt (exec .unpack (withBuffers (four false true) 0x3000#32 3#32 0x4000#32 64#32
      [(0x3000, 0xFF#8), (0x3001, 0x0F#8), (0x3002, 0x01#8)])) 0x4000 4 = some [0x2C#8, 0x2C#8, 0x2C#8, 0x00#8] ∧
    ending (exec .unpack (withBuffers (four false true) 0x3000#32 3#32 0x4000#32 64#32
      [(0x3000, 0x01#8), (0x3001, 0x10#8), (0x3002, 0x01#8)])) = some (0x36E#32, 0#32, 0#32, 0#32) := by decide

/-- F22: "AB@", and F24: eight symbols need five bytes. -/
theorem test_unpack_five :
    bytesAt (exec .unpack (withBuffers five 0x3000#32 3#32 0x4000#32 64#32 [(0x3000, 0x08#8), (0x3001, 0x80#8)]))
      0x4000 3 = some [0x41#8, 0x42#8, 0x40#8] ∧
    ending (exec .unpack (withBuffers five 0x3000#32 7#32 0x4000#32 64#32 [(0x3006, 0x01#8)])) =
      some (0x16E#32, 0#32, 0#32, 0#32) := by decide

/-- CM9: byte order, not code order; CM11: a key byte is unsigned. -/
theorem test_cmp_orders :
    ending (exec .cmp (withCandidate (four false true) 2#32 1#32 [(0x5000, 0x0B#8), (0x5001, 0x01#8), (0x6000, 0x30#8)])) =
      some (0xA#32, 0xFFFFFFFF#32, 0#32, 0#32) ∧
    ending (exec .cmp (withCandidate (four false true) 2#32 1#32 [(0x5001, 0x01#8), (0x6000, 0x80#8)])) =
      some (0xA#32, 0xFFFFFFFF#32, 0#32, 0#32) := by decide

/-- CM1 and CM5. -/
theorem test_pcmp :
    ending (exec .pcmp (withCandidate (four false true) 2#32 1#32 [(0x5000, 0x01#8), (0x6000, 0x30#8)])) =
      some (0xA#32, 0#32, 0#32, 0#32) ∧
    ending (exec .pcmp (withCandidate (four false true) 2#32 2#32 [(0x5000, 0x01#8), (0x6000, 0x30#8), (0x6001, 0x30#8)])) =
      some (0xA#32, 1#32, 0#32, 0#32) := by decide

/-- The collection ["01", "02", absent, absent] with the one-byte key at 0x6000 and what follows it there. -/
def nullTable (key : Memory) : Memory :=
  key ++ [(0x7000, 0x01#8), (0x7040, 0x02#8), (0x8001, 0x70#8), (0x8004, 0x02#8), (0x8008, 0x40#8), (0x8009, 0x70#8),
    (0x800C, 0x02#8), (0x8014, 0xFF#8), (0x8015, 0xFF#8), (0x8016, 0xFF#8), (0x8017, 0xFF#8), (0x801C, 0xFF#8),
    (0x801D, 0xFF#8), (0x801E, 0xFF#8), (0x801F, 0xFF#8)]

/-- NT2: an absent slot counts as greater than every key, or faults. -/
theorem test_search_absent :
    ending (exec (.search true) (withCollection (four false true) 4#32 2#32
      (nullTable [(0x6000, 0x30#8), (0x6001, 0x33#8)]))) = some (0xA#32, 0xFFFFFFFD#32, 0#32, 0#32) ∧
    ending (exec (.search false) (withCollection (four false true) 4#32 2#32
      (nullTable [(0x6000, 0x30#8), (0x6001, 0x33#8)]))) = some (0x9E#32, 0#32, 0#32, 2#32) := by decide

/-- NT3, and NT7's fault at W = 5. -/
theorem test_search_edges :
    ending (exec (.search true) (withCollection (four false true) 4#32 2#32
      (nullTable [(0x6000, 0x30#8), (0x6001, 0x30#8)]))) = some (0xA#32, 0xFFFFFFFF#32, 0#32, 0#32) ∧
    ending (exec (.search true) (withCollection five 2#32 1#32 [])) = some (0x21E#32, 0#32, 0#32, 0#32) := by decide

/-- NT2, and a prefix: "0" starts the element visited first. -/
theorem test_psearch :
    ending (exec (.psearch true) (withCollection (four false true) 4#32 2#32
      (nullTable [(0x6000, 0x30#8), (0x6001, 0x33#8)]))) = some (0xA#32, 0xFFFFFFFD#32, 0#32, 0#32) ∧
    ending (exec (.psearch false) (withCollection (four false true) 4#32 1#32 (nullTable [(0x6000, 0x30#8)]))) =
      some (0xA#32, 1#32, 0#32, 0#32) := by decide

/-- X1, X5 and X11. -/
theorem test_steps_without_a_configuration :
    ending (step (State.reset.withFetchWord 32 2)) = some (0x26#32, 0#32, 0#32, 0#32) ∧
    ending (step ((four false true).withFetchWord 32 0x12)) = some (0x11E#32, 0#32, 0#32, 0#32) ∧
    (nextOf (step (busyWith State.reset 0x1001#32 [.access (.regWrite 0x014#9 4 5#32)]))).map
      (fun s => (s.status.word, s.srcLen)) = some (1#32, 0#32) := by decide

/-- R93, R94: a text and the host lines it means; `WAIT` polls STATUS.DONE. -/
theorem test_assemble :
    ((State.reset.loadText "SRC 0x10, 3\nRUN CMP".toList).map fun s => s.host.program) =
      some [.wr .srcAddr (.lit 0x10#32), .wr .srcLen (.lit 3#32), .issue .cmp, .rd .status 0,
        .ifGoto (.bit 0 (.lit 1#32)) .eq (.lit 0#32) 3] := by decide

/-- Log 16: in a string, a ';' is a character and 'é' (U+00E9) is its low eight bits; after it, ';' begins a comment (R93). -/
theorem test_strings :
    ((State.reset.loadText "MEM 4: \"a;é\" ; x".toList).map fun s => s.mem) =
      some [(4, 0x61#8), (5, 0x3B#8), (6, 0xE9#8)] := by decide

/-- R93: an expression may stand for the address and the bytes of a `MEM` line and for the index of `t[i]`. -/
theorem test_expressions_everywhere :
    ((State.reset.loadText "MEM 2 << 1: 1+2, 0x1FF\nSET a = k[i+1]".toList).map fun s => (s.mem, s.host.program)) =
      some ([(4, 3#8), (5, 0xFF#8)], [.set 97 (.bit 107 (.add (.temp 105) (.lit 1#32)))]) := by decide

/-- Log 16: a label that stands on two lines names the first; a `MEM` line that passes 2^32, a negative literal and a
label that begins with a digit or holds another character than a letter, a digit or `_` do not load. -/
theorem test_source_choices :
    ((State.reset.loadText "HALT\nx:\ngoto x\nx:\nHALT".toList).map fun s => s.host.program) =
      some [.halt, .goto 1, .halt] ∧
    (State.reset.loadText "MEM 0xFFFFFFFF: 1, 2".toList).isSome = false ∧
    (State.reset.loadText "SET t = -1".toList).isSome = false ∧
    (State.reset.loadText "1x: HALT".toList).isSome = false ∧ (State.reset.loadText "x.y: HALT".toList).isSome = false ∧
    (State.reset.loadText "_X1: HALT".toList).isSome = true := by decide

/-! ### Witnesses: states and operands that meet the hypotheses of the statements, at the ends of their ranges -/

/-- A host access is next. -/
def accessing (s : State) (a : Access) : State := { s with turns := [.access a] }

theorem busy_of_busyWith (s : State) (w : Word) (turns : List Turn) : (busyWith s w turns).status.busy = true := rfl

theorem illegal_word_does_not_decode (i : Instr) : decode 0x301#32 ≠ .ok i := by
  have h : decode 0x301#32 = .error .illegalOption := by decide
  simp [h]

theorem witness_ExactlyTheLegalWordsDecode :
    (busyWith State.reset 0x10002#32 [.engine]).status.busy = true ∧
      ¬legalWord (busyWith State.reset 0x10002#32 [.engine]).cmdLatch ∧
      (busyWith State.reset 0x10002#32 [.engine]).turns = .engine :: [] ∧
      legalWord 0x1E01#32 ∧ ¬legalWord 0x1F01#32 := by decide

theorem witness_DecodeAndEncodeAgree :
    (Instr.config 2#2 true true true).wellFormed = true ∧ encode (.config 2#2 true true true) = 0x1E01#32 := by decide

theorem witness_StepPerformsTheLatchedCommand :
    (busyWith State.reset 0x2#32 []).status.busy = true ∧ decode (busyWith State.reset 0x2#32 []).cmdLatch = .ok .pack ∧
      (busyWith State.reset 0x2#32 []).turns = [] ∧
      decode (busyWith State.reset 0x2#32 [.engine, .host]).cmdLatch = .ok .pack ∧
      (busyWith State.reset 0x2#32 [.engine, .host]).turns = .engine :: [.host] := by decide

theorem witness_EveryCommandEndsInOneEngineStep :
    (busyWith State.reset 0x301#32 [.engine]).status.busy = true ∧
      ∃ rest, (busyWith State.reset 0x301#32 [.engine]).turns = .engine :: rest := ⟨rfl, [], rfl⟩

/-- Another SPE packs from [0x100, 0x110) to [0x200, 0x210). -/
def farPeer : Footprint := { reads := [{ base := 0x100, len := 0x10 }], writes := [{ base := 0x200, len := 0x10 }] }

/-- A PACK of [0x2000, 0x2004) to [0x3000, 0x3008) while another SPE is busy elsewhere. -/
def besidePeer : State :=
  { withBuffers (four false true) 0x2000#32 4#32 0x3000#32 8#32 [] with peers := [farPeer] }

theorem witness_IssueLatchesTheCommand :
    (accessing besidePeer (.regWrite 0#9 4 2#32)).turns = .access (.regWrite 0x000#9 4 2#32) :: [] ∧
      (accessing besidePeer (.regWrite 0#9 4 2#32)).status.busy = false ∧
      ∀ p ∈ besidePeer.peers, (besidePeer.issueWord 2#32).inFlight.conflicts p = false := by decide

theorem witness_BusyDropsRegisterWrites :
    (busyWith State.reset 2#32 [.access (.regWrite 0x02C#9 4 7#32)]).status.busy = true ∧ (0x02C#9).toNat % 4 = 0 ∧
      (busyWith State.reset 2#32 [.access (.regWrite 0x02C#9 4 7#32)]).turns = [.access (.regWrite 0x02C#9 4 7#32)] ∧
      (busyWith State.reset 2#32 [.access (.regRead 0x004#9 4)]).turns = [.access (.regRead 0x004#9 4)] := by decide

theorem witness_RegisterAccessRules :
    ¬(2 = 4 ∧ (0x000#9).toNat % 4 = 0) ∧ ¬(4 = 4 ∧ (0x1FF#9).toNat % 4 = 0) ∧
      faultOf (step (accessing State.reset (.regRead 0x000#9 2))) = some .badAccess ∧
      faultOf (step (accessing State.reset (.regWrite 0x1FF#9 4 0#32))) = some .badAccess ∧
      (0x03C#9).toNat % 4 = 0 ∧ 0x3C ≤ (0x03C#9).toNat ∧ (0x0FC#9).toNat % 4 = 0 ∧ (0x0FC#9).toNat ≤ 0xFF ∧
      (accessing State.reset (.regRead 0x0FC#9 4)).turns = [.access (.regRead 0x0FC#9 4)] ∧
      0x3C ≤ (0x1FC#9).toNat ∧ (0x038#9).toNat ∈ [0x004, 0x008, 0x00C, 0x030, 0x034, 0x038] ∧
      (accessing State.reset (.regWrite 0x038#9 4 1#32)).turns = [.access (.regWrite 0x038#9 4 1#32)] := by decide

theorem witness_EachOffsetReadsItsField :
    (0x000#9, Reg.cmd, (busyWith six 2#32 []).cmd) ∈ [(0x000#9, Reg.cmd, 2#32), (0x038#9, .ident, 0x53504501#32)] ∧
      (0x038#9, Reg.ident, 0x53504501#32) ∈ [(0x000#9, Reg.cmd, 2#32), (0x038#9, .ident, 0x53504501#32)] := by decide

/-- The first and the last operand register. -/
theorem witness_OperandRegistersReadBack (t u : State) (ht : t = { State.reset with srcAddr := 5#32 })
    (hu : u = { State.reset with colLen := 5#32 }) :
    State.reset.status.busy = false ∧
      (0x010#9, Reg.srcAddr, t) ∈
        [(0x010#9, Reg.srcAddr, { State.reset with srcAddr := 5#32 }), (0x02C#9, .colLen, { State.reset with colLen := 5#32 })] ∧
      (0x02C#9, Reg.colLen, u) ∈
        [(0x010#9, Reg.srcAddr, { State.reset with srcAddr := 5#32 }), (0x02C#9, .colLen, { State.reset with colLen := 5#32 })] :=
  ⟨rfl, by simp [ht], by simp [hu]⟩

theorem witness_StatusAndCfgRegisterBits :
    State.reset.status.cfgOk = false ∧ six.status.cfgOk = true := by decide

/-- CF1's note: SYMTAB[15] shows the last symbol and SYMTAB[16] reads 0. -/
theorem witness_SymtabShowsTheAlphabet :
    (four false true).status.cfgOk = true ∧ 15 < 2 ^ (four false true).cfg.width.bits ∧
      (four false true).readBlock 0x13C#9 4 = some 0x2C#32 ∧ ¬16 < 2 ^ (four false true).cfg.width.bits ∧
      (four false true).readBlock 0x140#9 4 = some 0#32 ∧ 63 < 64 ∧ six.readBlock 0x1FC#9 4 = some 0x5F#32 := by decide

theorem witness_ResetRegisterValues :
    (0x1FC#9).toNat % 4 = 0 ∧ (busyWith six 2#32 [.reset]).turns = .reset :: [] := by decide

theorem witness_ResetClearsHiddenState : (busyWith six 2#32 [.reset]).turns = .reset :: [] := rfl

/-- The byte after the destination of a PACK in place, and a byte of a destination no command in flight writes. -/
theorem witness_ResetTouchesOnlyAbandonedRanges :
    (busyWith (withBuffers (four false false) 0x2000#32 4#32 0x3000#32 8#32 []) 2#32 [.reset]).turns = .reset :: [] ∧
      (withBuffers (four false false) 0x2000#32 4#32 0x3000#32 8#32 []).dstRange.contains 0x3008 = false ∧
      (withBuffers (four false false) 0x2000#32 4#32 0x3000#32 8#32 []).srcRange.contains 0x3008 = false ∧
      (withBuffers (four false false) 0x2000#32 4#32 0x3000#32 8#32 []).status.busy = false := by decide

/-- The W = 4 default list at `a`, its byte `i` replaced by `b`. -/
def listAt (a i : Nat) (b : Byte) : Memory := Memory.writeBytes [] a (Config.defaultSymbols4.set i b)

/-- A list that begins at 0x1000, with SRC_LEN as given. -/
def withList (len : Word) (m : Memory) : State := withBuffers State.reset 0x1000#32 len 0#32 0#32 m

theorem witness_ConfigLoadsTheAlphabet :
    (withList 16#32 (listAt 0x1000 15 0x7F#8)).srcLen.toNat = Width.w4.size ∧
      Admitted (withList 16#32 (listAt 0x1000 15 0x7F#8)).platform { base := 0x1000, len := Width.w4.size } ∧
      (∀ i, i < Width.w4.size → ((withList 16#32 (listAt 0x1000 15 0x7F#8)).mem.read (0x1000 + i)).toNat < 128) ∧
      ∀ i, i < Width.w4.size → ∀ j, j < i →
        (withList 16#32 (listAt 0x1000 15 0x7F#8)).mem.read (0x1000 + j) ≠
          (withList 16#32 (listAt 0x1000 15 0x7F#8)).mem.read (0x1000 + i) := by decide

/-- A platform that also denies the byte `a`. -/
def denying (a : Nat) : Platform := { base := Config.resetBase, denied := [{ base := a, len := 1 }] }

theorem witness_ConfigFaultsInOrder_size :
    (withList 15#32 []).srcLen.toNat ≠ Width.w4.size ∧ (withList 17#32 []).srcLen.toNat ≠ Width.w4.size := by decide

/-- The last byte of the list denied, and a list that passes 2^32 by one byte. -/
theorem witness_ConfigFaultsInOrder_bus :
    (withList 16#32 []).srcLen.toNat = Width.w4.size ∧
      RefusedAt (denying 0x100F) { base := 0x1000, len := Width.w4.size } 0x100F ∧
      RefusedAt State.reset.platform { base := 0xFFFFFFF1, len := Width.w4.size } 0xFFFFFFF1 := by decide

theorem witness_ConfigFaultsInOrder_range :
    128 ≤ ((withList 16#32 (listAt 0x1000 15 0x80#8)).mem.read (0x1000 + 15)).toNat ∧
      ∀ j, j < 15 → ((withList 16#32 (listAt 0x1000 15 0x80#8)).mem.read (0x1000 + j)).toNat < 128 := by decide

theorem witness_ConfigFaultsInOrder_duplicate :
    (∀ i, i < 16 → ((withList 16#32 (listAt 0x1000 15 0x30#8)).mem.read (0x1000 + i)).toNat < 128) ∧
      (∃ j, j < 15 ∧ (withList 16#32 (listAt 0x1000 15 0x30#8)).mem.read (0x1000 + j) =
        (withList 16#32 (listAt 0x1000 15 0x30#8)).mem.read (0x1000 + 15)) ∧
      ∀ k, k < 15 → ∀ j, j < k → (withList 16#32 (listAt 0x1000 15 0x30#8)).mem.read (0x1000 + j) ≠
        (withList 16#32 (listAt 0x1000 15 0x30#8)).mem.read (0x1000 + k) := by decide

theorem witness_FailedConfigLeavesNoConfiguration :
    (nextOf (exec (.config (Width.sel .w4) false false false) (withList 15#32 []))).map (fun t => t.status.err) =
      some true ∧
    (busyWith (four false true) 0x301#32 [.engine]).status.busy = true ∧ (busyWith (four false true) 0x301#32 [.engine]).turns = .engine :: [] ∧
      (busyWith (four false true) 0x301#32 [.engine]).cmdLatch.toNat % 16 = 1 ∧
      ∀ i, decode (busyWith (four false true) 0x301#32 [.engine]).cmdLatch ≠ .ok i :=
  ⟨by decide, rfl, rfl, by decide, illegal_word_does_not_decode⟩

/-- "012" at 0x2000, the destination's capacity exactly the packed size; in place and not; and the empty input. -/
theorem witness_PackWritesThePackedBuffer :
    (∀ preserve, PackReady (withBuffers (four true preserve) 0x2000#32 3#32 0x3000#32 3#32
      [(0x2000, 0x30#8), (0x2001, 0x31#8), (0x2002, 0x32#8)])) ∧
    Memory.wf [(0x2000, 0x30#8), (0x2001, 0x31#8), (0x2002, 0x32#8)] = true ∧
    PackReady (withBuffers (four true false) 0#32 0#32 0#32 0#32 []) := by decide

/-- The configured state of the fault witnesses, with a platform that denies one byte. -/
def deniedAt (a : Nat) (s : State) : State := { s with platform := denying a }

theorem witness_PackFaultsInOrder_ranges :
    2 ^ 31 - 1 < (withBuffers (four false true) 0#32 0x80000000#32 0#32 0#32 []).srcLen.toNat ∧
      ¬Separate (withBuffers (four false true) 0x2000#32 4#32 0x2003#32 1#32 []).srcRange
        (withBuffers (four false true) 0x2000#32 4#32 0x2003#32 1#32 []).dstRange ∧
      Separate (withBuffers (four false true) 0x2000#32 4#32 0x2004#32 1#32 []).srcRange
        (withBuffers (four false true) 0x2000#32 4#32 0x2004#32 1#32 []).dstRange ∧
      RefusedAt (denying 0x2003) (withBuffers (four false true) 0x2000#32 4#32 0x2004#32 1#32 []).srcRange 0x2003 ∧
      Admitted (denying 0x2004) (withBuffers (four false true) 0x2000#32 4#32 0x2004#32 1#32 []).srcRange ∧
      RefusedAt (denying 0x2004) (withBuffers (four false true) 0x2000#32 4#32 0x2004#32 1#32 []).dstRange 0x2004 := by
  decide

theorem witness_PackFaultsInOrder_data :
    (withBuffers (four true true) 0x2000#32 3#32 0x3000#32 2#32 []).dstCap.toNat < packedSize .w4 3 ∧
      packedSize .w4 3 ≤ (withBuffers (four true true) 0x2000#32 3#32 0x3000#32 3#32 []).dstCap.toNat ∧
      (four true true).encode (Memory.read [(0x2000, 0x30#8), (0x2001, 0x31#8), (0x2002, 0x80#8)] 0x2002) = none ∧
      ∀ j, j < 2 →
        (four true true).encode (Memory.read [(0x2000, 0x30#8), (0x2001, 0x31#8), (0x2002, 0x80#8)] (0x2000 + j)) ≠ none := by
  decide

/-- PK24 and PK11 at the ends of the ranges: byte 0x80 and byte 0x7F. -/
theorem witness_EncodePolicies :
    (four true true).cfg.strict = true ∧ 128 ≤ (0x80#8).toNat ∧ (0x7F#8).toNat < 128 ∧
      (four false true).cfg.strict = false ∧ (0xB1#8 &&& 0x7F#8).toNat < 128 ∧
      (four false true).encode 0xB1#8 = some 1#6 ∧ (four true true).encode 0xB1#8 = none := by decide

theorem witness_UnpackWritesTheSymbols :
    UnpackReady (withBuffers (four false true) 0x3000#32 3#32 0x4000#32 3#32
      [(0x3000, 0xFF#8), (0x3001, 0x0F#8), (0x3002, 0x01#8)]) ∧
    Memory.wf [(0x3000, 0xFF#8), (0x3001, 0x0F#8), (0x3002, 0x01#8)] = true ∧
    UnpackReady (withBuffers five 0#32 0#32 0#32 0#32 []) := by decide

theorem witness_UnpackFaultsInOrder_buffers :
    (withBuffers (four false true) 0x3000#32 1#32 0x4000#32 0#32 []).srcLen.toNat = 1 ∧
      2 ≤ (Memory.read [(0x3001, 0x02#8)] (0x3000 + 2 - 1)).toNat ∧
      Memory.read [(0x3000, 0x10#8), (0x3001, 0x01#8)] (0x3000 + 2 - 1) = 0x01#8 ∧
      16 ≤ (Memory.read [(0x3000, 0x10#8), (0x3001, 0x01#8)] (0x3000 + 2 - 2)).toNat ∧
      malformedSub .w5 [0x08#8, 0x01#8] = some 1#8 ∧ malformedSub .w6 [0x86#8, 0x21#8, 0x00#8] = some 3#8 ∧
      malformedSub .w4 [0x01#8, 0x00#8] = none ∧ decodedLength .w4 [0x01#8, 0x00#8] ≤ 2 ^ 31 - 1 ∧
      (1#32).toNat < decodedLength .w4 [0x01#8, 0x00#8] := by decide

/-- F19 and F24: the flag byte 1 where no length needs it (L = 0, and L = 8 of six bytes); F20 and S14: a padding bit. -/
theorem witness_UnpackFaultsInOrder_codes :
    (Memory.read [(0x3000, 0x08#8), (0x3001, 0x01#8)] (0x3000 + 2 - 1)).toNat = 1 ∧ 1 * 8 / 5 - 1 = 0 ∧
      6 * 8 / 5 - 1 = 8 ∧ (8 * 5 + 7) / 8 ≠ 6 ∧
      2 * 8 / 5 - 1 = 2 ∧ (2 * 5 + 7) / 8 = 2 ∧ 0 < 2 * 5 % 8 ∧
      (Memory.read [(0x3000, 0x08#8), (0x3001, 0x81#8), (0x3002, 0x01#8)] (0x3000 + 3 - 2)).toNat % 2 ^ (8 - 2 * 5 % 8) ≠ 0 ∧
      2 * 8 / 6 - 0 = 2 ∧ (2 * 6 + 7) / 8 = 2 ∧ 0x21 % 2 ^ (8 - 2 * 6 % 8) ≠ 0 := by decide

/-- UP10, UP12, UP13, UP8, F19, F20 and F8's buffer, whose stream ends at a byte. -/
theorem witness_WellFormednessChecksInOrder :
    [0x05#8].length = 1 ∧ 2 ≤ ([0x01#8, 0x02#8].getD 1 0#8).toNat ∧
      ([0x01#8, 0x10#8, 0x01#8].getD 2 0#8).toNat = 1 ∧ 16 ≤ ([0x01#8, 0x10#8, 0x01#8].getD 1 0#8).toNat ∧
      ([0xFF#8, 0x0F#8, 0x01#8].getD 1 0#8).toNat < 16 ∧ 1 * 8 / Width.w5.bits - 1 = 0 ∧
      1 ≤ 2 * 8 / Width.w5.bits - 1 ∧ ([0x08#8, 0x81#8, 0x01#8].getD 1 0#8).toNat % 2 ^ (8 - 2 * Width.w5.bits % 8) ≠ 0 ∧
      (5 * 8 / Width.w5.bits - 0) * Width.w5.bits % 8 = 0 ∧ (8 * Width.w5.bits + 7) / 8 = 5 := by decide

theorem readBytes_of_nothing (a n : Nat) : Memory.readBytes [] a n = List.replicate n 0x00#8 := by
  induction n generalizing a with
  | zero => rfl
  | succ n ih => simp [Memory.readBytes, ih, List.replicate_succ, Memory.read, tableRead, Config.unwrittenByte]

theorem zero_buffer_at_four_bits (n : Nat) (h : 2 ≤ n) :
    malformedSub .w4 (Memory.readBytes [] 0x80000000 n) = none ∧
      decodedLength .w4 (Memory.readBytes [] 0x80000000 n) = 2 * (n - 1) := by
  obtain ⟨m, rfl⟩ : ∃ m, n = m + 2 := ⟨n - 2, by omega⟩
  simp [readBytes_of_nothing, malformedSub, malformed4, decodedLength, decodedLength4, flagLegal, flagOf, List.getLast?_replicate]

/-- A buffer of 2^30 + 1 zero bytes decodes to 2^31 symbols, one more than MAX_LEN (R200's LENGTH_ERROR of a decoded
length). -/
theorem witness_UnpackFaultsInOrder_decoded_length (n : Nat) (hn : n = 2 ^ 30 + 1) :
    malformedSub .w4 (Memory.readBytes [] 0x80000000 n) = none ∧
      2 ^ 31 - 1 < decodedLength .w4 (Memory.readBytes [] 0x80000000 n) ∧
      Admitted State.reset.platform { base := 0x80000000, len := n } ∧ n ≤ 2 ^ 31 - 1 := by
  obtain ⟨h1, h2⟩ := zero_buffer_at_four_bits n (by omega)
  refine ⟨h1, by omega, Or.inr ⟨?_, fun k _ => ?_⟩, by omega⟩
  · show 0x80000000 + n ≤ 2 ^ 32
    omega
  · have hb : State.reset.platform = { base := 0x40000000#32, denied := [] } := rfl
    simp [hb, Platform.admits, Platform.block, Range.contains, Config.blockSize]
    omega

theorem witness_PackedBufferSizes :
    ([] : List Nat).length = 0 ∧ [0] ≠ [] ∧ (packBytes .w5 [1, 2, 3, 4, 5, 6, 7, 8]).length = 6 := by decide

/-- A pair, an unpaired code and a code of 15 at each place. -/
theorem witness_PackedLayoutAtFourBits :
    [15] ≠ ([] : List Nat) ∧ (∀ x ∈ [15], x < 16) ∧ [15].length % 2 = 1 ∧
      (∀ x ∈ [0, 15], x < 16) ∧ 0 < [0, 15].length / 2 ∧ [0, 15].length % 2 = 0 := by decide

/-- One code at W = 5 leaves three bits of its byte after the stream; at W = 6, two. -/
theorem witness_PackedLayoutAtFiveAndSixBits :
    Width.w5 ≠ .w4 ∧ (∀ x ∈ [31], x < 2 ^ Width.w5.bits) ∧ 4 < [31].length * Width.w5.bits ∧
      [31].length * Width.w5.bits ≤ 5 ∧ 7 < 8 * (([31].length * Width.w5.bits + 7) / 8) ∧
      Width.w6 ≠ .w4 ∧ ∀ x ∈ [63], x < 2 ^ Width.w6.bits := by decide

theorem witness_CodesOfAPackedBuffer :
    (∀ x ∈ [15, 0, 15], x < 2 ^ Width.w4.bits) ∧ (∀ x ∈ [31, 0], x < 2 ^ Width.w5.bits) ∧
      ∀ x ∈ [63, 0, 63], x < 2 ^ Width.w6.bits := by decide

theorem four_configured (strict preserve : Bool) (s : State)
    (h : (s.cfg, s.sym, s.codeOf) =
      ((four strict preserve).cfg, (four strict preserve).sym, (four strict preserve).codeOf)) : s.Configured := by
  have hd := defaultSymbols_valid .w4
  have hc : (four strict preserve).Configured := commitConfig_configured State.reset .w4 strict preserve hd.1 hd.2.1 hd.2.2
  simp only [Prod.mk.injEq] at h
  obtain ⟨h1, h2, h3⟩ := h
  constructor <;> simp only [State.width, State.code, h1, h2, h3]
  · exact hc.code_symbol
  · exact hc.code_unmapped
  · exact hc.unused

/-- "012" at 0x2000 packed in place to 0x3000 and unpacked to 0x4000. -/
theorem witness_UnpackOfPackRestoresTheInput :
    (withBuffers (four false false) 0x2000#32 3#32 0x3000#32 3#32
      [(0x2000, 0x30#8), (0x2001, 0x31#8), (0x2002, 0x32#8)]).Configured ∧
    PackReady (withBuffers (four false false) 0x2000#32 3#32 0x3000#32 3#32
      [(0x2000, 0x30#8), (0x2001, 0x31#8), (0x2002, 0x32#8)]) ∧
    (∀ k, k < 3 → ∃ (i : Nat) (h : i < 64), i < 16 ∧ (four false false).sym[i].setWidth 8 =
      Memory.read [(0x2000, 0x30#8), (0x2001, 0x31#8), (0x2002, 0x32#8)] (0x2000 + k)) ∧
    (nextOf (exec .pack (withBuffers (four false false) 0x2000#32 3#32 0x3000#32 3#32
      [(0x2000, 0x30#8), (0x2001, 0x31#8), (0x2002, 0x32#8)]))).map (fun t => t.result) = some 3#32 ∧
    Separate { base := 0x3000, len := 3 } { base := 0x4000, len := 3 } ∧
    Admitted State.reset.platform { base := 0x4000, len := 3 } := by
  refine ⟨four_configured false false _ rfl, by decide, ?_, by decide, by decide, by decide⟩
  intro k hk
  have h0 : ∃ h : 0 < 64, (four false false).sym[0].setWidth 8 = 0x30#8 := ⟨by decide, by decide⟩
  obtain rfl | rfl | rfl : k = 0 ∨ k = 1 ∨ k = 2 := by omega
  · exact ⟨0, by decide, by decide, by decide⟩
  · exact ⟨1, by decide, by decide, by decide⟩
  · exact ⟨2, by decide, by decide, by decide⟩

theorem witness_ComparisonsAnswerTheOrder :
    CompareReady (withCandidate (four false true) 2#32 1#32 [(0x5000, 0x01#8), (0x6000, 0x30#8)]) ∧
      CompareReady (withCandidate five 0#32 0#32 []) := by decide

theorem witness_ComparisonFaultsInOrder :
    (four false true).status.cfgOk = true ∧ 2 ^ 31 - 1 < (0x80000000#32).toNat ∧ (0x7FFFFFFF#32).toNat ≤ 2 ^ 31 - 1 ∧
      RefusedAt (denying 0x5001) (withCandidate (four false true) 2#32 1#32 []).srcRange 0x5001 ∧
      Admitted (denying 0x6000) (withCandidate (four false true) 2#32 1#32 []).srcRange ∧
      RefusedAt (denying 0x6000) (withCandidate (four false true) 2#32 1#32 []).keyRange 0x6000 ∧
      Admitted State.reset.platform (withCandidate (four false true) 2#32 1#32 []).keyRange ∧
      malformedSub .w4 (Memory.readBytes [(0x5001, 0x02#8)] 0x5000 2) = some 2#8 := by decide

/-- ["01", "02", absent, absent] with the key "01", null-tolerant. -/
def nullCollection : State :=
  withCollection (four false true) 4#32 2#32 (nullTable [(0x6000, 0x30#8), (0x6001, 0x31#8)])

theorem witness_SearchReady : SearchReady nullCollection true ∧ ElementsReady nullCollection true := by decide

/-- The key is element 0, and a prefix of it. -/
theorem witness_SearchAgreesWithAReferenceSearch :
    SearchReady nullCollection true ∧ ElementsReady nullCollection true ∧ SortedCollection nullCollection ∧
      (∃ i, i < nullCollection.colLen.toNat ∧ nullCollection.element i = some nullCollection.key) ∧
      SortedCollection (withCollection (four false true) 1#32 1#32 [(0x6000, 0x31#8)]) ∧
      ∀ i, i < (1#32).toNat → (withCollection (four false true) 1#32 1#32 [(0x6000, 0x31#8)]).element i ≠
        some (withCollection (four false true) 1#32 1#32 [(0x6000, 0x31#8)]).key := by decide

theorem witness_PrefixSearchFindsAPrefixedElement :
    (∃ i x, i < nullCollection.colLen.toNat ∧ nullCollection.element i = some x ∧ nullCollection.key <+: x) ∧
      ∀ i x, i < (1#32).toNat → (withCollection (four false true) 1#32 1#32 [(0x6000, 0x31#8)]).element i = some x →
        ¬(withCollection (four false true) 1#32 1#32 [(0x6000, 0x31#8)]).key <+: x := by
  refine ⟨⟨0, [0x30#8, 0x31#8], by decide, by decide, by decide⟩, fun i x hi h => ?_⟩
  obtain rfl : i = 0 := by
    have : (1#32).toNat = 1 := rfl
    omega
  have he : (withCollection (four false true) 1#32 1#32 [(0x6000, 0x31#8)]).element 0 = some [] := by decide
  rw [he] at h
  cases h
  decide

theorem witness_EmptyCollectionGivesMinusOne :
    SearchReady (withCollection five 0#32 0#32 []) false ∧ (withCollection five 0#32 0#32 []).colLen = 0#32 := by decide

theorem witness_SearchFaultsInOrder_ranges :
    five.status.cfgOk = true ∧ five.width ≠ .w4 ∧ (four false true).width = .w4 ∧
      2 ^ 31 - 1 < (0x80000000#32).toNat ∧ (0x7FFFFFFF#32).toNat ≤ 2 ^ 31 - 1 ∧
      RefusedAt (denying 0x6000) nullCollection.keyRange 0x6000 ∧ Admitted (denying 0x801F) nullCollection.keyRange ∧
      RefusedAt (denying 0x801F) nullCollection.tableRange 0x801F ∧
      Admitted State.reset.platform nullCollection.tableRange ∧ 0 < nullCollection.colLen.toNat := by decide

/-- One descriptor at 0x8000: absent; with LEN 0x80000000 and 0xFFFFFFFE; with a byte of the element denied; with a buffer
of one byte. -/
theorem witness_SearchFaultsInOrder_first_element :
    (descriptorAt [(0x8004, 0xFF#8), (0x8005, 0xFF#8), (0x8006, 0xFF#8), (0x8007, 0xFF#8)] 0x8000 0).len = 0xFFFFFFFF ∧
      2 ^ 31 - 1 < (descriptorAt [(0x8007, 0x80#8)] 0x8000 0).len ∧
      (descriptorAt [(0x8007, 0x80#8)] 0x8000 0).len < 0xFFFFFFFF ∧
      (descriptorAt [(0x8004, 0xFE#8), (0x8005, 0xFF#8), (0x8006, 0xFF#8), (0x8007, 0xFF#8)] 0x8000 0).len < 0xFFFFFFFF ∧
      (descriptorAt [(0x8001, 0x70#8), (0x8004, 0x01#8)] 0x8000 0).len ≤ 2 ^ 31 - 1 ∧
      RefusedAt (denying 0x7000) (descriptorAt [(0x8001, 0x70#8), (0x8004, 0x01#8)] 0x8000 0).range 0x7000 ∧
      Admitted State.reset.platform (descriptorAt [(0x8001, 0x70#8), (0x8004, 0x01#8)] 0x8000 0).range ∧
      malformedSub .w4 (Memory.readBytes [(0x8001, 0x70#8), (0x8004, 0x01#8)] 0x7000 1) = some 1#8 := by decide

/-- ["0", "1", LEN 0x80000000]: the search for "1" visits 1; the search for "2" comes to [2, 2] and faults there. -/
def faultyCollection (key : Byte) : State :=
  withCollection (four false true) 3#32 1#32
    [(0x6000, key), (0x7001, 0x01#8), (0x7040, 0x01#8), (0x7041, 0x01#8), (0x8001, 0x70#8), (0x8004, 0x02#8),
      (0x8008, 0x40#8), (0x8009, 0x70#8), (0x800C, 0x02#8), (0x8017, 0x80#8)]

theorem witness_SearchesEndAtTheElementTheyVisit :
    SearchReady (faultyCollection 0x32#8) false ∧
      SearchInterval (faultyCollection 0x32#8) false false 2 2 ∧ ((2 : Nat) : Int) = (2 + 2) / 2 ∧
      2 ^ 31 - 1 < ((faultyCollection 0x32#8).descriptor 2).len ∧
      ((faultyCollection 0x32#8).descriptor 2).len < 0xFFFFFFFF ∧
      (faultyCollection 0x31#8).elementOrder false 1 = 0 ∧ ElementReady (faultyCollection 0x31#8) false 1 ∧
      ¬ElementReady (faultyCollection 0x31#8) false 2 := by
  refine ⟨by decide, ?_, by decide, by decide, by decide, by decide, by decide, by decide⟩
  exact SearchInterval.upper (mid := 1) SearchInterval.whole (by decide) (by decide) (by decide) (by decide)

/-- "2" is not found after the fault at element 2; "1" is found, and the faulty element is not visited. -/
theorem test_search_faults_only_where_it_visits :
    ending (exec (.search false) (faultyCollection 0x32#8)) = some (0x8E#32, 0#32, 5#32, 2#32) ∧
      ending (exec (.psearch false) (faultyCollection 0x31#8)) = some (0xA#32, 1#32, 0#32, 0#32) := by decide

theorem witness_UnconfiguredCommandsFault :
    State.reset.status.cfgOk = false ∧
      ∀ wsel strict preserve dflt, Instr.search true ≠ .config wsel strict preserve dflt := by decide

theorem witness_SuccessfulConfigCommits :
    (nextOf (exec (.config (Width.sel .w4) true false true) State.reset)).map (fun t => t.status.err) = some false := by
  decide

theorem witness_FaultCompletionChangesNothingElse :
    Instr.unpack.wellFormed = true ∧
      (nextOf (exec .unpack (withBuffers (four true false) 0x2000#32 1#32 0x3000#32 2#32 []))).map
        (fun t => t.status.err) = some true := by decide

theorem witness_FaultingCommandsWriteNoMemory :
    (nextOf (exec .pack (withBuffers (four true false) 0x2000#32 1#32 0x3000#32 2#32 []))).map (fun t => t.status.err) =
      some true ∧
    (busyWith six 0x301#32 [.engine]).status.busy = true ∧ (busyWith six 0x301#32 [.engine]).turns = .engine :: [] ∧
      (nextOf (step (busyWith six 0x301#32 [.engine]))).map (fun t => t.status.err) = some true := by decide

/-- A success and a fault. -/
theorem witness_CommandsKeepWhatTheyDoNotName :
    (nextOf (exec .cmp (withCandidate (four false true) 0#32 0#32 []))).map (fun t => t.status.err) = some false ∧
      (nextOf (exec .cmp (withCandidate (four false true) 1#32 0#32 []))).map (fun t => t.status.err) = some true := by
  decide

theorem witness_CommandsAreIdempotent :
    Memory.wf [(0x2000, 0x31#8)] = true ∧ (four false true).cfg.preserve = true ∧
      (nextOf (exec .pack (withBuffers (four false true) 0x2000#32 1#32 0x3000#32 2#32 [(0x2000, 0x31#8)]))).map
        (fun t => t.status.err) = some false := by decide

/-- A CMP in flight in a configured machine, and the engine's step. -/
theorem witness_EveryStepKeepsTheInvariant :
    (busyWith (withCandidate (four false true) 0#32 0#32 [(0x10, 1#8)]) 6#32 []).Inv ∧
      ∃ t, step (busyWith (withCandidate (four false true) 0#32 0#32 [(0x10, 1#8)]) 6#32 []) = .next t := by
  refine ⟨⟨by decide, fun _ => four_configured false true _ rfl, fun h => ?_, by decide, by decide⟩, ?_⟩
  · exact absurd h (by decide)
  · have h : (nextOf (step (busyWith (withCandidate (four false true) 0#32 0#32 [(0x10, 1#8)]) 6#32 []))).isSome = true := by
      decide
    cases hs : step (busyWith (withCandidate (four false true) 0#32 0#32 [(0x10, 1#8)]) 6#32 []) with
    | next t => exact ⟨t, rfl⟩
    | fault f => simp [hs, nextOf] at h
    | refused r => simp [hs, nextOf] at h

/-- A collection of the largest size whose first descriptor is the last one below 2^32; it names [0x7000, 0x7002). -/
def edgeCollection : State :=
  { nullCollection with
    colAddr := 0xFFFFFFF8#32
    colLen := 0xFFFFFFFF#32
    mem := [(0xFFFFFFF9, 0x70#8), (0xFFFFFFFC, 2#8)] }

/-- The last byte of an element of a search in flight, of an element that a table past 2^32 names, of a list, of a destination in flight, and of another SPE's ranges. -/
theorem witness_HostWriteToARangeInFlightIsARace :
    State.reset.platform.block.contains (0x7041#32).toNat = false ∧
      readsInFlight (busyWith nullCollection 0x104#32 [.access (.memWrite 0x7041#32 0#8)]) 0x7041 ∧
      readsInFlight (busyWith edgeCollection 0x104#32 [.access (.memWrite 0x7001#32 0#8)]) 0x7001 ∧
      faultOf (step (busyWith edgeCollection 0x104#32 [.access (.memWrite 0x7001#32 0#8)])) = some .hostRace ∧
      readsInFlight (busyWith (withList 16#32 []) 0x1#32 []) 0x100F ∧
      writesInFlight (busyWith besidePeer 2#32 []) 0x3007 ∧
      farPeer ∈ besidePeer.peers ∧ farPeer.writesAt 0x20F ∧
      faultOf (step (busyWith nullCollection 0x104#32 [.access (.memWrite 0x7041#32 0#8)])) = some .hostRace :=
  ⟨by decide, ⟨rfl, .search true, by decide, .inr (.inr ⟨1, by decide⟩)⟩,
    ⟨rfl, .search true, by decide, .inr (.inr ⟨0, by decide⟩)⟩, by decide,
    ⟨rfl, .config 0#2 false false false, by decide, rfl, by decide, by decide⟩,
    ⟨rfl, .pack, by decide, .inl (by decide)⟩, by decide, by decide, by decide⟩

/-- BUSY with a PACK to [0x3000, 0x3008), and another SPE busy elsewhere: the byte after the destination is free. -/
theorem witness_HostWriteChangesOneByte :
    (busyWith besidePeer 2#32 [.access (.memWrite 0x3008#32 7#8)]).mem.wf = true ∧
      besidePeer.platform.block.contains (0x3008#32).toNat = false ∧
      ¬readsInFlight (busyWith besidePeer 2#32 []) 0x3008 ∧ ¬writesInFlight (busyWith besidePeer 2#32 []) 0x3008 ∧
      ∀ p ∈ besidePeer.peers, ¬p.readsAt 0x3008 ∧ ¬p.writesAt 0x3008 := by
  have hd : ∀ i, decode (busyWith besidePeer 2#32 []).cmdLatch = .ok i → i = .pack := fun i h => by
    have hp : decode (busyWith besidePeer 2#32 []).cmdLatch = .ok .pack := by decide
    rw [hp] at h
    cases h
    rfl
  refine ⟨by decide, by decide, ?_, ?_, by decide⟩ <;> rintro ⟨-, i, hi, h⟩ <;> cases hd i hi
  · exact absurd h (by unfold readsByte; decide)
  · exact absurd h (by unfold writesByte; decide)

/-- Another SPE that writes one byte. -/
def writer (a : Nat) : Footprint := { reads := [], writes := [{ base := a, len := 1 }] }

/-- Another SPE writes the last byte of the source of a CMP in flight; this one issues a PACK in place whose source another
SPE reads; two other SPEs write one byte. -/
theorem witness_ConflictingInstancesAreARace :
    Conflict (readsInFlight (busyWith (withCandidate (four false true) 2#32 1#32 []) 6#32 [.peerIssue (writer 0x5001)]) 0x5001)
        False ((writer 0x5001).readsAt 0x5001) ((writer 0x5001).writesAt 0x5001) ∧
      faultOf (step (busyWith (withCandidate (four false true) 2#32 1#32 []) 6#32 [.peerIssue (writer 0x5001)])) =
        some .instanceRace ∧
      Conflict (readsByte (withBuffers (four false false) 0x108#32 4#32 0x3000#32 8#32 []) .pack 0x10B)
        (writesByte (withBuffers (four false false) 0x108#32 4#32 0x3000#32 8#32 []) .pack 0x10B)
        (farPeer.readsAt 0x10B) (farPeer.writesAt 0x10B) ∧
      faultOf (State.writeReg { withBuffers (four false false) 0x108#32 4#32 0x3000#32 8#32 [] with peers := [farPeer] } .cmd
        2#32) = some .instanceRace ∧
      Conflict (farPeer.readsAt 0x20F) (farPeer.writesAt 0x20F) ((writer 0x20F).readsAt 0x20F)
        ((writer 0x20F).writesAt 0x20F) ∧
      faultOf (step { besidePeer with turns := [.peerIssue (writer 0x20F)] }) = some .instanceRace :=
  ⟨.inr ⟨by decide, .inl ⟨rfl, .cmp, by decide, .inl (by decide)⟩⟩, by decide,
    .inl ⟨.inr ⟨rfl, by decide⟩, .inl (by decide)⟩, by decide, .inl ⟨by decide, .inr (by decide)⟩, by decide⟩

/-- Two SPEs that read one byte, while nothing is in flight here; and an issue here beside another SPE with no ranges. -/
theorem witness_InstancesWithoutConflictGoOn (p q : Footprint) (hp : p = { reads := [{ base := 0x10, len := 4 }], writes := [] })
    (hq : q = { reads := [], writes := [] }) :
    (∀ a, ¬Conflict (readsInFlight State.reset a) (writesInFlight State.reset a) (p.readsAt a) (p.writesAt a)) ∧
      (∀ a, ¬Conflict (p.readsAt a) (p.writesAt a) (p.readsAt a) (p.writesAt a)) ∧
      (nextOf (step { State.reset with turns := [.peerIssue p], peers := [p] })).map (fun t => t.peers) = some [p, p] ∧
      State.reset.status.busy = false ∧
      ∀ i a, ¬Conflict (readsByte State.reset i a) (writesByte State.reset i a) (q.readsAt a) (q.writesAt a) := by
  subst hp hq
  refine ⟨fun a h => ?_, fun a h => ?_, by decide, rfl, fun i a h => ?_⟩
  · have hw : ¬writesInFlight State.reset a := fun h => absurd h.1 (by decide)
    simp [Conflict, Footprint.writesAt, hw] at h
  · simp [Conflict, Footprint.writesAt] at h
  · simp [Conflict, Footprint.readsAt, Footprint.writesAt] at h

/-- A host program of one line. -/
def atLine (l : HostLine) : State :=
  { State.reset with turns := [.host], host := { program := [l], line := 0, temps := [(3, 5#32)] } }

theorem witness_HostLinesDoWhatTheySay :
    (atLine (.rd .ident 3)).turns = .host :: [] ∧
      (atLine (.rd .ident 3)).host.program[0]? = some (.rd .ident 3) ∧
      tableCanonical 0#32 (atLine (.rd .ident 3)).host.temps = true ∧
      (atLine (.ldb 4 (.temp 3))).platform.block.contains ((atLine (.ldb 4 (.temp 3))).host.eval (.temp 3)).toNat = false ∧
      (atLine (.set 3 (.sub (.lit 0#32) (.temp 3)))).host.eval (.sub (.lit 0#32) (.temp 3)) = 0xFFFFFFFB#32 ∧
      (atLine (.ifGoto (.temp 3) .lt (.lit 6#32) 9)).host.program[0]? = some (.ifGoto (.temp 3) .lt (.lit 6#32) 9) ∧
      (nextOf (step (atLine (.wr .keyLen (.temp 3))))).map (fun t => (t.keyLen, t.host.line)) = some (5#32, 1) ∧
      (nextOf (step (atLine (.issue (.search true))))).map (fun t => (t.cmdLatch, t.host.line)) = some (0x104#32, 1) ∧
      (nextOf (step (atLine (.stb (.temp 3) (.lit 0x1FF#32))))).map (fun t => (t.mem, t.host.line)) =
        some ([(5, 0xFF#8)], 1) ∧
      faultOf (step (atLine (.stb (.lit 0x400001FF#32) (.lit 0#32)))) = some .badAccess := by decide

/-- Values at the ends: a difference below 0, a shift by 32, bit 31, bit 32, and 0x80000000 as an unsigned value. -/
theorem test_host_expressions :
    (atLine .halt).host.eval (.sub (.lit 4#32) (.temp 3)) = 0xFFFFFFFF#32 ∧
      (atLine .halt).host.eval (.shl (.temp 3) (.lit 32#32)) = 0#32 ∧
      (atLine .halt).host.eval (.shl (.temp 3) (.lit 31#32)) = 0x80000000#32 ∧
      (atLine .halt).host.eval (.bit 3 (.sub (.temp 3) (.lit 3#32))) = 1#32 ∧
      (atLine .halt).host.eval (.bit 3 (.lit 32#32)) = 0#32 ∧ Relation.lt.holds 0x80000000#32 0#32 = false ∧
      Relation.ge.holds 0x80000000#32 0#32 = true := by decide

theorem witness_WaitEndsWithTheCommandDone :
    ∃ s : State, s.turns = [] ∧ s.status.busy = true ∧ tableCanonical 0#32 s.host.temps = true ∧
      s.host.program = [.halt] ++ waitLines [HostLine.halt].length ++ [.halt] ∧ s.host.line = [HostLine.halt].length :=
  ⟨{ busyWith State.reset 2#32 [] with host := { program := [.halt] ++ waitLines 1 ++ [.halt], line := 1, temps := [] } },
    by decide⟩

end Sys2Proof.Tests
end

/-! SUPPORT. The steps of the agents and the host's register writes, one rule each, and the issue of a command
(10_state.md R22, R40). -/

namespace Sys2Proof.Machine

/-! ### Whose turn it is (R61) -/

theorem step_of_turns_cons {s : State} {t : Turn} {rest : List Turn} (h : s.turns = t :: rest) :
    step s = takeTurn t { s with turns := rest } := by
  simp only [step, h]

theorem takeTurn_regWrite (s : State) (offset : BitVec 9) (width : Nat) (v : Word) :
    takeTurn (.access (.regWrite offset width v)) s = s.writeBlock offset width v := rfl

/-! ### Register writes by offset (R21, R22) -/

theorem accessLegal_word {offset : BitVec 9} (h : offset.toNat % 4 = 0) : accessLegal offset 4 = true := by
  simp [accessLegal, h]

theorem State.writeBlock_of_ofOffset {s : State} {offset : BitVec 9} {r : Reg} {v : Word}
    (ha : offset.toNat % 4 = 0) (hr : Reg.ofOffset offset.toNat = some r) :
    s.writeBlock offset 4 v = s.writeReg r v := by
  simp only [State.writeBlock, accessLegal_word ha, hr, if_true]

/-- A step whose turn is a 32-bit write at a listed aligned offset is the write of that register. -/
theorem step_regWrite_of_ofOffset {s : State} {offset : BitVec 9} {r : Reg} {v : Word} {rest : List Turn}
    (ha : offset.toNat % 4 = 0) (hr : Reg.ofOffset offset.toNat = some r)
    (ht : s.turns = .access (.regWrite offset 4 v) :: rest) :
    step s = ({ s with turns := rest } : State).writeReg r v :=
  calc step s = takeTurn (.access (.regWrite offset 4 v)) { s with turns := rest } := step_of_turns_cons ht
    _ = ({ s with turns := rest } : State).writeBlock offset 4 v := takeTurn_regWrite ..
    _ = ({ s with turns := rest } : State).writeReg r v := State.writeBlock_of_ofOffset ha hr

/-! ### The issue of a command (R40, R241) -/

theorem State.writeReg_cmd_of_idle {s : State} (hidle : s.status.busy = false) (v : Word) :
    s.writeReg .cmd v = s.issue v := by
  simp [State.writeReg, hidle]

theorem State.issue_of_no_conflict {s : State} {v : Word}
    (hpeers : ∀ p ∈ s.peers, (s.issueWord v).inFlight.conflicts p = false) :
    s.issue v = .next (s.issueWord v) := by
  have hnone : s.peers.any (s.issueWord v).inFlight.conflicts = false := by
    simpa only [List.any_eq_false, Bool.not_eq_true] using hpeers
  simp [State.issue, hnone]

/-- A write to CMD while IDLE, beside SPEs that do not conflict, issues the command. -/
theorem State.writeReg_cmd_issues {s : State} {v : Word} (hidle : s.status.busy = false)
    (hpeers : ∀ p ∈ s.peers, (s.issueWord v).inFlight.conflicts p = false) :
    s.writeReg .cmd v = .next (s.issueWord v) :=
  (State.writeReg_cmd_of_idle hidle v).trans (State.issue_of_no_conflict hpeers)

/-- Settles O6: the state R40 describes is `issueWord`'s. By name it is the rule for a write to CMD; by offset 0 the step
is that write in the state whose turn is taken, whose ranges in flight and peers are those of `s`. -/
theorem issueLatchesTheCommand : Obligations.IssueLatchesTheCommand := by
  rintro s t v hidle hpeers rfl
  refine ⟨State.writeReg_cmd_issues hidle hpeers, fun rest hturns => ?_⟩
  have hstep : step s = ({ s with turns := rest } : State).writeReg .cmd v :=
    step_regWrite_of_ofOffset rfl rfl hturns
  exact hstep.trans (State.writeReg_cmd_issues hidle hpeers)

end Sys2Proof.Machine

/-! SUPPORT. Which command words decode (30_encoding.md R84 to R89), and the engine's step on one that does not. -/

namespace Sys2Proof

/-! ### The fields of a command word as numbers (R84, R87) -/

theorem reservedLow_eq_zero_iff (w : Word) : w.extractLsb' 4 4 = 0#4 ↔ w.toNat / 2 ^ 4 % 2 ^ 4 = 0 := by
  simp [← BitVec.toNat_inj, Nat.shiftRight_eq_div_pow]

theorem reservedHigh_eq_zero_iff (w : Word) : w.extractLsb' 16 16 = 0#16 ↔ w.toNat / 2 ^ 16 = 0 := by
  have hw : w.toNat < 2 ^ 32 := w.isLt
  simp only [← BitVec.toNat_inj, BitVec.extractLsb'_toNat, Nat.shiftRight_eq_div_pow, BitVec.toNat_ofNat]
  omega

theorem opField_toNat (w : Word) : (opField w).toNat = w.toNat % 16 := by
  simp [opField]

theorem optField_toNat (w : Word) : (optField w).toNat = w.toNat / 2 ^ 8 % 2 ^ 8 := by
  simp [optField, Nat.shiftRight_eq_div_pow]

theorem wselLegal_iff (wsel : BitVec 2) : wselLegal wsel = true ↔ wsel.toNat ≠ 3 := by
  simp [wselLegal, ← BitVec.toNat_inj]

/-! ### Which options decode (R87 to R89) -/

theorem ite_ok_iff {p : Prop} [Decidable p] (i : Instr) (e : DecodeError) :
    (∃ j, (if p then .ok i else .error e : Except DecodeError Instr) = .ok j) ↔ p := by
  split <;> simp_all

theorem decodeNoOptions_ok_iff (opt : BitVec 8) (i : Instr) :
    (∃ j, decodeNoOptions opt i = .ok j) ↔ opt.toNat = 0 := by
  simp [decodeNoOptions, ite_ok_iff, ← BitVec.toNat_inj]

theorem decodeSearch_ok_iff (opt : BitVec 8) (i : Bool → Instr) :
    (∃ j, decodeSearch opt i = .ok j) ↔ opt.toNat / 2 % 2 ^ 7 = 0 := by
  simp [decodeSearch, ite_ok_iff, ← BitVec.toNat_inj, Nat.shiftRight_eq_div_pow]

theorem decodeConfig_ok_iff (opt : BitVec 8) :
    (∃ j, decodeConfig opt = .ok j) ↔ opt.toNat / 2 ^ 5 % 8 = 0 ∧ opt.toNat % 4 ≠ 3 := by
  simp [decodeConfig, ite_ok_iff, wselLegal_iff, ← BitVec.toNat_inj, Nat.shiftRight_eq_div_pow]

/-! ### Which words decode (R86) -/

/-- The decoder refuses a word with a reserved bit set and one whose OP is no row of the table; else the options decide. -/
theorem decode_ok_iff_legalWord (w : Word) : (∃ i, decode w = .ok i) ↔ Machine.legalWord w := by
  have hop : (opField w).toNat = w.toNat % 16 := opField_toNat w
  have hopt : (optField w).toNat = w.toNat / 2 ^ 8 % 2 ^ 8 := optField_toNat w
  unfold decode
  split_ifs with hlow hhigh
  · exact iff_of_false (by simp) fun h => hlow ((reservedLow_eq_zero_iff w).mpr h.1)
  · exact iff_of_false (by simp) fun h => hhigh ((reservedHigh_eq_zero_iff w).mpr h.2.1)
  · rw [not_not, reservedLow_eq_zero_iff] at hlow
    rw [not_not, reservedHigh_eq_zero_iff] at hhigh
    unfold Machine.legalWord
    split
    next op => rw [decodeConfig_ok_iff]; omega
    next op => rw [decodeNoOptions_ok_iff]; omega
    next op => rw [decodeNoOptions_ok_iff]; omega
    next op => rw [decodeSearch_ok_iff]; omega
    next op => rw [decodeSearch_ok_iff]; omega
    next op => rw [decodeNoOptions_ok_iff]; omega
    next op => rw [decodeNoOptions_ok_iff]; omega
    next h1 h2 h3 h4 h5 h6 h7 =>
      simp only [imp_false] at h1 h2 h3 h4 h5 h6 h7
      refine iff_of_false (by simp) ?_
      omega

end Sys2Proof

namespace Sys2Proof.Machine

theorem takeTurn_engine (s : State) : takeTurn .engine s = engineStep s := rfl

/-- While BUSY on a word that does not decode, the engine answers ILLEGAL_CMD sub 1 (R86, R205). -/
theorem engineStep_of_not_decode {s : State} (hbusy : s.status.busy = true) (hd : ¬∃ i, decode s.cmdLatch = .ok i) :
    engineStep s = .next (s.failWith illegalWord) := by
  cases he : decode s.cmdLatch with
  | ok i => exact absurd ⟨i, he⟩ hd
  | error e => simp [engineStep, hbusy, he]

/-- Settles O1: the decoder's side is `decode_ok_iff_legalWord`; any other word takes the engine's error branch. -/
theorem exactlyTheLegalWordsDecode : Obligations.ExactlyTheLegalWordsDecode := by
  refine ⟨decode_ok_iff_legalWord, fun s rest hbusy hillegal hturns => ?_⟩
  have hd : ¬∃ i, decode s.cmdLatch = .ok i := mt (decode_ok_iff_legalWord _).mp hillegal
  calc step s = takeTurn .engine { s with turns := rest } := step_of_turns_cons hturns
    _ = engineStep { s with turns := rest } := takeTurn_engine _
    _ = .next (({ s with turns := rest } : State).failWith illegalWord) := engineStep_of_not_decode hbusy hd
    _ = .next (({ s with turns := rest } : State).faultEnd .illegalCmd 1#8 0 0) := by rw [failWith_eq_faultEnd]; rfl

end Sys2Proof.Machine

/-! SUPPORT. The bytes of a packed buffer (30_encoding.md R71 to R76): the W = 4 layout, and the bit stream at W = 5 and 6. -/

namespace Sys2Proof.Machine

theorem packBytes_w4 {c : List Nat} (hc : c ≠ []) : packBytes .w4 c = packBytes4 c := by
  simp [packBytes, hc]

theorem packBytes_of_ne_w4 {w : Width} (hw : w ≠ .w4) {c : List Nat} (hc : c ≠ []) :
    packBytes w c = packBytes56 w.bits c := by
  cases w with
  | w4 => exact absurd rfl hw
  | w5 => simp [packBytes, hc, Width.bits]
  | w6 => simp [packBytes, hc, Width.bits]

theorem Width.bits_pos (w : Width) : 0 < w.bits := by cases w <;> decide

theorem Width.bits_le_eight (w : Width) : w.bits ≤ 8 := by cases w <;> decide

/-! ### W = 4 (R71, R72, R73) -/

theorem packBytes4_length (c : List Nat) : (packBytes4 c).length = (c.length + 1) / 2 + 1 := by
  induction c using packBytes4.induct with
  | case1 => rfl
  | case2 c => simp [packBytes4]
  | case3 c d rest ih => simp only [packBytes4, List.length_cons, ih]; omega

/-- R72: the flag byte is the parity of the number of codes. -/
theorem packBytes4_getLast? (c : List Nat) :
    (packBytes4 c).getLast? = some (if c.length % 2 = 1 then 0x01#8 else 0x00#8) := by
  induction c using packBytes4.induct with
  | case1 => rfl
  | case2 c => rfl
  | case3 c d rest ih =>
    have hparity : (c :: d :: rest).length % 2 = rest.length % 2 := Nat.add_mod_right rest.length 2
    rw [packBytes4, List.getLast?_cons, ih, hparity, Option.getD_some]

theorem pairByte_toNat {c d : Nat} (hc : c < 16) (hd : d < 16) :
    (BitVec.ofNat 8 (c <<< 4 ||| d)).toNat = 16 * c + d := by
  rw [← Nat.shiftLeft_add_eq_or_of_lt (show d < 2 ^ 4 from hd), Nat.shiftLeft_eq, BitVec.toNat_ofNat]
  omega

/-- R71: data byte j of the pairs. -/
theorem packBytes4_pair {c : List Nat} (hc : ∀ x ∈ c, x < 16) {j : Nat} (hj : j < c.length / 2) :
    ((packBytes4 c).getD j 0#8).toNat = 16 * c.getD (2 * j) 0 + c.getD (2 * j + 1) 0 := by
  induction c using packBytes4.induct generalizing j with
  | case1 => simp at hj
  | case2 c => simp at hj
  | case3 c d rest ih =>
    simp only [List.forall_mem_cons] at hc
    obtain ⟨hc0, hd, hrest⟩ := hc
    cases j with
    | zero => simpa [packBytes4] using pairByte_toNat hc0 hd
    | succ j =>
      have hj' : j < rest.length / 2 := by simp only [List.length_cons] at hj; omega
      simpa [packBytes4, Nat.mul_add] using ih hrest hj'

/-- R72: an unpaired code stands unshifted in the byte after the pairs. -/
theorem packBytes4_unpaired {c : List Nat} (hc : ∀ x ∈ c, x < 16) (hodd : c.length % 2 = 1) :
    ((packBytes4 c).getD (c.length / 2) 0#8).toNat = c.getD (c.length - 1) 0 := by
  induction c using packBytes4.induct with
  | case1 => simp at hodd
  | case2 c =>
    have hc0 : c < 16 := hc c (by simp)
    simp [packBytes4]
    omega
  | case3 c d rest ih =>
    simp only [List.forall_mem_cons] at hc
    obtain ⟨-, -, hrest⟩ := hc
    have hhalf : (c :: d :: rest).length / 2 = rest.length / 2 + 1 := Nat.add_div_right rest.length Nat.zero_lt_two
    have hodd' : rest.length % 2 = 1 := (Nat.add_mod_right rest.length 2).symm.trans hodd
    have hlast : (c :: d :: rest).length - 1 = rest.length - 1 + 2 := by simp only [List.length_cons]; omega
    rw [hhalf, hlast, packBytes4, List.getD_cons_succ, List.getD_cons_succ, List.getD_cons_succ]
    exact ih hrest hodd'

/-- Settles O28 from the layout of `packBytes4`. -/
theorem packedLayoutAtFourBits : Obligations.PackedLayoutAtFourBits := by
  intro c hne hc
  rw [packBytes_w4 hne]
  refine ⟨packBytes4_length c, fun j hj => packBytes4_pair hc hj,
    fun hodd => ⟨packBytes4_unpaired hc hodd, ?_⟩, fun heven => ?_⟩
  · simp [packBytes4_getLast?, hodd]
  · simp [packBytes4_getLast?, heven]

/-! ### The loop of `PackBytes56` (R141) -/

section PackLoop
variable {w : Nat}

theorem packLoop_nil_zero (acc : Nat) : packLoop w [] acc 0 = [flagByte w 0] := rfl

theorem packLoop_nil_pos (acc : Nat) {n : Nat} (hn : 0 < n) :
    packLoop w [] acc n = [BitVec.ofNat 8 (acc <<< (8 - n) &&& 0xFF), flagByte w n] := by
  simp [packLoop, hn]

theorem packLoop_cons_emit {n : Nat} (h : 8 ≤ n + w) (c : Nat) (cs : List Nat) (acc : Nat) :
    packLoop w (c :: cs) acc n =
      BitVec.ofNat 8 ((acc <<< w ||| c) >>> (n + w - 8) &&& 0xFF) ::
        packLoop w cs (lowBits (acc <<< w ||| c) (n + w - 8)) (n + w - 8) := by
  simp [packLoop, h]

theorem packLoop_cons_keep {n : Nat} (h : n + w < 8) (c : Nat) (cs : List Nat) (acc : Nat) :
    packLoop w (c :: cs) acc n = packLoop w cs (acc <<< w ||| c) (n + w) := by
  simp [packLoop, Nat.not_le.mpr h]

/-- Moving a code to the accumulator leaves the number of bits to emit unchanged. -/
theorem streamLength_cons (w n c : Nat) (cs : List Nat) :
    n + (c :: cs).length * w = n + w + cs.length * w := by
  rw [List.length_cons, Nat.succ_mul]
  omega

/-- R77: the data bytes hold the `n` bits not yet emitted and those of the codes; the flag byte follows. -/
theorem packLoop_length (hw : w ≤ 8) (cs : List Nat) (acc : Nat) {n : Nat} (hn : n < 8) :
    (packLoop w cs acc n).length = (n + cs.length * w + 7) / 8 + 1 := by
  induction cs generalizing acc n with
  | nil =>
    rcases Nat.eq_zero_or_pos n with rfl | hpos
    · simp [packLoop_nil_zero]
    · simp [packLoop_nil_pos acc hpos]; omega
  | cons c cs ih =>
    rw [streamLength_cons]
    by_cases h : 8 ≤ n + w
    · rw [packLoop_cons_emit h, List.length_cons, ih _ (by omega)]; omega
    · rw [packLoop_cons_keep (by omega), ih _ (by omega)]

/-- R76: the flag byte is that of the residual bit count. -/
theorem packLoop_getLast? (hw : w ≤ 8) (cs : List Nat) (acc : Nat) {n : Nat} (hn : n < 8) :
    (packLoop w cs acc n).getLast? = some (flagByte w ((n + cs.length * w) % 8)) := by
  induction cs generalizing acc n with
  | nil =>
    rcases Nat.eq_zero_or_pos n with rfl | hpos
    · simp [packLoop_nil_zero]
    · simp [packLoop_nil_pos acc hpos, Nat.mod_eq_of_lt hn]
  | cons c cs ih =>
    rw [streamLength_cons]
    by_cases h : 8 ≤ n + w
    · have hmod : (n + w + cs.length * w) % 8 = (n + w - 8 + cs.length * w) % 8 := by omega
      rw [packLoop_cons_emit h, List.getLast?_cons, ih _ (by omega), hmod, Option.getD_some]
    · rw [packLoop_cons_keep (by omega), ih _ (by omega)]

/-! ### The bit stream (R74) -/

/-- Bit p of the stream that the loop has still to emit: the low `n` bits of the accumulator, then the codes, each most
significant bit first; past the last code every bit is 0. -/
def streamBit (w : Nat) (cs : List Nat) (acc n p : Nat) : Bool :=
  if p < n then acc.testBit (n - 1 - p) else (cs.getD ((p - n) / w) 0).testBit (w - 1 - (p - n) % w)

/-- With nothing in the accumulator it is the stream R74 describes. -/
theorem streamBit_start (cs : List Nat) (acc p : Nat) :
    streamBit w cs acc 0 p = (cs.getD (p / w) 0).testBit (w - 1 - p % w) := by
  simp [streamBit]

theorem streamBit_of_le (cs : List Nat) (acc n : Nat) {p : Nat} (hw : 0 < w) (hp : n + cs.length * w ≤ p) :
    streamBit w cs acc n p = false := by
  have hlen : cs.length ≤ (p - n) / w := (Nat.le_div_iff_mul_le hw).mpr (by omega)
  simp [streamBit, show ¬p < n by omega, hlen]

/-- Feeding a code moves its bits from the list to the accumulator. -/
theorem streamBit_cons (hw : 0 < w) {c : Nat} (hc : c < 2 ^ w) (cs : List Nat) (acc n p : Nat) :
    streamBit w (c :: cs) acc n p = streamBit w cs (acc <<< w ||| c) (n + w) p := by
  unfold streamBit
  by_cases hpn : p < n
  · have hc0 : c.testBit (n + w - 1 - p) = false :=
      Nat.testBit_lt_two_pow (hc.trans_le (Nat.pow_le_pow_right Nat.zero_lt_two (by omega)))
    have hidx : n + w - 1 - p - w = n - 1 - p := by omega
    simp [hpn, show p < n + w by omega, hc0, hidx, show w ≤ n + w - 1 - p by omega]
  · by_cases hpw : p < n + w
    · have hlt : p - n < w := by omega
      have hidx : w - 1 - (p - n) = n + w - 1 - p := by omega
      simp [hpn, hpw, Nat.div_eq_of_lt hlt, Nat.mod_eq_of_lt hlt, hidx, show ¬w ≤ n + w - 1 - p by omega]
    · have hsub : p - n = p - (n + w) + w := by omega
      simp [hpn, hpw, hsub, Nat.add_div_right _ hw]

/-- Emitting the top byte drops eight bits of the stream. -/
theorem streamBit_drop_byte (cs : List Nat) (acc : Nat) {n p : Nat} (hn : 8 ≤ n) (hp : 8 ≤ p) :
    streamBit w cs (lowBits acc (n - 8)) (n - 8) (p - 8) = streamBit w cs acc n p := by
  have hsub : p - 8 - (n - 8) = p - n := by omega
  unfold streamBit
  by_cases hpn : p < n
  · have hidx : n - 8 - 1 - (p - 8) = n - 1 - p := by omega
    simp [lowBits, Nat.one_shiftLeft, Nat.testBit_mod_two_pow, hpn, show p - 8 < n - 8 by omega, hidx,
      show n - 1 - p < n - 8 by omega]
  · simp [hpn, show ¬p - 8 < n - 8 by omega, hsub]

theorem lowByte_bit (x : Nat) {i : Nat} (hi : i < 8) : (BitVec.ofNat 8 (x &&& 0xFF)).getLsbD i = x.testBit i := by
  have hmask : x &&& 0xFF = x % 2 ^ 8 := Nat.and_two_pow_sub_one_eq_mod x 8
  rw [hmask, BitVec.getLsbD_ofNat, Nat.testBit_mod_two_pow]
  simp [hi]

/-- The byte the loop emits is the next eight bits of the stream. -/
theorem emittedByte_bit (cs : List Nat) (acc : Nat) {n p : Nat} (hn : 8 ≤ n) (hp : p < 8) :
    (BitVec.ofNat 8 (acc >>> (n - 8) &&& 0xFF)).getLsbD (7 - p) = streamBit w cs acc n p := by
  have hidx : n - 8 + (7 - p) = n - 1 - p := by omega
  rw [lowByte_bit _ (by omega), Nat.testBit_shiftRight, hidx, streamBit, if_pos (by omega)]

/-- The residual bits are left-justified in the last data byte, zeros after them. -/
theorem residualByte_bit (acc : Nat) {n p : Nat} (hn : n < 8) (hp : p < 8) :
    (BitVec.ofNat 8 (acc <<< (8 - n) &&& 0xFF)).getLsbD (7 - p) = streamBit w [] acc n p := by
  rw [lowByte_bit _ (by omega), Nat.testBit_shiftLeft, streamBit]
  by_cases hpn : p < n
  · have hidx : 7 - p - (8 - n) = n - 1 - p := by omega
    simp [hpn, hidx, show 8 - n ≤ 7 - p by omega]
  · simp [hpn, show ¬8 - n ≤ 7 - p by omega]

/-- R74: every bit of every data byte. -/
theorem packLoop_bit (hw : 0 < w) (hw8 : w ≤ 8) {cs : List Nat} (hcs : ∀ x ∈ cs, x < 2 ^ w) (acc : Nat) {n p : Nat}
    (hn : n < 8) (hp : p < 8 * ((n + cs.length * w + 7) / 8)) :
    ((packLoop w cs acc n).getD (p / 8) 0#8).getLsbD (7 - p % 8) = streamBit w cs acc n p := by
  induction cs generalizing acc n p with
  | nil =>
    have hpos : 0 < n := by simp only [List.length_nil] at hp; omega
    have hp8 : p < 8 := by simp only [List.length_nil] at hp; omega
    rw [packLoop_nil_pos acc hpos, Nat.div_eq_of_lt hp8, Nat.mod_eq_of_lt hp8, List.getD_cons_zero]
    exact residualByte_bit acc hn hp8
  | cons c cs ih =>
    simp only [List.forall_mem_cons] at hcs
    obtain ⟨hc, hrest⟩ := hcs
    rw [streamLength_cons] at hp
    rw [streamBit_cons hw hc]
    by_cases h : 8 ≤ n + w
    · rw [packLoop_cons_emit h]
      by_cases hp8 : p < 8
      · rw [Nat.div_eq_of_lt hp8, Nat.mod_eq_of_lt hp8, List.getD_cons_zero]
        exact emittedByte_bit cs _ h hp8
      · have hdiv : p / 8 = (p - 8) / 8 + 1 := by omega
        have hmod : p % 8 = (p - 8) % 8 := by omega
        rw [hdiv, hmod, List.getD_cons_succ, ih hrest _ (by omega) (by omega), streamBit_drop_byte cs _ h (by omega)]
    · rw [packLoop_cons_keep (by omega), ih hrest _ (by omega) hp]

end PackLoop

/-- Settles O29: the loop starts with nothing in the accumulator, so its stream is that of the codes. -/
theorem packedLayoutAtFiveAndSixBits : Obligations.PackedLayoutAtFiveAndSixBits := by
  intro w c hw4 hne hc
  have hpos := w.bits_pos
  have hle := w.bits_le_eight
  have hbit : ∀ p, p < 8 * ((c.length * w.bits + 7) / 8) →
      ((packBytes56 w.bits c).getD (p / 8) 0#8).getLsbD (7 - p % 8) = streamBit w.bits c 0 0 p := fun p hp =>
    packLoop_bit hpos hle hc 0 (by decide) (by simpa using hp)
  rw [packBytes_of_ne_w4 hw4 hne]
  refine ⟨?_, fun p hp => ?_, fun p hlo hhi => ?_, ?_⟩
  · simpa [packBytes56] using packLoop_length hle c 0 (n := 0) (by decide)
  · rw [hbit p (by omega), streamBit_start]
  · rw [hbit p hhi, streamBit_of_le c 0 0 hpos (by omega)]
  · simpa [packBytes56, flagByte] using packLoop_getLast? hle c 0 (n := 0) (by decide)

end Sys2Proof.Machine

/-! SUPPORT. What a CONFIG answers and the tables it leaves (40_config.md R101 to R109). -/

namespace Sys2Proof.Machine

/-! ### The two ends of a CONFIG (R101, R108, R109) -/

@[simp] theorem Width.ofSel_sel (w : Width) : Width.ofSel w.sel = some w := by cases w <;> rfl

section ConfigEnds
variable {s : State} {w : Width} {dflt : Bool}

theorem exec_config_of_fault {f : SpeFault} (strict preserve : Bool) (h : configFault s w dflt = some f) :
    exec (.config w.sel strict preserve dflt) s = .next (s.unconfigure.failWith f) := by
  simp [exec, execConfig, h]

theorem exec_config_of_no_fault (strict preserve : Bool) (h : configFault s w dflt = none) :
    exec (.config w.sel strict preserve dflt) s =
      .next ((s.commitConfig w strict preserve (s.symbolList w dflt)).succeed w.size) := by
  simp [exec, execConfig, h]

/-- A CONFIG of a legal width fails a check and leaves no configuration, or passes them all and commits its list. -/
theorem exec_config_cases {t : State} {strict preserve : Bool}
    (h : exec (.config w.sel strict preserve dflt) s = .next t) :
    (∃ f, configFault s w dflt = some f ∧ t = s.unconfigure.failWith f) ∨
      (configFault s w dflt = none ∧
        t = (s.commitConfig w strict preserve (s.symbolList w dflt)).succeed w.size) := by
  cases hf : configFault s w dflt with
  | some f =>
    rw [exec_config_of_fault strict preserve hf] at h
    exact .inl ⟨f, rfl, (Host.Outcome.next.inj h).symm⟩
  | none =>
    rw [exec_config_of_no_fault strict preserve hf] at h
    exact .inr ⟨rfl, (Host.Outcome.next.inj h).symm⟩

/-- ERR tells the two ends apart: 0 is the commit. -/
theorem exec_config_of_err_false {t : State} {strict preserve : Bool}
    (h : exec (.config w.sel strict preserve dflt) s = .next t) (herr : t.status.err = false) :
    configFault s w dflt = none ∧ t = (s.commitConfig w strict preserve (s.symbolList w dflt)).succeed w.size := by
  obtain ⟨f, -, rfl⟩ | hcommit := exec_config_cases h
  · simp at herr
  · exact hcommit

/-- ERR = 1 is the end R109 describes. -/
theorem exec_config_of_err_true {t : State} {strict preserve : Bool}
    (h : exec (.config w.sel strict preserve dflt) s = .next t) (herr : t.status.err = true) :
    ∃ f, t = s.unconfigure.failWith f := by
  obtain ⟨f, -, hfail⟩ | ⟨-, rfl⟩ := exec_config_cases h
  · exact ⟨f, hfail⟩
  · simp at herr

/-! ### The list of a CONFIG (R101, R102) -/

/-- A loaded list is as long as the range it is read from, a default list as R102 says. -/
theorem State.symbolList_length (s : State) (w : Width) (dflt : Bool) : (s.symbolList w dflt).length = w.size := by
  cases dflt with
  | true => exact (defaultSymbols_valid w).1
  | false => exact State.readRange_length s (s.listRange w)

/-- The duplicate check is what makes CODEOF well defined (R103, R105). -/
theorem symbolList_nodup_of_no_fault (h : configFault s w dflt = none) : (s.symbolList w dflt).Nodup := by
  simp only [configFault, orElse_eq_none_iff] at h
  obtain ⟨-, -, hdup⟩ := h
  exact (duplicateFault_eq_none_iff.mp hdup).1

end ConfigEnds

/-! ### The tables of a commit (R103, R108) -/

section Tables
variable {l : List Byte}

/-- SYM holds zeros past the list (R108). -/
theorem symTable_getElem_ite (l : List Byte) (i : Nat) (h : i < 64) :
    (symTable l)[i] = if i < l.length then (l.getD i 0#8).setWidth 7 else 0#7 := by
  rw [symTable_getElem]
  split_ifs with hi
  · rfl
  · rw [List.getD_eq_default _ _ (by omega)]
    rfl

theorem codeTable_getElem (l : List Byte) (b : Nat) (h : b < 128) :
    (codeTable l)[b] = codeIn 0 l (BitVec.ofNat 8 b) := by
  simp [codeTable]

/-- R103: the entry of the symbol that stands at place `i`. -/
theorem codeTable_of_symbol (hl : l.Nodup) {b i : Nat} (h : b < 128) (hi : i < l.length)
    (hb : (l.getD i 0#8).toNat = b) : (codeTable l)[b] = some (BitVec.ofNat 6 i) := by
  have hsym : BitVec.ofNat 8 b = l[i] := by
    rw [← hb, BitVec.ofNat_toNat, BitVec.setWidth_eq, List.getD_eq_getElem l 0#8 hi]
  rw [codeTable_getElem, hsym, codeIn_getElem hl 0 i hi, Nat.zero_add]

/-- R103: the entry of a byte that is no symbol. -/
theorem codeTable_of_no_symbol {b : Nat} (h : b < 128) (hb : ∀ i, i < l.length → (l.getD i 0#8).toNat ≠ b) :
    (codeTable l)[b] = none := by
  rw [codeTable_getElem, codeIn_eq_none_iff]
  intro hmem
  obtain ⟨i, hi, hib⟩ := List.getElem_of_mem hmem
  apply hb i hi
  rw [List.getD_eq_getElem l 0#8 hi, hib, BitVec.toNat_ofNat]
  omega

end Tables

/-- Settles O17: ERR = 0 is the commit, and the list committed has 2^W symbols and no repeats. -/
theorem successfulConfigCommits : Obligations.SuccessfulConfigCommits := by
  rintro s t w strict preserve dflt S rfl hexec herr
  obtain ⟨hnone, rfl⟩ := exec_config_of_err_false hexec herr
  have hnodup := symbolList_nodup_of_no_fault hnone
  have hlen : 2 ^ w.bits = (s.symbolList w dflt).length := (s.symbolList_length w dflt).symm
  simp only [hlen, State.succeed_sym, State.succeed_codeOf, State.commitConfig_sym, State.commitConfig_codeOf]
  exact ⟨symTable_getElem_ite _,
    fun b h => ⟨fun i hi hb => codeTable_of_symbol hnodup h hi hb, codeTable_of_no_symbol h⟩, rfl, rfl⟩

/-! ### No configuration (R24, R109) -/

theorem State.readBlock_cfg (s : State) : s.readBlock 0x008#9 4 = some s.cfgWord := rfl

/-- While CFG_OK = 0, CFG reads 0 (R24). -/
theorem State.readBlock_cfg_of_not_cfgOk {s : State} (h : s.status.cfgOk = false) :
    s.readBlock 0x008#9 4 = some 0#32 := by
  simp [State.readBlock_cfg, State.cfgWord, h]

theorem clearedSym_getElem (i : Nat) (h : i < 64) : clearedSym[i] = 0#7 := by simp [clearedSym]

theorem clearedCodeOf_getElem (b : Nat) (h : b < 128) : clearedCodeOf[b] = none := by simp [clearedCodeOf]

/-- Settles O20: ERR = 1 is fault entry on the cleared configuration; a word that does not decode is fault entry alone. -/
theorem failedConfigLeavesNoConfiguration : Obligations.FailedConfigLeavesNoConfiguration := by
  constructor
  · intro s t w strict preserve dflt hexec herr
    obtain ⟨f, rfl⟩ := exec_config_of_err_true hexec herr
    exact ⟨rfl, State.readBlock_cfg_of_not_cfgOk rfl, clearedSym_getElem, clearedCodeOf_getElem, rfl, rfl⟩
  · intro s rest hbusy hturns _ hillegal
    have hstep : step s = .next (({ s with turns := rest } : State).failWith illegalWord) :=
      calc step s = takeTurn .engine { s with turns := rest } := step_of_turns_cons hturns
        _ = engineStep { s with turns := rest } := takeTurn_engine _
        _ = _ := engineStep_of_not_decode hbusy fun ⟨i, hi⟩ => hillegal i hi
    exact ⟨_, hstep, rfl, rfl, rfl, rfl, rfl⟩

end Sys2Proof.Machine

/-! SUPPORT. Reading back a packed buffer (41_codec4.md R126, R130; 42_codec56.md R144, R147): the buffer of a string of codes
is well formed, holds as many codes as the string, and decodes to it. -/

namespace Sys2Proof.Machine

theorem packedSize_of_ne_w4 {w : Width} (hw : w ≠ .w4) {n : Nat} (hn : n ≠ 0) :
    packedSize w n = (n * w.bits + 7) / 8 + 1 := by
  cases w with
  | w4 => exact absurd rfl hw
  | w5 => simp [packedSize, hn, ceilDiv, Width.bits]
  | w6 => simp [packedSize, hn, ceilDiv, Width.bits]

/-- R70, R73, R77: the size of a packed buffer, that of the empty string among them. -/
theorem packBytes_length (w : Width) (c : List Nat) : (packBytes w c).length = packedSize w c.length := by
  rcases eq_or_ne c [] with rfl | hne
  · rfl
  · by_cases hw : w = .w4
    · subst hw
      simp [packBytes_w4 hne, packBytes4_length, packedSize, ceilDiv, hne]
    · rw [packBytes_of_ne_w4 hw hne, packedSize_of_ne_w4 hw (by simpa using hne)]
      simpa [packBytes56] using packLoop_length w.bits_le_eight c 0 (n := 0) (by decide)

theorem flagOf_of_getLast? {b : List Byte} {x : Byte} (h : b.getLast? = some x) : flagOf b = x := by
  rw [flagOf, List.getLastD_eq_getLast?, h, Option.getD_some]

/-! ### W = 4 (R78, R79, R126) -/

section FourBits
variable {c : List Nat}

theorem flagOf_packBytes4 (c : List Nat) :
    flagOf (packBytes4 c) = if c.length % 2 = 1 then 0x01#8 else 0x00#8 :=
  flagOf_of_getLast? (packBytes4_getLast? c)

theorem decodedLength4_packBytes4 (c : List Nat) : decodedLength4 (packBytes4 c) = c.length := by
  rw [decodedLength4, flagOf_packBytes4, packBytes4_length]
  by_cases hodd : c.length % 2 = 1 <;> simp [hodd] <;> omega

/-- The last data byte of an odd string is its last code, so its high bits are 0. -/
theorem malformed4_packBytes4 (hc : ∀ x ∈ c, x < 16) (hne : c ≠ []) : malformed4 (packBytes4 c) = none := by
  have hpos : 0 < c.length := List.length_pos_of_ne_nil hne
  unfold malformed4 flagLegal
  rw [flagOf_packBytes4, packBytes4_length, if_neg (by omega), if_neg (by omega)]
  by_cases hodd : c.length % 2 = 1
  · have hlast : c.getD (c.length - 1) 0 < 16 := by
      rw [List.getD_eq_getElem c 0 (by omega)]
      exact hc _ (List.getElem_mem _)
    have hidx : (c.length + 1) / 2 + 1 - 2 = c.length / 2 := by omega
    rw [hidx, packBytes4_unpaired hc hodd]
    simpa [hodd] using hlast
  · simp [hodd]

theorem nibbles_pairByte {x y : Nat} (hx : x < 16) (hy : y < 16) : nibbles (BitVec.ofNat 8 (x <<< 4 ||| y)) = [x, y] := by
  have hmask : (16 * x + y) &&& 0x0F = (16 * x + y) % 2 ^ 4 := Nat.and_two_pow_sub_one_eq_mod _ 4
  rw [nibbles, pairByte_toNat hx hy, hmask, Nat.shiftRight_eq_div_pow]
  congr 2 <;> omega

/-- The pair bytes hold the codes before an unpaired one. -/
theorem nibbles_packBytes4 (hc : ∀ x ∈ c, x < 16) :
    ((packBytes4 c).take (c.length / 2)).flatMap nibbles = c.take (2 * (c.length / 2)) := by
  induction c using packBytes4.induct with
  | case1 => rfl
  | case2 c => simp
  | case3 c d rest ih =>
    simp only [List.forall_mem_cons] at hc
    obtain ⟨hc0, hd, hrest⟩ := hc
    have hhalf : (c :: d :: rest).length / 2 = rest.length / 2 + 1 := Nat.add_div_right rest.length Nat.zero_lt_two
    rw [hhalf, packBytes4, List.take_succ_cons, List.flatMap_cons, nibbles_pairByte hc0 hd, ih hrest, Nat.mul_succ]
    rfl

theorem codes4_packBytes4 (hc : ∀ x ∈ c, x < 16) (hne : c ≠ []) : codes4 (packBytes4 c) = c := by
  have hpos : 0 < c.length := List.length_pos_of_ne_nil hne
  unfold codes4
  rw [flagOf_packBytes4, packBytes4_length, if_neg (by omega)]
  by_cases hodd : c.length % 2 = 1
  · have hidx : (c.length + 1) / 2 + 1 - 2 = c.length / 2 := by omega
    have hpairs : 2 * (c.length / 2) = c.length - 1 := by omega
    rw [if_pos (by simp [hodd]), hidx, nibbles_packBytes4 hc, packBytes4_unpaired hc hodd, hpairs,
      List.getD_eq_getElem c 0 (by omega), ← List.getLast_eq_getElem hne, ← List.dropLast_eq_take,
      List.dropLast_append_getLast]
  · have hidx : (c.length + 1) / 2 + 1 - 1 = c.length / 2 := by omega
    have hpairs : 2 * (c.length / 2) = c.length := by omega
    rw [if_neg (by simp [hodd]), hidx, nibbles_packBytes4 hc, hpairs, List.take_length]

end FourBits

/-! ### The loop of `Codes56` (R144) -/

section UnpackLoop
variable {w : Nat}

theorem unpackLoop_succ_keep {n : Nat} (h : w ≤ n) (k : Nat) (bs : List Byte) (acc : Nat) :
    unpackLoop w (k + 1) bs acc n =
      (acc >>> (n - w) &&& (2 ^ w - 1)) :: unpackLoop w k bs (lowBits acc (n - w)) (n - w) := by
  simp [unpackLoop, Nat.not_lt.mpr h]

/-- With too few bits for a code the loop takes the next byte to the accumulator and goes on from there. -/
theorem unpackLoop_succ_feed {n : Nat} (hw : w ≤ 8) (h : n < w) (k : Nat) (b : Byte) (bs : List Byte) (acc : Nat) :
    unpackLoop w (k + 1) (b :: bs) acc n = unpackLoop w (k + 1) bs (acc <<< 8 ||| b.toNat) (n + 8) := by
  rw [unpackLoop_succ_keep (n := n + 8) (by omega)]
  simp [unpackLoop, h]

/-- Emitting the top `m` bits of the accumulator drops them from the stream. -/
theorem streamBit_lowBits (cs : List Nat) (acc : Nat) {m n : Nat} (hm : m ≤ n) (p : Nat) :
    streamBit w cs (lowBits acc (n - m)) (n - m) p = streamBit w cs acc n (p + m) := by
  have hsub : p + m - n = p - (n - m) := by omega
  unfold streamBit
  by_cases hp : p < n - m
  · have hidx : n - m - 1 - p = n - 1 - (p + m) := by omega
    simp [lowBits, Nat.one_shiftLeft, Nat.testBit_mod_two_pow, hp, show p + m < n by omega, ← hidx,
      show n - m - 1 - p < n - m by omega]
  · simp [hp, show ¬p + m < n by omega, hsub]

/-- The code the loop emits is the next W bits of the stream. -/
theorem emittedCode_eq {w' c n : Nat} (hc : c < 2 ^ w) (hn : w ≤ n) (ds : List Nat) (acc : Nat)
    (h : ∀ p, p < w → streamBit w' ds acc n p = c.testBit (w - 1 - p)) :
    acc >>> (n - w) &&& (2 ^ w - 1) = c := by
  apply Nat.eq_of_testBit_eq
  intro i
  rw [Nat.and_two_pow_sub_one_eq_mod, Nat.testBit_mod_two_pow, Nat.testBit_shiftRight]
  by_cases hi : i < w
  · have hbit := h (w - 1 - i) (by omega)
    rw [streamBit, if_pos (by omega), show n - 1 - (w - 1 - i) = n - w + i by omega,
      show w - 1 - (w - 1 - i) = i by omega] at hbit
    simpa [hi] using hbit
  · have hzero : c.testBit i = false :=
      Nat.testBit_lt_two_pow (hc.trans_le (Nat.pow_le_pow_right Nat.zero_lt_two (by omega)))
    simp [hi, hzero]

theorem streamBit_start_head {c p : Nat} (hp : p < w) (cs : List Nat) :
    streamBit w (c :: cs) 0 0 p = c.testBit (w - 1 - p) := by
  simp [streamBit_start, Nat.div_eq_of_lt hp, Nat.mod_eq_of_lt hp]

theorem streamBit_start_tail (hw : 0 < w) (c : Nat) (cs : List Nat) (p : Nat) :
    streamBit w (c :: cs) 0 0 (p + w) = streamBit w cs 0 0 p := by
  simp [streamBit_start, Nat.add_div_right p hw]

/-- R144: where the bits fed are those of a string of codes, the loop emits the string. -/
theorem unpackLoop_eq_of_streamBit (hw : 0 < w) (hw8 : w ≤ 8) {cs : List Nat} (hcs : ∀ x ∈ cs, x < 2 ^ w)
    (bs : List Byte) (acc n : Nat) (hlen : cs.length * w ≤ n + 8 * bs.length)
    (hbits : ∀ p, p < cs.length * w → streamBit 8 (bs.map BitVec.toNat) acc n p = streamBit w cs 0 0 p) :
    unpackLoop w cs.length bs acc n = cs := by
  induction cs generalizing bs acc n with
  | nil => rfl
  | cons c cs ih =>
    simp only [List.forall_mem_cons] at hcs
    obtain ⟨hc, hrest⟩ := hcs
    rw [List.length_cons, Nat.succ_mul] at hlen hbits
    -- With enough bits for a code the loop emits it; with too few, it first feeds a byte and is then in this case.
    have emits : ∀ (bs : List Byte) (acc n : Nat), w ≤ n → cs.length * w + w ≤ n + 8 * bs.length →
        (∀ p, p < cs.length * w + w →
          streamBit 8 (bs.map BitVec.toNat) acc n p = streamBit w (c :: cs) 0 0 p) →
        unpackLoop w (cs.length + 1) bs acc n = c :: cs := by
      intro bs acc n hn hlen hbits
      rw [unpackLoop_succ_keep hn, emittedCode_eq hc hn (bs.map BitVec.toNat) acc fun p hp =>
        (hbits p (by omega)).trans (streamBit_start_head hp cs)]
      rw [ih hrest bs _ _ (by omega) fun p hp => ?_]
      rw [streamBit_lowBits _ acc hn, hbits _ (by omega), streamBit_start_tail hw]
    rw [List.length_cons]
    by_cases hn : w ≤ n
    · exact emits bs acc n hn hlen hbits
    · cases bs with
      | nil => simp only [List.length_nil] at hlen; omega
      | cons b bs =>
        rw [unpackLoop_succ_feed hw8 (by omega)]
        refine emits bs _ _ (by omega) (by simp only [List.length_cons] at hlen; omega) fun p hp => ?_
        rw [← hbits p hp, List.map_cons, streamBit_cons (by decide) b.isLt]

end UnpackLoop

/-! ### W = 5 and 6 (R80, R81) -/

section FiveAndSixBits
variable {w : Width} {c : List Nat}

theorem Width.bits_of_ne_w4 (hw : w ≠ .w4) : w.bits = 5 ∨ w.bits = 6 := by
  cases w with
  | w4 => exact absurd rfl hw
  | w5 => exact .inl rfl
  | w6 => exact .inr rfl

theorem decodedLength_of_ne_w4 (hw : w ≠ .w4) {b : List Byte} (hb : b ≠ []) :
    decodedLength w b = decodedLength56 w.bits b := by
  cases w with
  | w4 => exact absurd rfl hw
  | w5 => simp [decodedLength, hb, Width.bits]
  | w6 => simp [decodedLength, hb, Width.bits]

theorem malformedSub_of_ne_w4 (hw : w ≠ .w4) (b : List Byte) : malformedSub w b = malformed56 w.bits b := by
  cases w with
  | w4 => exact absurd rfl hw
  | w5 => rfl
  | w6 => rfl

theorem codes_of_ne_w4 (hw : w ≠ .w4) (b : List Byte) : codes w b = codes56 w.bits b := by
  cases w with
  | w4 => exact absurd rfl hw
  | w5 => rfl
  | w6 => rfl

theorem packBytes_ne_nil (hw : w ≠ .w4) (hne : c ≠ []) : packBytes w c ≠ [] := by
  rw [← List.length_pos_iff, packBytes_length, packedSize_of_ne_w4 hw (by simpa using hne)]
  exact Nat.succ_pos _

/-- The padding after `r` residual bits has room for one more code exactly where the flag byte is 1 (R76). -/
theorem padding_div_bits (hw : w ≠ .w4) {r : Nat} (hr : r < 8) :
    (8 - r) % 8 / w.bits = if 0 < r ∧ r ≤ 8 - w.bits then 1 else 0 := by
  rcases Width.bits_of_ne_w4 hw with h | h
  · rw [h]; split_ifs <;> omega
  · rw [h]; split_ifs <;> omega

/-- R80 takes the flag off because the padding would count as a code. -/
theorem decodedLength56_packBytes (hw : w ≠ .w4) (hne : c ≠ []) (hc : ∀ x ∈ c, x < 2 ^ w.bits) :
    decodedLength56 w.bits (packBytes w c) = c.length := by
  obtain ⟨hlen, -, -, hflag⟩ := packedLayoutAtFiveAndSixBits w c hw hne hc
  have hdata : (c.length * w.bits + 7) / 8 * 8 = (8 - c.length * w.bits % 8) % 8 + c.length * w.bits := by omega
  rw [decodedLength56, flagOf_of_getLast? hflag, hlen, Nat.add_sub_cancel, hdata,
    Nat.add_mul_div_right _ _ w.bits_pos, padding_div_bits hw (Nat.mod_lt _ (by decide))]
  split_ifs <;> simp

theorem mod_two_pow_eq_zero_of_getLsbD {b : Byte} {k : Nat} (h : ∀ i, i < k → b.getLsbD i = false) :
    b.toNat % 2 ^ k = 0 := by
  apply Nat.eq_of_testBit_eq
  intro i
  by_cases hi : i < k
  · simp [Nat.testBit_mod_two_pow, BitVec.testBit_toNat, h i hi]
  · simp [Nat.testBit_mod_two_pow, hi]

theorem malformed56_packBytes (hw : w ≠ .w4) (hne : c ≠ []) (hc : ∀ x ∈ c, x < 2 ^ w.bits) :
    malformed56 w.bits (packBytes w c) = none := by
  obtain ⟨hlen, -, hpad, hflag⟩ := packedLayoutAtFiveAndSixBits w c hw hne hc
  have hpos : 0 < c.length := List.length_pos_of_ne_nil hne
  have hbits : 0 < c.length * w.bits := Nat.mul_pos hpos w.bits_pos
  have hlegal : flagLegal (packBytes w c) = true := by
    rw [flagLegal, flagOf_of_getLast? hflag]
    split_ifs <;> rfl
  have hpadding : 0 < c.length * w.bits % 8 →
      ((packBytes w c).getD ((c.length * w.bits + 7) / 8 - 1) 0#8).toNat % 2 ^ (8 - c.length * w.bits % 8) = 0 := by
    intro hr
    refine mod_two_pow_eq_zero_of_getLsbD fun i hi => ?_
    have hbit := hpad (8 * ((c.length * w.bits + 7) / 8 - 1) + (7 - i)) (by omega) (by omega)
    rwa [show (8 * ((c.length * w.bits + 7) / 8 - 1) + (7 - i)) / 8 = (c.length * w.bits + 7) / 8 - 1 by omega,
      show 7 - (8 * ((c.length * w.bits + 7) / 8 - 1) + (7 - i)) % 8 = i by omega] at hbit
  simp only [malformed56, decodedLength56_packBytes hw hne hc, hlen, hlegal, ceilDiv, Nat.add_sub_cancel]
  rw [if_neg (by omega), if_neg (by omega), if_neg (by decide), if_neg (by omega), if_neg]
  exact fun ⟨hr, h⟩ => h (hpadding hr)

theorem codes56_packBytes (hw : w ≠ .w4) (hne : c ≠ []) (hc : ∀ x ∈ c, x < 2 ^ w.bits) :
    codes56 w.bits (packBytes w c) = c := by
  obtain ⟨hlen, hdata, -, -⟩ := packedLayoutAtFiveAndSixBits w c hw hne hc
  rw [codes56, if_neg (by omega), decodedLength56_packBytes hw hne hc]
  refine unpackLoop_eq_of_streamBit w.bits_pos w.bits_le_eight hc _ 0 0 (by omega) fun p hp => ?_
  have hbyte : ((packBytes w c).map BitVec.toNat).getD (p / 8) 0 = ((packBytes w c).getD (p / 8) 0#8).toNat :=
    List.getD_map _ 0#8 BitVec.toNat
  rw [streamBit_start, streamBit_start, hbyte, BitVec.testBit_toNat]
  exact hdata p hp

end FiveAndSixBits

/-! ### Every width (R130, R147) -/

section EveryWidth
variable {w : Width} {c : List Nat}

theorem malformedSub_packBytes (hc : ∀ x ∈ c, x < 2 ^ w.bits) : malformedSub w (packBytes w c) = none := by
  rcases eq_or_ne c [] with rfl | hne
  · cases w <;> rfl
  · by_cases hw : w = .w4
    · subst hw
      rw [packBytes_w4 hne]
      exact malformed4_packBytes4 hc hne
    · rw [malformedSub_of_ne_w4 hw]
      exact malformed56_packBytes hw hne hc

theorem decodedLength_packBytes (hc : ∀ x ∈ c, x < 2 ^ w.bits) : decodedLength w (packBytes w c) = c.length := by
  rcases eq_or_ne c [] with rfl | hne
  · rfl
  · by_cases hw : w = .w4
    · subst hw
      rw [packBytes_w4 hne, decodedLength, if_neg (by simp [packBytes4_length])]
      exact decodedLength4_packBytes4 c
    · rw [decodedLength_of_ne_w4 hw (packBytes_ne_nil hw hne)]
      exact decodedLength56_packBytes hw hne hc

/-- Unpacking the buffer of a string of codes gives the string back. -/
theorem codes_packBytes (hc : ∀ x ∈ c, x < 2 ^ w.bits) : codes w (packBytes w c) = c := by
  rcases eq_or_ne c [] with rfl | hne
  · cases w <;> rfl
  · by_cases hw : w = .w4
    · subst hw
      rw [packBytes_w4 hne]
      exact codes4_packBytes4 hc hne
    · rw [codes_of_ne_w4 hw]
      exact codes56_packBytes hw hne hc

end EveryWidth

end Sys2Proof.Machine

/-! SUPPORT. PACK and UNPACK on the machine (41_codec4.md R120 to R130): the codes of symbols, and the bytes the two commands
leave. -/

namespace Sys2Proof.Machine

/-! ### The code of a symbol (R37, R120) -/

/-- The byte is a symbol of the alphabet (R35). -/
def State.IsSymbol (s : State) (b : Byte) : Prop :=
  ∃ (i : Nat) (h : i < 64), i < s.width.size ∧ s.sym[i].setWidth 8 = b

/-- Both policies give a 7-bit byte that has a code its code. -/
theorem State.encode_of_code {s : State} {x : Symbol} {c : Code} (h : s.code x = some c) :
    s.encode (x.setWidth 8) = some c := by
  have hlow : (x.setWidth 8).setWidth 7 = x := BitVec.setWidth_setWidth_of_le x (by decide)
  have hsmall : ¬128 ≤ (x.setWidth 8).toNat := by
    have hx := x.isLt
    rw [BitVec.toNat_setWidth]
    omega
  cases hstrict : s.cfg.strict with
  | true => simp only [State.encode, hstrict, if_true, State.encodeStrict, if_neg hsmall, hlow, h]
  | false => simp [State.encode, hstrict, State.encodeLenient, hlow, h]

/-- A symbol's code is below 2^W and stands for the symbol. -/
theorem State.Configured.encode_of_isSymbol {s : State} (hs : s.Configured) {b : Byte} (hb : s.IsSymbol b) :
    ∃ c : Code, s.encode b = some c ∧ c.toNat < 2 ^ s.width.bits ∧ s.symbol c.toNat = b := by
  obtain ⟨i, h64, hi, rfl⟩ := hb
  have hnum : (BitVec.ofNat 6 i).toNat = i := by
    rw [BitVec.toNat_ofNat]
    omega
  refine ⟨BitVec.ofNat 6 i, State.encode_of_code (hs.code_symbol i h64 hi), ?_, ?_⟩
  · rw [hnum]
    exact hi
  · rw [hnum, State.symbol, Vector.getElem?_eq_getElem h64]
    rfl

theorem State.encodeAll_cons {s : State} {b : Byte} {c : Code} (h : s.encode b = some c) (bs : List Byte) :
    s.encodeAll (b :: bs) = c.toNat :: s.encodeAll bs := by
  simp [State.encodeAll, h]

/-- The codes of a string of symbols are below 2^W, and their symbols are the string. -/
theorem State.Configured.encodeAll_symbols {s : State} (hs : s.Configured) {bs : List Byte}
    (hbs : ∀ b ∈ bs, s.IsSymbol b) :
    (∀ x ∈ s.encodeAll bs, x < 2 ^ s.width.bits) ∧ (s.encodeAll bs).map s.symbol = bs := by
  induction bs with
  | nil => simp [State.encodeAll]
  | cons b bs ih =>
    simp only [List.forall_mem_cons] at hbs
    obtain ⟨c, hc, hlt, hsym⟩ := hs.encode_of_isSymbol hbs.1
    obtain ⟨hall, hmap⟩ := ih hbs.2
    rw [State.encodeAll_cons hc]
    exact ⟨by simpa using ⟨hlt, hall⟩, by rw [List.map_cons, hsym, hmap]⟩

theorem State.readRange_forall {s : State} {r : Range} {P : Byte → Prop}
    (h : ∀ k, k < r.len → P (s.mem.read (r.base + k))) : ∀ b ∈ s.readRange r, P b := by
  simpa [State.readRange, Memory.readBytes_eq_map] using h

/-! ### Admitted ranges (R54) -/

section Admission
variable {p : Platform} {r : Range}

theorem Admitted.end_le (h : Admitted p r) (hbase : r.base ≤ 2 ^ 32) {n : Nat} (hn : n ≤ r.len) : r.base + n ≤ 2 ^ 32 := by
  rcases h with h | ⟨h, -⟩ <;> omega

/-- The first bytes of an admitted range are admitted. -/
theorem Admitted.shorten (h : Admitted p r) {n : Nat} (hn : n ≤ r.len) : Admitted p { base := r.base, len := n } := by
  rcases h with h | ⟨hend, hall⟩
  · exact .inl (by simp only; omega)
  · exact .inr ⟨by simp only; omega, fun k hk => hall k (by simp only at hk; omega)⟩

end Admission

/-! ### The bytes PACK and UNPACK leave (R124, R127) -/

theorem Memory.readBytes_writeBytes {m : Memory} (h : m.wf = true) (a : Nat) (bs : List Byte)
    (ha : a + bs.length ≤ Config.addressSpace) : (m.writeBytes a bs).readBytes a bs.length = bs := by
  refine List.ext_getElem (by simp) fun k hk hk' => ?_
  rw [Memory.readBytes_get _ a _ k hk', Memory.read_writeBytes_inside h a bs ha k hk']

/-- Ranges whose bytes are the same list agree byte by byte. -/
theorem Memory.read_of_readBytes_eq {m m' : Memory} {a a' n : Nat} (h : m.readBytes a n = m'.readBytes a' n) {k : Nat}
    (hk : k < n) : m.read (a + k) = m'.read (a' + k) := by
  rw [← Memory.readBytes_get m a n k hk, ← Memory.readBytes_get m' a' n k hk]
  simp only [h]

section Pack
variable {s : State}

theorem exec_pack_of_ready (h : PackReady s) :
    exec .pack s = .next (s.successEnd (packMemory s) (packedSize s.width s.srcLen.toNat)) := by
  simp only [exec, execPack_eq, packFault_eq_none_iff.mpr h]

theorem encodeAll_srcRange_length (h : PackReady s) :
    (s.encodeAll (s.readRange s.srcRange)).length = s.srcLen.toNat := by
  obtain ⟨-, -, -, -, -, -, hcodes⟩ := h
  rw [State.encodeAll_length (State.readRange_forall hcodes), State.readRange_length]
  rfl

/-- The packed buffer goes, last, to a memory in canonical form: in place, the one that holds the codes over the source. -/
theorem exists_packMemory_eq (hwf : s.mem.wf = true) (h : PackReady s) :
    ∃ m : Memory, m.wf = true ∧ packMemory s =
      m.writeBytes s.dstAddr.toNat (packBytes s.width (s.encodeAll (s.readRange s.srcRange))) := by
  refine ⟨_, ?_, rfl⟩
  split_ifs with hpreserve
  · exact hwf
  · have hlen := encodeAll_srcRange_length h
    obtain ⟨-, -, -, hsrc, -, -, -⟩ := h
    refine Memory.wf_writeBytes hwf _ _ ?_
    rw [List.length_map, hlen]
    exact Admitted.end_le hsrc s.srcAddr.isLt.le le_rfl

theorem packBytes_srcRange_length (h : PackReady s) :
    (packBytes s.width (s.encodeAll (s.readRange s.srcRange))).length = packedSize s.width s.srcLen.toNat := by
  rw [packBytes_length, encodeAll_srcRange_length h]

theorem packBytes_fits (h : PackReady s) :
    s.dstAddr.toNat + (packBytes s.width (s.encodeAll (s.readRange s.srcRange))).length ≤ Config.addressSpace := by
  rw [packBytes_srcRange_length h]
  obtain ⟨-, -, -, -, hdst, hfit, -⟩ := h
  exact Admitted.end_le hdst s.dstAddr.isLt.le hfit

theorem packMemory_wf (hwf : s.mem.wf = true) (h : PackReady s) : (packMemory s).wf = true := by
  obtain ⟨m, hm, heq⟩ := exists_packMemory_eq hwf h
  rw [heq]
  exact Memory.wf_writeBytes hm _ _ (packBytes_fits h)

/-- The packed buffer stands at the destination. -/
theorem readBytes_packMemory (hwf : s.mem.wf = true) (h : PackReady s) :
    (packMemory s).readBytes s.dstAddr.toNat (packedSize s.width s.srcLen.toNat) =
      packBytes s.width (s.encodeAll (s.readRange s.srcRange)) := by
  obtain ⟨m, hm, heq⟩ := exists_packMemory_eq hwf h
  rw [heq, ← packBytes_srcRange_length h]
  exact Memory.readBytes_writeBytes hm _ _ (packBytes_fits h)

/-- A packed buffer is no longer than a command accepts, so RESULT holds its size. -/
theorem packedSize_le_maxLen (w : Width) {n : Nat} (hn : n ≤ 2 ^ 31 - 1) : packedSize w n ≤ 2 ^ 31 - 1 := by
  unfold packedSize ceilDiv
  split_ifs
  · exact Nat.zero_le _
  · cases w <;> simp only <;> omega

theorem result_toNat_of_pack (h : PackReady s) :
    (s.successEnd (packMemory s) (packedSize s.width s.srcLen.toNat)).result.toNat = packedSize s.width s.srcLen.toNat := by
  have hle := packedSize_le_maxLen s.width h.2.1
  simp only [State.successEnd, BitVec.ofInt_natCast, BitVec.toNat_ofNat]
  omega

end Pack

section Unpack
variable {u : State}

theorem exec_unpack_of_ready (h : UnpackReady u) :
    exec .unpack u =
      .next (u.successEnd (unpackMemory u) (decodedLength u.width (u.readRange u.srcRange))) := by
  simp only [exec, execUnpack_eq, unpackFault_eq_none_iff.mpr h]

/-- UNPACK of the packed buffer of a string of codes answers their number, and leaves their symbols at the destination. -/
theorem exec_unpack_of_packBytes (hwf : u.mem.wf = true) (hready : UnpackReady u) {cs : List Nat}
    (hcs : ∀ x ∈ cs, x < 2 ^ u.width.bits) (hread : u.readRange u.srcRange = packBytes u.width cs) :
    exec .unpack u = .next (u.successEnd (unpackMemory u) cs.length) ∧
      (unpackMemory u).readBytes u.dstAddr.toNat cs.length = cs.map u.symbol := by
  have hdecoded : decodedLength u.width (u.readRange u.srcRange) = cs.length := by
    rw [hread, decodedLength_packBytes hcs]
  have hsym : u.symbols (u.readRange u.srcRange) = cs.map u.symbol := by
    rw [State.symbols, hread, codes_packBytes hcs]
  refine ⟨hdecoded ▸ exec_unpack_of_ready hready, ?_⟩
  obtain ⟨-, -, -, -, hdst, -, -, hcap⟩ := hready
  have hfit : u.dstAddr.toNat + (cs.map u.symbol).length ≤ Config.addressSpace := by
    rw [List.length_map, ← hdecoded]
    exact Admitted.end_le hdst u.dstAddr.isLt.le hcap
  rw [unpackMemory, hsym]
  simpa only [List.length_map] using Memory.readBytes_writeBytes hwf _ _ hfit

end Unpack

/-! ### UNPACK after PACK (R130, R147) -/

section PackThenUnpack

/-- The machine after a PACK that met no fault, its operand registers set for an UNPACK of the RESULT bytes it wrote. -/
def State.packedFor (s : State) (dst cap : Word) : State :=
  let t := s.successEnd (packMemory s) (packedSize s.width s.srcLen.toNat)
  { t with srcAddr := s.dstAddr, srcLen := t.result, dstAddr := dst, dstCap := cap }

variable {s : State} {dst cap : Word}

theorem packedFor_srcRange (h : PackReady s) (dst cap : Word) :
    (s.packedFor dst cap).srcRange = { base := s.dstAddr.toNat, len := packedSize s.width s.srcLen.toNat } :=
  congrArg (Range.mk s.dstAddr.toNat) (result_toNat_of_pack h)

/-- What UNPACK reads is the packed buffer PACK wrote. -/
theorem packedFor_readRange (hwf : s.mem.wf = true) (h : PackReady s) (dst cap : Word) :
    (s.packedFor dst cap).readRange (s.packedFor dst cap).srcRange =
      packBytes s.width (s.encodeAll (s.readRange s.srcRange)) := by
  rw [packedFor_srcRange h]
  exact readBytes_packMemory hwf h

/-- The destination's checks are the caller's to meet; every other check of UNPACK passes after PACK. -/
theorem packedFor_unpackReady (hwf : s.mem.wf = true) (h : PackReady s)
    (hlt : ∀ x ∈ s.encodeAll (s.readRange s.srcRange), x < 2 ^ s.width.bits)
    (hsep : Separate (s.packedFor dst cap).srcRange (s.packedFor dst cap).dstRange)
    (hadm : Admitted s.platform (s.packedFor dst cap).dstRange) (hcap : s.srcLen.toNat ≤ cap.toNat) :
    UnpackReady (s.packedFor dst cap) := by
  have hread := packedFor_readRange hwf h dst cap
  have hdecoded : decodedLength s.width (packBytes s.width (s.encodeAll (s.readRange s.srcRange))) = s.srcLen.toNat :=
    (decodedLength_packBytes hlt).trans (encodeAll_srcRange_length h)
  have hrange := packedFor_srcRange h dst cap
  have hresult := result_toNat_of_pack h
  obtain ⟨hcfg, hlen, -, -, hdst, hfit, -⟩ := h
  refine ⟨hcfg, hresult.trans_le (packedSize_le_maxLen s.width hlen), hsep, ?_, hadm, ?_, ?_, ?_⟩
  · rw [hrange]
    exact Admitted.shorten hdst hfit
  · rw [hread]
    exact malformedSub_packBytes hlt
  · rw [hread]
    exact hdecoded.trans_le hlen
  · rw [hread]
    exact hdecoded.trans_le hcap

end PackThenUnpack

/-- Settles O32: PACK leaves the packed buffer of the input's codes at the destination; UNPACK of that buffer leaves the
symbols of these codes, which are the input. -/
theorem unpackOfPackRestoresTheInput : Obligations.UnpackOfPackRestoresTheInput := by
  intro s hwf hconf hready hsymbols
  refine ⟨_, exec_pack_of_ready hready, ?_⟩
  rintro dst cap u rfl hsep hadm hcap
  obtain ⟨hlt, hmap⟩ := hconf.encodeAll_symbols (bs := s.readRange s.srcRange) (State.readRange_forall hsymbols)
  have hunpack : UnpackReady (s.packedFor dst cap) := packedFor_unpackReady hwf hready hlt hsep hadm hcap
  obtain ⟨hexec, hbytes⟩ :=
    exec_unpack_of_packBytes (packMemory_wf hwf hready) hunpack hlt (packedFor_readRange hwf hready dst cap)
  rw [encodeAll_srcRange_length hready] at hexec hbytes
  refine ⟨_, hexec, ?_, ?_⟩
  · simp [State.successEnd]
  · exact fun k hk => Memory.read_of_readBytes_eq (hbytes.trans hmap) hk

end Sys2Proof.Machine

/-! SUPPORT. SEARCH and PSEARCH on a sorted collection (43_search.md R162 to R175): the comparator as an order on strings,
the binary search over a monotone comparison, and the agreement with a reference search. -/

namespace Sys2Proof.Machine

/-! ### Plain strings and their order (R162, R169) -/

theorem plain_injective : Function.Injective plain := List.map_injective_iff.2 BitVec.toNat_injective

theorem plain_prefix_iff {k x : List Byte} : plain k <+: plain x ↔ k <+: x :=
  List.prefix_map_iff_of_injective BitVec.toNat_injective

theorem not_lt_of_prefix {k x : List Nat} (h : k <+: x) : ¬x < k := by
  induction k generalizing x with
  | nil => exact List.not_lt_nil x
  | cons a k ih =>
    obtain ⟨t, rfl⟩ := h
    rw [List.cons_append, List.cons_lt_cons_iff]
    rintro (hlt | ⟨-, hlt⟩)
    · exact lt_irrefl a hlt
    · exact ih (List.prefix_append k t) hlt

/-- The strings that start with the key are contiguous (R175): a string between the key and one of them is one of them. -/
theorem prefix_of_between {k x y : List Nat} (hky : k <+: y) (hkx : ¬x < k) (hxy : ¬y < x) : k <+: x := by
  induction k generalizing x y with
  | nil => exact List.nil_prefix
  | cons a k ih =>
    obtain ⟨t, rfl⟩ := hky
    cases x with
    | nil => exact absurd (List.nil_lt_cons a k) hkx
    | cons b x =>
      simp only [List.cons_append, List.cons_lt_cons_iff, not_or, not_and] at hkx hxy
      obtain rfl : a = b := by omega
      exact List.cons_prefix_cons.2 ⟨rfl, ih (List.prefix_append k t) (hkx.2 rfl) (hxy.2 rfl)⟩

/-- How a string compares with the key: the body of `State.elementOrder` for a present element (R163). -/
def stringOrder (prefixed : Bool) (key x : List Byte) : Int :=
  if x = key ∨ (prefixed = true ∧ key <+: x) then 0 else if plain x < plain key then -1 else 1

section StringOrder
variable {prefixed : Bool} {key x y : List Byte}

theorem stringOrder_eq_zero_iff :
    stringOrder prefixed key x = 0 ↔ x = key ∨ (prefixed = true ∧ key <+: x) := by
  unfold stringOrder
  split_ifs with hmatch hlt <;> simp [hmatch]

/-- A string less than the key does not start with it, so "less" is the same in both modes. -/
theorem stringOrder_neg_iff : stringOrder prefixed key x < 0 ↔ plain x < plain key := by
  unfold stringOrder
  split_ifs with hmatch hlt
  · have hprefix : key <+: x := hmatch.elim (fun h => h ▸ List.prefix_refl x) And.right
    simpa using not_lt_of_prefix (plain_prefix_iff.2 hprefix)
  · simpa using hlt
  · simpa using hlt

theorem neg_one_le_stringOrder : -1 ≤ stringOrder prefixed key x := by
  unfold stringOrder
  split_ifs <;> decide

theorem stringOrder_le_one : stringOrder prefixed key x ≤ 1 := by
  unfold stringOrder
  split_ifs <;> decide

/-- Below the key, then matching, then above: along rising strings the comparison rises. -/
theorem stringOrder_mono (hxy : ¬plain y < plain x) : stringOrder prefixed key x ≤ stringOrder prefixed key y := by
  by_cases hx : plain x < plain key
  · have hneg := stringOrder_neg_iff (prefixed := prefixed).2 hx
    have hlow := neg_one_le_stringOrder (prefixed := prefixed) (key := key) (x := y)
    omega
  have hy : ¬stringOrder prefixed key y < 0 := fun h =>
    hxy ((stringOrder_neg_iff.1 h).trans_le (not_lt.1 hx))
  by_cases hmatch : stringOrder prefixed key y = 0
  · have hx0 : stringOrder prefixed key x = 0 := by
      rcases stringOrder_eq_zero_iff.1 hmatch with rfl | ⟨hp, hky⟩
      · exact stringOrder_eq_zero_iff.2 (.inl (plain_injective (le_antisymm (not_lt.1 hxy) (not_lt.1 hx))))
      · exact stringOrder_eq_zero_iff.2
          (.inr ⟨hp, plain_prefix_iff.1 (prefix_of_between (plain_prefix_iff.2 hky) hx hxy)⟩)
    omega
  · have hhigh := stringOrder_le_one (prefixed := prefixed) (key := key) (x := x)
    omega

/-- The end of the string before the key's decides: shorter is less, in both modes (R164). -/
theorem stringOrder_nil_left (b : Byte) (key : List Byte) : stringOrder prefixed (b :: key) [] = -1 := by
  simp [stringOrder, plain]

/-- The empty key starts every string (R164). -/
theorem stringOrder_nil_key (a : Byte) (x : List Byte) :
    stringOrder prefixed [] (a :: x) = if prefixed = true then 0 else 1 := by
  simp [stringOrder, plain]

/-- Equal first bytes decide nothing. -/
theorem stringOrder_cons_same (a : Byte) : stringOrder prefixed (a :: key) (a :: x) = stringOrder prefixed key x := by
  have hlt : plain (a :: x) < plain (a :: key) ↔ plain x < plain key := by
    simp [plain]
  simp only [stringOrder, List.cons.injEq, List.cons_prefix_cons, true_and, hlt]

/-- The first mismatch decides (R163). -/
theorem stringOrder_cons_of_ne {a b : Byte} (h : a ≠ b) :
    stringOrder prefixed (b :: key) (a :: x) = ((a.toNat : Int) - b.toNat).sign := by
  have hne : a.toNat ≠ b.toNat := fun hab => h (BitVec.toNat_injective hab)
  simp only [stringOrder, plain, List.map_cons, List.cons.injEq, h, Ne.symm h, List.cons_prefix_cons,
    List.cons_lt_cons_iff, hne, false_and, and_false, or_false, if_false]
  split_ifs with hlt
  · exact (Int.sign_eq_neg_one_of_neg (by omega)).symm
  · exact (Int.sign_eq_one_of_pos (by omega)).symm

end StringOrder

/-! ### The comparator is that order (R163) -/

/-- PREFIX mode, as the flag of `State.elementOrder`. -/
def Mode.isPrefixed : Mode → Bool
  | .exact => false
  | .prefixed => true

theorem compareSymbols_eq_stringOrder (mode : Mode) (x key : List Byte) :
    compareSymbols .unsigned mode x key = stringOrder mode.isPrefixed key x := by
  induction x generalizing key with
  | nil =>
    cases key with
    | nil => cases mode <;> rfl
    | cons b key =>
      have hshort : (([] : List Byte).length : Int) - (b :: key).length < 0 := by
        rw [List.length_nil, List.length_cons]
        omega
      rw [stringOrder_nil_left, compareSymbols, if_neg (by simp), Int.sign_eq_neg_one_of_neg hshort]
      simp
  | cons a x ih =>
    cases key with
    | nil =>
      rw [stringOrder_nil_key]
      cases mode <;> simp [compareSymbols, Mode.isPrefixed]
    | cons b key =>
      rw [compareSymbols]
      split_ifs with hab
      · rw [ih, hab, stringOrder_cons_same]
      · rw [stringOrder_cons_of_ne hab, ordKey]

section Elements
variable {s : State} {nulltol : Bool}

theorem State.elementOrder_of_absent {i : Nat} (h : s.element i = none) (prefixed : Bool) :
    s.elementOrder prefixed i = 1 := by
  rw [State.elementOrder, h]

theorem State.elementOrder_of_present {i : Nat} {x : List Byte} (h : s.element i = some x) (prefixed : Bool) :
    s.elementOrder prefixed i = stringOrder prefixed s.key x := by
  rw [State.elementOrder, h, stringOrder]

/-- A visit that does not fault answers how the element compares with the key (R163, R168, R171). -/
theorem visit_of_elementReady {i : Nat} (h : ElementReady s nulltol i) (mode : Mode) :
    visit s s.key mode nulltol i = .ok (s.elementOrder mode.isPrefixed i) := by
  rw [visit_eq_ok_iff]
  unfold ElementReady at h
  split_ifs at h ⊢ with habsent
  · exact ⟨h, State.elementOrder_of_absent (if_pos habsent) _⟩
  · obtain ⟨hlen, hadm, hwf⟩ := h
    refine ⟨hlen, hadm, hwf, ?_⟩
    rw [State.elementOrder_of_present (if_neg habsent), State.compare, Config.keyOrder, compareSymbols_eq_stringOrder]

theorem State.elementOrder_eq_zero_iff {prefixed : Bool} {i : Nat} :
    s.elementOrder prefixed i = 0 ↔ ∃ x, s.element i = some x ∧ (x = s.key ∨ (prefixed = true ∧ s.key <+: x)) := by
  cases h : s.element i with
  | none => simp [State.elementOrder_of_absent h]
  | some x => simp [State.elementOrder_of_present h, stringOrder_eq_zero_iff]

theorem State.elementOrder_neg_iff {prefixed : Bool} {i : Nat} :
    s.elementOrder prefixed i < 0 ↔ ∃ x, s.element i = some x ∧ plain x < plain s.key := by
  cases h : s.element i with
  | none => simp [State.elementOrder_of_absent h]
  | some x => simp [State.elementOrder_of_present h, stringOrder_neg_iff]

theorem State.elementOrder_le_one (prefixed : Bool) (i : Nat) : s.elementOrder prefixed i ≤ 1 := by
  cases h : s.element i with
  | none => exact (State.elementOrder_of_absent h prefixed).le
  | some x => exact (State.elementOrder_of_present h prefixed).trans_le stringOrder_le_one

/-- On a sorted collection the comparison rises with the index, absent slots last (R168, R169). -/
theorem SortedCollection.elementOrder_mono (hs : SortedCollection s) (prefixed : Bool) {i j : Nat} (hij : i ≤ j)
    (hj : j < s.colLen.toNat) : s.elementOrder prefixed i ≤ s.elementOrder prefixed j := by
  rcases hij.eq_or_lt with rfl | hlt
  · exact le_rfl
  have hprec := hs j hj i hlt
  cases hy : s.element j with
  | none =>
    rw [State.elementOrder_of_absent hy]
    exact State.elementOrder_le_one prefixed i
  | some y =>
    cases hx : s.element i with
    | none => simp [mayPrecede, hx, hy] at hprec
    | some x =>
      rw [State.elementOrder_of_present hx, State.elementOrder_of_present hy]
      simp only [mayPrecede, hx, hy, decide_eq_true_eq] at hprec
      exact stringOrder_mono hprec

end Elements

/-! ### The binary search over a monotone comparison (R171) -/

/-- What a binary search of `n` indices answers: the index of a match, or -(p) - 1 where the indices below `p` compare as
less and the others as greater (R170). -/
def SearchAnswer (c : Nat → Int) (n : Nat) (r : Int) : Prop :=
  (0 ≤ r ∧ r < n ∧ c r.toNat = 0) ∨
    ∃ p : Nat, r = -(p : Int) - 1 ∧ p ≤ n ∧ (∀ i, i < p → c i < 0) ∧ ∀ i, p ≤ i → i < n → 0 < c i

section Loop
variable {probe : Nat → Except SpeFault Int} {c : Nat → Int} {n : Nat}

/-- Where the loop's interval is empty, its lower end is the insertion point. -/
theorem searchAnswer_of_empty {lo hi : Int} (hlo : 0 ≤ lo) (hhi : hi < n) (hle : lo = hi + 1)
    (hbelow : ∀ i : Nat, (i : Int) < lo → c i < 0) (habove : ∀ i : Nat, hi < i → i < n → 0 < c i) :
    SearchAnswer c n (-(lo + 1)) :=
  .inr ⟨lo.toNat, by omega, by omega, fun i hip => hbelow i (by omega), fun i hpi => habove i (by omega)⟩

/-- The loop's invariant: below `lo` every index compares as less, above `hi` as greater. -/
theorem searchLoop_answers (hprobe : ∀ i, i < n → probe i = .ok (c i))
    (hmono : ∀ i j, i ≤ j → j < n → c i ≤ c j) {fuel : Nat} {lo hi : Int} (hlo : 0 ≤ lo) (hhi : hi < n)
    (hle : lo ≤ hi + 1) (hfuel : hi + 1 - lo ≤ fuel) (hbelow : ∀ i : Nat, (i : Int) < lo → c i < 0)
    (habove : ∀ i : Nat, hi < i → i < n → 0 < c i) :
    ∃ r, searchLoop probe fuel lo hi = .ok r ∧ SearchAnswer c n r := by
  induction fuel generalizing lo hi with
  | zero => exact ⟨_, rfl, searchAnswer_of_empty hlo hhi (by omega) hbelow habove⟩
  | succ fuel ih =>
    rw [searchLoop]
    split_ifs with hcont
    · obtain ⟨mid, hmid⟩ : ∃ mid : Nat, (lo + hi) / 2 = mid := ⟨((lo + hi) / 2).toNat, by omega⟩
      have hmidn : mid < n := by omega
      simp only [hmid, Int.toNat_natCast, hprobe mid hmidn]
      split_ifs with hneg hpos
      · exact ih (by omega) hhi (by omega) (by omega)
          (fun i hbound => (hmono i mid (by omega) hmidn).trans_lt hneg) habove
      · exact ih hlo (by omega) (by omega) (by omega) hbelow
          fun i hbound hin => hpos.trans_le (hmono mid i (by omega) hin)
      · exact ⟨_, rfl, .inl ⟨by omega, by omega, by rw [Int.toNat_natCast]; omega⟩⟩
    · exact ⟨_, rfl, searchAnswer_of_empty hlo hhi (by omega) hbelow habove⟩

theorem binarySearch_answers (hprobe : ∀ i, i < n → probe i = .ok (c i))
    (hmono : ∀ i j, i ≤ j → j < n → c i ≤ c j) : ∃ r, binarySearch probe n = .ok r ∧ SearchAnswer c n r :=
  searchLoop_answers hprobe hmono (by omega) (by omega) (by omega) (by omega) (fun i hi => by omega)
    fun i hi hn => by omega

end Loop

/-- The number of indices that satisfy a test, where those that do are the first `p`. -/
theorem countP_range_of_iff_lt {f : Nat → Bool} {n p : Nat} (hp : p ≤ n) (h : ∀ i, i < n → (f i = true ↔ i < p)) :
    (List.range n).countP f = p := by
  obtain ⟨m, rfl⟩ := Nat.exists_eq_add_of_le hp
  have hfirst : (List.range p).countP f = p := by
    rw [List.countP_eq_length.2 fun i hi => ?_, List.length_range]
    have hi := List.mem_range.1 hi
    exact (h i (by omega)).2 hi
  have hrest : ((List.range m).map (p + ·)).countP f = 0 := by
    refine List.countP_eq_zero.2 (List.forall_mem_map.2 fun k hk => ?_)
    have hk := List.mem_range.1 hk
    rw [h (p + k) (by omega)]
    omega
  rw [List.range_add, List.countP_append, hfirst, hrest, Nat.add_zero]

/-! ### What a search of a sorted collection answers (R172 to R175) -/

section SortedSearch
variable {s : State} {nulltol : Bool}

/-- The insertion point is the number of indices that compare as less, in either mode. -/
theorem State.insertionPoint_eq {prefixed : Bool} {p : Nat} (hp : p ≤ s.colLen.toNat)
    (hbelow : ∀ i, i < p → s.elementOrder prefixed i < 0)
    (habove : ∀ i, p ≤ i → i < s.colLen.toNat → 0 < s.elementOrder prefixed i) : s.insertionPoint = p := by
  refine countP_range_of_iff_lt hp fun i hi => ?_
  have hless : ((s.element i).any fun x => decide (plain x < plain s.key)) = true ↔ s.elementOrder prefixed i < 0 := by
    simp [State.elementOrder_neg_iff, Option.any_eq_true]
  rw [hless]
  refine ⟨fun hneg => ?_, hbelow i⟩
  by_contra hpi
  exact (habove i (not_lt.1 hpi) hi).not_gt hneg

theorem searchCommand_of_result {mode : Mode} {r : Int} (hready : SearchReady s nulltol)
    (hr : s.searchResult mode nulltol = .ok r) : s.searchCommand mode nulltol = s.successEnd s.mem r := by
  simp only [State.searchCommand, searchFault_eq_none_iff.2 hready, hr, succeed_eq_successEnd]

/-- In either mode, a search of a sorted collection answers a match if there is one, and else the insertion point. -/
theorem searchCommand_of_sorted (mode : Mode) (hready : SearchReady s nulltol) (helems : ElementsReady s nulltol)
    (hsorted : SortedCollection s) :
    ∃ r : Int, s.searchCommand mode nulltol = s.successEnd s.mem r ∧
      ((∃ i, i < s.colLen.toNat ∧ s.elementOrder mode.isPrefixed i = 0) →
        0 ≤ r ∧ r < s.colLen.toNat ∧ s.elementOrder mode.isPrefixed r.toNat = 0) ∧
      ((∀ i, i < s.colLen.toNat → s.elementOrder mode.isPrefixed i ≠ 0) → r = -(s.insertionPoint : Int) - 1) := by
  obtain ⟨r, hr, hanswer⟩ := binarySearch_answers
    (fun i hi => visit_of_elementReady (helems i hi) mode)
    (fun i j hij hj => SortedCollection.elementOrder_mono hsorted mode.isPrefixed hij hj)
  refine ⟨r, searchCommand_of_result hready hr, ?_⟩
  rcases hanswer with ⟨h0, hn, hmatch⟩ | ⟨p, rfl, hp, hbelow, habove⟩
  · exact ⟨fun _ => ⟨h0, hn, hmatch⟩, fun hnone => absurd hmatch (hnone r.toNat (by omega))⟩
  · refine ⟨?_, fun _ => by rw [State.insertionPoint_eq hp hbelow habove]⟩
    rintro ⟨i, hi, hmatch⟩
    rcases lt_or_ge i p with hip | hip
    · exact absurd hmatch (hbelow i hip).ne
    · exact absurd hmatch (habove i hip hi).ne'

theorem State.elementOrder_exact_eq_zero_iff {i : Nat} :
    s.elementOrder Mode.exact.isPrefixed i = 0 ↔ s.element i = some s.key := by
  simp [State.elementOrder_eq_zero_iff, Mode.isPrefixed]

theorem State.elementOrder_prefixed_eq_zero_iff {i : Nat} :
    s.elementOrder Mode.prefixed.isPrefixed i = 0 ↔ ∃ x, s.element i = some x ∧ s.key <+: x := by
  have hor : ∀ x, (x = s.key ∨ s.key <+: x) ↔ s.key <+: x := fun x =>
    or_iff_right_of_imp fun h => h ▸ List.prefix_refl x
  simp [State.elementOrder_eq_zero_iff, Mode.isPrefixed, hor]

end SortedSearch

/-- Settles O36: in exact mode a match is an element that equals the key. -/
theorem searchAgreesWithAReferenceSearch : Obligations.SearchAgreesWithAReferenceSearch := by
  intro s nulltol hready helems hsorted
  obtain ⟨r, hr, hfound, hnone⟩ := searchCommand_of_sorted .exact hready helems hsorted
  simp only [State.elementOrder_exact_eq_zero_iff, ne_eq] at hfound hnone
  exact ⟨r, congrArg Host.Outcome.next hr, hfound, hnone⟩

/-- Settles O37: in PREFIX mode a match is an element that starts with the key; where none does none equals it either, so
both searches answer the insertion point. -/
theorem prefixSearchFindsAPrefixedElement : Obligations.PrefixSearchFindsAPrefixedElement := by
  intro s nulltol hready helems hsorted
  obtain ⟨r, hr, -, hrnone⟩ := searchCommand_of_sorted .exact hready helems hsorted
  obtain ⟨q, hq, hqfound, hqnone⟩ := searchCommand_of_sorted .prefixed hready helems hsorted
  simp only [State.elementOrder_exact_eq_zero_iff, ne_eq] at hrnone
  simp only [State.elementOrder_prefixed_eq_zero_iff, ne_eq] at hqfound hqnone
  refine ⟨r, q, congrArg Host.Outcome.next hr, congrArg Host.Outcome.next hq, ?_, fun hnone => ?_⟩
  · rintro ⟨i, x, hi, hx, hprefix⟩
    exact hqfound ⟨i, hi, x, hx, hprefix⟩
  · rw [hqnone fun i hi ⟨x, hx, hprefix⟩ => hnone i x hi hx hprefix,
      hrnone fun i hi hkey => hnone i s.key hi hkey (List.prefix_refl _)]

end Sys2Proof.Machine

/-! SUPPORT. The ends of a command (60_exceptions.md R203, R205, R206; 10_state.md R42): the checks come first, so a command
that faults leaves memory as it was. -/

namespace Sys2Proof.Machine

/-! ### How each command ends (R101, R124, R127, R166, R172) -/

section CommandEnds
variable {s t : State}

/-- PACK fails a check, or passes them all and writes. -/
theorem exec_pack_cases (h : exec .pack s = .next t) :
    (∃ f, packFault s = some f ∧ t = s.failWith f) ∨
      (packFault s = none ∧ t = s.successEnd (packMemory s) (packedSize s.width s.srcLen.toNat)) := by
  simp only [exec, execPack_eq] at h
  cases hf : packFault s with
  | some f => exact .inl ⟨f, rfl, by simpa [hf] using h.symm⟩
  | none => exact .inr ⟨rfl, by simpa [hf] using h.symm⟩

/-- UNPACK fails a check, or passes them all and writes. -/
theorem exec_unpack_cases (h : exec .unpack s = .next t) :
    (∃ f, unpackFault s = some f ∧ t = s.failWith f) ∨
      (unpackFault s = none ∧
        t = s.successEnd (unpackMemory s) (decodedLength s.width (s.readRange s.srcRange))) := by
  simp only [exec, execUnpack_eq] at h
  cases hf : unpackFault s with
  | some f => exact .inl ⟨f, rfl, by simpa [hf] using h.symm⟩
  | none => exact .inr ⟨rfl, by simpa [hf] using h.symm⟩

theorem State.compareCommand_cases (s : State) (mode : Mode) :
    (∃ f, s.compareCommand mode = s.failWith f) ∨ ∃ res, s.compareCommand mode = s.succeed res := by
  unfold State.compareCommand
  cases compareFault s with
  | some f => exact .inl ⟨f, rfl⟩
  | none => exact .inr ⟨_, rfl⟩

/-- A search faults at its operands or at an element it visits, or answers a result. -/
theorem State.searchCommand_cases (s : State) (mode : Mode) (nulltol : Bool) :
    (∃ f, s.searchCommand mode nulltol = s.failWith f) ∨ ∃ res, s.searchCommand mode nulltol = s.succeed res := by
  unfold State.searchCommand
  cases searchFault s nulltol with
  | some f => exact .inl ⟨f, rfl⟩
  | none =>
    cases s.searchResult mode nulltol with
    | error f => exact .inl ⟨f, rfl⟩
    | ok res => exact .inr ⟨res, rfl⟩

theorem Width.sel_of_ofSel {wsel : BitVec 2} {w : Width} (h : Width.ofSel wsel = some w) : w.sel = wsel := by
  revert wsel w
  decide

theorem exec_config_of_illegal {wsel : BitVec 2} (strict preserve dflt : Bool) (h : Width.ofSel wsel = none) :
    exec (.config wsel strict preserve dflt) s = .next (s.failWith illegalWord) := by
  simp [exec, execConfig, h]

/-- Every command ends in fault entry on the state it found, where a CONFIG may first drop the configuration (R109), or in
success completion. -/
theorem exec_cases {i : Instr} (h : exec i s = .next t) :
    (∃ f, t = s.failWith f) ∨ (∃ f, t = s.unconfigure.failWith f) ∨ ∃ (u : State) (res : Int), t = u.succeed res := by
  cases i with
  | config wsel strict preserve dflt =>
    cases hw : Width.ofSel wsel with
    | none =>
      rw [exec_config_of_illegal strict preserve dflt hw] at h
      exact .inl ⟨illegalWord, (Host.Outcome.next.inj h).symm⟩
    | some w =>
      obtain rfl := Width.sel_of_ofSel hw
      obtain ⟨f, -, hfail⟩ | ⟨-, hcommit⟩ := exec_config_cases h
      · exact .inr (.inl ⟨f, hfail⟩)
      · exact .inr (.inr ⟨_, _, hcommit⟩)
  | pack =>
    obtain ⟨f, -, hfail⟩ | ⟨-, hpack⟩ := exec_pack_cases h
    · exact .inl ⟨f, hfail⟩
    · exact .inr (.inr ⟨{ s with mem := packMemory s }, _, hpack⟩)
  | unpack =>
    obtain ⟨f, -, hfail⟩ | ⟨-, hunpack⟩ := exec_unpack_cases h
    · exact .inl ⟨f, hfail⟩
    · exact .inr (.inr ⟨{ s with mem := unpackMemory s }, _, hunpack⟩)
  | search nulltol =>
    obtain rfl : s.searchCommand .exact nulltol = t := Host.Outcome.next.inj h
    exact (s.searchCommand_cases .exact nulltol).imp_right fun ⟨res, hres⟩ => .inr ⟨s, res, hres⟩
  | psearch nulltol =>
    obtain rfl : s.searchCommand .prefixed nulltol = t := Host.Outcome.next.inj h
    exact (s.searchCommand_cases .prefixed nulltol).imp_right fun ⟨res, hres⟩ => .inr ⟨s, res, hres⟩
  | cmp =>
    obtain rfl : s.compareCommand .exact = t := Host.Outcome.next.inj h
    exact (s.compareCommand_cases .exact).imp_right fun ⟨res, hres⟩ => .inr ⟨s, res, hres⟩
  | pcmp =>
    obtain rfl : s.compareCommand .prefixed = t := Host.Outcome.next.inj h
    exact (s.compareCommand_cases .prefixed).imp_right fun ⟨res, hres⟩ => .inr ⟨s, res, hres⟩

/-! ### A fault leaves memory alone (R206) -/

theorem exec_mem_of_err_true {i : Instr} (h : exec i s = .next t) (herr : t.status.err = true) : t.mem = s.mem := by
  obtain ⟨f, rfl⟩ | ⟨f, rfl⟩ | ⟨u, res, rfl⟩ := exec_cases h
  · rfl
  · rfl
  · simp at herr

/-- A word that does not decode is fault entry alone (R86). -/
theorem engineStep_mem_of_err_true (hbusy : s.status.busy = true) (h : engineStep s = .next t)
    (herr : t.status.err = true) : t.mem = s.mem := by
  by_cases hd : ∃ i, decode s.cmdLatch = .ok i
  · obtain ⟨i, hi⟩ := hd
    have hexec : exec i s = .next t := by simpa [engineStep, hbusy, hi] using h
    exact exec_mem_of_err_true hexec herr
  · rw [engineStep_of_not_decode hbusy hd] at h
    obtain rfl := Host.Outcome.next.inj h
    rfl

end CommandEnds

/-- Settles O42: success completion clears ERR, and either fault end keeps memory; the engine's step is exec of the latched
command or fault entry. -/
theorem faultingCommandsWriteNoMemory : Obligations.FaultingCommandsWriteNoMemory := by
  refine ⟨fun _ _ _ => exec_mem_of_err_true, fun s t rest hbusy hturns hstep herr => ?_⟩
  rw [step_of_turns_cons hturns, takeTurn_engine] at hstep
  exact engineStep_mem_of_err_true (s := { s with turns := rest }) hbusy hstep herr

end Sys2Proof.Machine

/-! SUPPORT. The register block after reset (70_reset_and_hazards.md R230): what a read of it finds by offset, and the value
each register takes. -/

namespace Sys2Proof.Machine

/-! ### Register reads by offset (R21, R22) -/

theorem State.readBlock_of_ofOffset {s : State} {offset : BitVec 9} {r : Reg} (ha : offset.toNat % 4 = 0)
    (hr : Reg.ofOffset offset.toNat = some r) : s.readBlock offset 4 = some (s.readReg r) := by
  simp only [State.readBlock, accessLegal_word ha, hr, if_true]

theorem State.readBlock_of_unlisted {s : State} {offset : BitVec 9} (ha : offset.toNat % 4 = 0)
    (hr : Reg.ofOffset offset.toNat = none) : s.readBlock offset 4 = some 0#32 := by
  simp only [State.readBlock, accessLegal_word ha, hr, if_true]

/-- Of the aligned offsets, 0x038 alone is ID's. -/
theorem Reg.ofOffset_eq_ident_iff {n : Nat} (ha : n % 4 = 0) : Reg.ofOffset n = some .ident ↔ n = 0x038 := by
  refine ⟨fun h => ?_, fun h => h ▸ rfl⟩
  unfold Reg.ofOffset at h
  split at h
  · simp at h
  · have hword : n / 4 = 14 := by
      split at h
      case h_15 hword => exact hword
      all_goals simp at h
    omega

/-! ### The reset values (R21, R230) -/

/-- Every register but ID is 0; CFG and SYMTAB read 0 because CFG_OK is 0. -/
theorem State.readReg_reset (r : Reg) :
    State.reset.readReg r = if r = .ident then 0x53504501#32 else 0#32 := by
  cases r <;> rfl

/-- A reset keeps of the state it finds nothing that a register shows. -/
theorem State.readReg_applyReset (s : State) (r : Reg) : s.applyReset.readReg r = State.reset.readReg r := by
  cases r <;> rfl

/-- A state whose registers all hold their reset values shows them at every aligned offset. -/
theorem State.readBlock_of_readReg_reset {s : State} (hs : ∀ r, s.readReg r = State.reset.readReg r)
    {offset : BitVec 9} (ha : offset.toNat % 4 = 0) :
    s.readBlock offset 4 = some (if offset = 0x038#9 then 0x53504501#32 else 0#32) := by
  have hident : Reg.ofOffset offset.toNat = some .ident ↔ offset = 0x038#9 := by
    rw [Reg.ofOffset_eq_ident_iff ha, ← BitVec.toNat_inj]
    rfl
  rw [← if_congr hident rfl rfl]
  cases hr : Reg.ofOffset offset.toNat with
  | none => simp [State.readBlock_of_unlisted ha hr]
  | some r => simp [State.readBlock_of_ofOffset ha hr, hs, State.readReg_reset]

theorem takeTurn_reset (s : State) : takeTurn .reset s = .next s.applyReset := rfl

theorem step_of_reset_turn {s : State} {rest : List Turn} (h : s.turns = .reset :: rest) :
    step s = .next ({ s with turns := rest } : State).applyReset :=
  (step_of_turns_cons h).trans (takeTurn_reset _)

/-- Settles O13: the state that reset makes and the state a reset step reaches hold the same register values. -/
theorem resetRegisterValues : Obligations.ResetRegisterValues := fun _ ha =>
  ⟨State.readBlock_of_readReg_reset (fun _ => rfl) ha, fun s rest hturns =>
    ⟨_, step_of_reset_turn hturns,
      State.readBlock_of_readReg_reset (State.readReg_applyReset { s with turns := rest }) ha⟩⟩

end Sys2Proof.Machine

/-! SUPPORT. The command word as its fields, and the decoder and the encoder as inverses (30_encoding.md R84 to R89, R93). -/

namespace Sys2Proof

/-! ### A word and its options from their fields (R84, R87, R88) -/

/-- A word whose reserved bits are 0 is the command word of its OPT and OP. -/
theorem commandWord_fields {w : Word} (hlow : w.extractLsb' 4 4 = 0#4) (hhigh : w.extractLsb' 16 16 = 0#16) :
    commandWord (optField w) (opField w) = w := by
  have join : ∀ {hi lo m n : Nat}, hi = lo + n → w.extractLsb' hi m ++ w.extractLsb' lo n = w.extractLsb' lo (m + n) :=
    BitVec.extractLsb'_append_extractLsb'_eq_extractLsb'
  calc commandWord (optField w) (opField w)
      = w.extractLsb' 16 16 ++ w.extractLsb' 8 8 ++ w.extractLsb' 4 4 ++ w.extractLsb' 0 4 := by rw [hlow, hhigh]; rfl
    _ = w.extractLsb' 0 32 := by
        rw [join (hi := 16) (lo := 8) rfl, join (hi := 8) (lo := 4) rfl, join (hi := 4) (lo := 0) rfl]
    _ = w := BitVec.extractLsb'_eq_self

theorem searchOptions_eq : ∀ {opt : BitVec 8}, opt.extractLsb' 1 7 = 0#7 →
    0#7 ++ BitVec.ofBool (opt.getLsbD 0) = opt := by
  decide

theorem configOptions_eq : ∀ {opt : BitVec 8}, opt.extractLsb' 5 3 = 0#3 →
    0#3 ++ BitVec.ofBool (opt.getLsbD 4) ++ BitVec.ofBool (opt.getLsbD 3) ++ BitVec.ofBool (opt.getLsbD 2) ++
      opt.extractLsb' 0 2 = opt := by
  decide

/-! ### What each decoder of options answers (R87 to R89) -/

section Options
variable {opt : BitVec 8} {i : Instr}

theorem decodeNoOptions_eq_ok_iff {j : Instr} : decodeNoOptions opt j = .ok i ↔ opt = 0#8 ∧ j = i := by
  unfold decodeNoOptions
  split_ifs with h <;> simp [h]

theorem decodeSearch_eq_ok_iff {j : Bool → Instr} :
    decodeSearch opt j = .ok i ↔ opt.extractLsb' 1 7 = 0#7 ∧ j (opt.getLsbD 0) = i := by
  unfold decodeSearch
  split_ifs with h <;> simp [h]

theorem decodeConfig_eq_ok_iff :
    decodeConfig opt = .ok i ↔ (opt.extractLsb' 5 3 = 0#3 ∧ wselLegal (opt.extractLsb' 0 2) = true) ∧
      .config (opt.extractLsb' 0 2) (opt.getLsbD 2) (opt.getLsbD 3) (opt.getLsbD 4) = i := by
  simp only [decodeConfig]
  split_ifs with h <;> simp [h]

end Options

/-! ### The word of a decoded command (R86, R93) -/

/-- Every bit of a word that decodes is in the command: encoding it gives the word. -/
theorem wellFormed_and_encode_of_decode {w : Word} {i : Instr} (h : decode w = .ok i) :
    i.wellFormed = true ∧ encode i = w := by
  unfold decode at h
  split_ifs at h with hlow hhigh
  rw [not_not] at hlow hhigh
  have hop : ∀ {n : Nat}, (opField w).toNat = n → opField w = BitVec.ofNat 4 n := fun hn => by
    rw [← hn, BitVec.ofNat_toNat, BitVec.setWidth_eq]
  have hword : ∀ {n : Nat} {opt : BitVec 8}, (opField w).toNat = n → opt = optField w →
      commandWord opt (BitVec.ofNat 4 n) = w := fun hn hopt => by
    rw [hopt, ← hop hn, commandWord_fields hlow hhigh]
  split at h
  next hn =>
    obtain ⟨⟨hzero, hlegal⟩, rfl⟩ := decodeConfig_eq_ok_iff.1 h
    exact ⟨hlegal, hword hn (configOptions_eq hzero)⟩
  next hn =>
    obtain ⟨hzero, rfl⟩ := decodeNoOptions_eq_ok_iff.1 h
    exact ⟨rfl, hword hn hzero.symm⟩
  next hn =>
    obtain ⟨hzero, rfl⟩ := decodeNoOptions_eq_ok_iff.1 h
    exact ⟨rfl, hword hn hzero.symm⟩
  next hn =>
    obtain ⟨hzero, rfl⟩ := decodeSearch_eq_ok_iff.1 h
    exact ⟨rfl, hword hn (searchOptions_eq hzero)⟩
  next hn =>
    obtain ⟨hzero, rfl⟩ := decodeSearch_eq_ok_iff.1 h
    exact ⟨rfl, hword hn (searchOptions_eq hzero)⟩
  next hn =>
    obtain ⟨hzero, rfl⟩ := decodeNoOptions_eq_ok_iff.1 h
    exact ⟨rfl, hword hn hzero.symm⟩
  next hn =>
    obtain ⟨hzero, rfl⟩ := decodeNoOptions_eq_ok_iff.1 h
    exact ⟨rfl, hword hn hzero.symm⟩
  next => simp at h

theorem decode_encode (i : Instr) (h : i.wellFormed = true) : decode (encode i) = .ok i := by
  cases i with
  | config wsel strict preserve dflt => exact Laws.DecodeEncode.config wsel strict preserve dflt h
  | pack => exact Laws.DecodeEncode.pack h
  | unpack => exact Laws.DecodeEncode.unpack h
  | search nulltol => exact Laws.DecodeEncode.search nulltol h
  | psearch nulltol => exact Laws.DecodeEncode.psearch nulltol h
  | cmp => exact Laws.DecodeEncode.cmp h
  | pcmp => exact Laws.DecodeEncode.pcmp h

/-- Settles O2: a word that decodes is put together again from its fields, and each command decodes from its word. -/
theorem decodeAndEncodeAgree : Obligations.DecodeAndEncodeAgree := fun _ i =>
  ⟨wellFormed_and_encode_of_decode, fun ⟨hwf, hw⟩ => hw ▸ decode_encode i hwf⟩

/-- Settles O3: each word is the one its command assembles to; the other three are not legal words (R86). -/
theorem syntaxTableWordsDecode : Obligations.SyntaxTableWordsDecode := by
  have illegal : ∀ {w : Word}, ¬Machine.legalWord w → ∀ i, decode w ≠ .ok i := fun hw i hi =>
    hw ((decode_ok_iff_legalWord _).1 ⟨i, hi⟩)
  exact ⟨decode_encode (.config 0#2 false false false) rfl, decode_encode (.config 1#2 true true false) rfl,
    decode_encode (.config 2#2 false false true) rfl, decode_encode .pack rfl, decode_encode .unpack rfl,
    decode_encode (.search true) rfl, decode_encode (.psearch false) rfl, decode_encode .cmp rfl,
    decode_encode .pcmp rfl, illegal (by decide), illegal (by decide), illegal (by decide)⟩

end Sys2Proof

/-! SUPPORT. Which lists of bytes are packed buffers (30_encoding.md R78 to R81): the checks from a buffer's bytes, and that
the buffers that pass them are those PACK makes. -/

namespace Sys2Proof.Machine

/-! ### The checks from the bytes (R78 to R81) -/

section Checks
variable {b : List Byte}

theorem flagOf_eq_getD (b : List Byte) : flagOf b = b.getD (b.length - 1) 0#8 := by
  rw [flagOf, List.getLastD_eq_getLast?, List.getLast?_eq_getElem?, List.getD_eq_getElem?_getD]

theorem flagLegal_iff : flagLegal b = true ↔ (flagOf b).toNat < 2 := by
  simp only [flagLegal, Bool.or_eq_true, beq_iff_eq, ← BitVec.toNat_inj, BitVec.toNat_ofNat]
  omega

theorem flagOf_eq_one_iff : flagOf b = 0x01#8 ↔ (flagOf b).toNat = 1 := by
  rw [← BitVec.toNat_inj]
  rfl

/-- R79: the checks of a W = 4 buffer with a flag byte and a data byte. -/
theorem malformed4_of_two_le (h : 2 ≤ b.length) :
    malformed4 b =
      if 2 ≤ (flagOf b).toNat then some 2#8
      else if (flagOf b).toNat = 1 ∧ 16 ≤ (b.getD (b.length - 2) 0#8).toNat then some 3#8
      else none := by
  simp only [malformed4, flagOf_eq_one_iff, Bool.not_eq_true', ← Bool.not_eq_true, flagLegal_iff, Nat.not_lt, subFlag,
    subPadding]
  rw [if_neg (by omega), if_neg (by omega)]

/-- R81: the checks of a W = 5 or W = 6 buffer with a flag byte and a data byte. -/
theorem malformed56_of_two_le {w : Nat} (h : 2 ≤ b.length) :
    malformed56 w b =
      if 2 ≤ (flagOf b).toNat then some 2#8
      else if decodedLength56 w b = 0 ∨ (decodedLength56 w b * w + 7) / 8 ≠ b.length - 1 then some 1#8
      else if 0 < decodedLength56 w b * w % 8 ∧
          (b.getD (b.length - 2) 0#8).toNat % 2 ^ (8 - decodedLength56 w b * w % 8) ≠ 0 then some 3#8
      else none := by
  simp only [malformed56, Bool.not_eq_true', ← Bool.not_eq_true, flagLegal_iff, Nat.not_lt, subFlag, subPadding,
    subLength, ceilDiv]
  rw [if_neg (by omega), if_neg (by omega)]
  rfl

theorem malformedSub_of_length_one (w : Width) (h : b.length = 1) : malformedSub w b = some 1#8 := by
  cases w <;> simp [malformedSub, malformed4, malformed56, h, subLength]

/-- R78. -/
theorem decodedLength_w4_of_flag (h : 2 ≤ b.length) (hf : (flagOf b).toNat < 2) :
    decodedLength .w4 b = 2 * (b.length - 1) - (flagOf b).toNat := by
  simp only [decodedLength, decodedLength4, flagOf_eq_one_iff]
  split_ifs <;> omega

/-- R80. -/
theorem decodedLength56_of_flag (w : Nat) (hf : (flagOf b).toNat < 2) :
    decodedLength56 w b = (b.length - 1) * 8 / w - (flagOf b).toNat := by
  rw [decodedLength56, Nat.mod_eq_of_lt hf]

end Checks

/-- Settles O27: with a flag byte and a data byte the checks are the ladders above; each clause picks a rung. -/
theorem wellFormednessChecksInOrder : Obligations.WellFormednessChecksInOrder := by
  intro w b B L f
  refine ⟨?_, malformedSub_of_length_one w, ?_⟩
  · rintro rfl
    cases w <;> exact ⟨rfl, rfl⟩
  · rintro hlen rfl rfl
    have hnil : b ≠ [] := List.length_pos_iff.1 (by omega)
    rw [← flagOf_eq_getD, show b.length - 1 - 1 = b.length - 2 by omega]
    refine ⟨fun hf => ?_, ?_, ?_⟩
    · cases w with
      | w4 => rw [malformedSub, malformed4_of_two_le hlen, if_pos hf]
      | w5 => rw [malformedSub, malformed56_of_two_le hlen, if_pos hf]
      | w6 => rw [malformedSub, malformed56_of_two_le hlen, if_pos hf]
    · rintro hf rfl rfl
      rw [malformedSub, malformed4_of_two_le hlen, if_neg (by omega)]
      exact ⟨decodedLength_w4_of_flag hlen hf, fun h1 hx => if_pos ⟨h1, hx⟩, fun hx => if_neg (by omega)⟩
    · rintro hf hw rfl
      rw [malformedSub_of_ne_w4 hw, decodedLength_of_ne_w4 hw hnil, malformed56_of_two_le hlen, if_neg (by omega),
        decodedLength56_of_flag _ hf]
      refine ⟨rfl, fun hL => if_pos hL, fun hL hB => ?_⟩
      rw [if_neg (by omega)]
      exact ⟨fun hr hx => if_pos ⟨hr, hx⟩, fun hx => if_neg (by omega)⟩

/-- Settles O26: the size of a packed buffer is the length of its bytes, at each width a quotient. -/
theorem packedBufferSizes : Obligations.PackedBufferSizes := by
  intro c
  refine ⟨fun hc w => by rw [packBytes_length, hc]; rfl, fun hc => ?_, fun w => packBytes_length w c⟩
  have hlen : c.length ≠ 0 := by simpa using hc
  simp only [packBytes_length]
  exact ⟨by simp [packedSize, hlen, ceilDiv], packedSize_of_ne_w4 (by decide) hlen, packedSize_of_ne_w4 (by decide) hlen⟩

/-- Settles O30: the three facts of reading back a packed buffer. -/
theorem codesOfAPackedBuffer : Obligations.CodesOfAPackedBuffer := fun _ _ hc =>
  ⟨malformedSub_packBytes hc, decodedLength_packBytes hc, codes_packBytes hc⟩

/-! ### A W = 4 buffer that passes the checks is packed (R79) -/

section FourBits

/-- The byte of the two nibbles of a byte is the byte. -/
theorem pairByte_nibbles (x : Byte) : BitVec.ofNat 8 ((x.toNat >>> 4) <<< 4 ||| x.toNat &&& 0x0F) = x := by
  have hx : x.toNat < 256 := x.isLt
  have hmask : x.toNat &&& 0x0F = x.toNat % 2 ^ 4 := Nat.and_two_pow_sub_one_eq_mod _ 4
  rw [hmask, Nat.shiftRight_eq_div_pow]
  apply BitVec.eq_of_toNat_eq
  rw [pairByte_toNat (by omega) (by omega)]
  omega

theorem forall_mem_nibbles (x : Byte) : ∀ y ∈ nibbles x, y < 16 := by
  have hx : x.toNat < 256 := x.isLt
  have hmask : x.toNat &&& 0x0F = x.toNat % 2 ^ 4 := Nat.and_two_pow_sub_one_eq_mod _ 4
  simp only [nibbles, hmask, Nat.shiftRight_eq_div_pow, List.forall_mem_cons]
  exact ⟨by omega, by omega, by simp⟩

/-- Packing the nibbles of bytes gives the bytes back (R71). -/
theorem packBytes4_nibbles_append (ds : List Byte) (cs : List Nat) :
    packBytes4 (ds.flatMap nibbles ++ cs) = ds ++ packBytes4 cs := by
  induction ds with
  | nil => rfl
  | cons d ds ih =>
    rw [List.flatMap_cons, nibbles, List.append_assoc, List.cons_append, List.singleton_append, packBytes4,
      pairByte_nibbles, ih, List.cons_append]

theorem exists_packBytes4_eq {b : List Byte} (hlen : 2 ≤ b.length) (h : malformed4 b = none) :
    ∃ c : List Nat, c ≠ [] ∧ (∀ x ∈ c, x < 16) ∧ packBytes4 c = b := by
  rw [malformed4_of_two_le hlen] at h
  split_ifs at h with hflag hpad
  have hnil : b ≠ [] := List.length_pos_iff.1 (by omega)
  have hsplit : b.dropLast ++ [flagOf b] = b := by
    rw [flagOf, List.getLastD_eq_getLast?, List.getLast?_eq_some_getLast hnil, Option.getD_some,
      List.dropLast_append_getLast]
  have hdata : b.dropLast ≠ [] := List.length_pos_iff.1 (by rw [List.length_dropLast]; omega)
  by_cases hf : (flagOf b).toNat = 0
  · refine ⟨b.dropLast.flatMap nibbles ++ [], ?_, ?_, ?_⟩
    · obtain ⟨d, ds, hds⟩ := List.exists_cons_of_ne_nil hdata
      simp [hds, nibbles]
    · simp only [List.append_nil, List.forall_mem_flatMap]
      exact fun d _ => forall_mem_nibbles d
    · have hzero : flagOf b = 0x00#8 := BitVec.eq_of_toNat_eq hf
      rw [packBytes4_nibbles_append, packBytes4, ← hzero, hsplit]
  · have hone : flagOf b = 0x01#8 := flagOf_eq_one_iff.2 (by omega)
    have hlast : (b.dropLast.getLast hdata).toNat < 16 := by
      have hget : b.dropLast.getLast hdata = b.getD (b.length - 2) 0#8 := by
        rw [List.getLast_eq_getElem, List.getElem_dropLast, List.getD_eq_getElem _ _ (by omega)]
        congr 1
        rw [List.length_dropLast]
        omega
      rw [hget]
      omega
    refine ⟨b.dropLast.dropLast.flatMap nibbles ++ [(b.dropLast.getLast hdata).toNat], by simp, ?_, ?_⟩
    · simp only [List.forall_mem_append, List.forall_mem_flatMap, List.forall_mem_singleton]
      exact ⟨fun d _ => forall_mem_nibbles d, hlast⟩
    · rw [packBytes4_nibbles_append, packBytes4, BitVec.ofNat_toNat, BitVec.setWidth_eq, ← hone,
        show [b.dropLast.getLast hdata, flagOf b] = [b.dropLast.getLast hdata] ++ [flagOf b] from rfl,
        ← List.append_assoc, List.dropLast_append_getLast, hsplit]

end FourBits

/-! ### A W = 5 or W = 6 buffer that passes the checks is packed (R81) -/

section FiveAndSixBits
variable {w : Width} {b : List Byte}

/-- Code k of the bit stream of some bytes (R74). -/
def streamCode (w : Nat) (b : List Byte) (k : Nat) : Nat :=
  Nat.ofBits fun i : Fin w => (b.getD ((k * w + (w - 1 - i)) / 8) 0#8).getLsbD (7 - (k * w + (w - 1 - i)) % 8)

theorem streamCode_lt (w : Nat) (b : List Byte) (k : Nat) : streamCode w b k < 2 ^ w := Nat.ofBits_lt_two_pow _

theorem streamCode_testBit {w : Nat} (hw : 0 < w) (b : List Byte) (p : Nat) :
    (streamCode w b (p / w)).testBit (w - 1 - p % w) = (b.getD (p / 8) 0#8).getLsbD (7 - p % 8) := by
  have hmod : p % w < w := Nat.mod_lt p hw
  have hpos : p / w * w + (w - 1 - (w - 1 - p % w)) = p := by
    rw [show w - 1 - (w - 1 - p % w) = p % w by omega, Nat.mul_comm, Nat.div_add_mod]
  rw [streamCode, Nat.testBit_ofBits_lt _ _ (by omega)]
  simp only [hpos]

/-- The codes whose bits are the first bits of the data bytes. -/
def streamCodes (w : Nat) (b : List Byte) (n : Nat) : List Nat := (List.range n).map (streamCode w b)

theorem streamCodes_getD {w k n : Nat} (b : List Byte) (hk : k < n) :
    (streamCodes w b n).getD k 0 = streamCode w b k := by
  simp [streamCodes, hk]

/-- Byte lists of one length whose bits agree are equal. -/
theorem byteList_ext {b c : List Byte} (hlen : b.length = c.length)
    (h : ∀ p, p < 8 * b.length → (b.getD (p / 8) 0#8).getLsbD (7 - p % 8) = (c.getD (p / 8) 0#8).getLsbD (7 - p % 8)) :
    b = c := by
  refine List.ext_getElem hlen fun j hj hj' => ?_
  refine BitVec.eq_of_getLsbD_eq fun i hi => ?_
  have hbit := h (8 * j + (7 - i)) (by omega)
  rwa [show (8 * j + (7 - i)) / 8 = j by omega, show 7 - (8 * j + (7 - i)) % 8 = i by omega,
    List.getD_eq_getElem _ _ hj, List.getD_eq_getElem _ _ hj'] at hbit

theorem getLsbD_of_mod_two_pow {x : Byte} {k i : Nat} (h : x.toNat % 2 ^ k = 0) (hi : i < k) : x.getLsbD i = false := by
  have hbit : (x.toNat % 2 ^ k).testBit i = x.toNat.testBit i := by simp [Nat.testBit_mod_two_pow, hi]
  rw [← BitVec.testBit_toNat, ← hbit, h, Nat.zero_testBit]

/-- Of a buffer that passes the checks, L · W bits and their padding fill the data bytes, and the padding is 0 (R81). -/
theorem padding_of_malformed56 (hlen : 2 ≤ b.length) (h : malformed56 w.bits b = none) {L : Nat}
    (hL : decodedLength56 w.bits b = L) :
    (flagOf b).toNat < 2 ∧ 0 < L ∧ (L * w.bits + 7) / 8 = b.length - 1 ∧
      ∀ p, L * w.bits ≤ p → p < 8 * (b.length - 1) → (b.getD (p / 8) 0#8).getLsbD (7 - p % 8) = false := by
  rw [malformed56_of_two_le hlen, hL] at h
  split_ifs at h with hflag hsize hpad
  have hB : (L * w.bits + 7) / 8 = b.length - 1 := by omega
  refine ⟨by omega, by omega, hB, fun p hlo hhi => ?_⟩
  have hzero : (b.getD (b.length - 2) 0#8).toNat % 2 ^ (8 - L * w.bits % 8) = 0 := by
    by_contra hne
    exact hpad ⟨by omega, hne⟩
  rw [show p / 8 = b.length - 2 by omega]
  exact getLsbD_of_mod_two_pow hzero (by omega)

/-- The flag byte of a buffer that passes the checks is the one R76 gives its residual bit count. -/
theorem flagOf_of_decodedLength (hw : w ≠ .w4) {L : Nat} (hL : decodedLength56 w.bits b = L) (hpos : 0 < L)
    (hf : (flagOf b).toNat < 2) (hB : (L * w.bits + 7) / 8 = b.length - 1) :
    flagOf b = if 0 < L * w.bits % 8 ∧ L * w.bits % 8 ≤ 8 - w.bits then 0x01#8 else 0x00#8 := by
  have hdata : (b.length - 1) * 8 = (8 - L * w.bits % 8) % 8 + L * w.bits := by omega
  rw [decodedLength56_of_flag _ hf, hdata, Nat.add_mul_div_right _ _ w.bits_pos,
    padding_div_bits hw (Nat.mod_lt _ (by decide))] at hL
  apply BitVec.eq_of_toNat_eq
  split_ifs at hL ⊢ <;> simp only [BitVec.toNat_ofNat] <;> omega

theorem exists_packBytes_eq_of_ne_w4 (hw : w ≠ .w4) (hlen : 2 ≤ b.length) (h : malformed56 w.bits b = none) :
    ∃ c : List Nat, (∀ x ∈ c, x < 2 ^ w.bits) ∧ packBytes w c = b := by
  obtain ⟨L, hL⟩ : ∃ L, decodedLength56 w.bits b = L := ⟨_, rfl⟩
  obtain ⟨hf, hpos, hB, hpad⟩ := padding_of_malformed56 hlen h hL
  have hcodes : ∀ x ∈ streamCodes w.bits b L, x < 2 ^ w.bits := by
    simp only [streamCodes, List.forall_mem_map]
    exact fun k _ => streamCode_lt w.bits b k
  have hcount : (streamCodes w.bits b L).length = L := by simp [streamCodes]
  have hne : streamCodes w.bits b L ≠ [] := List.length_pos_iff.1 (by omega)
  obtain ⟨hplen, hdata, hzero, hlast⟩ := packedLayoutAtFiveAndSixBits w _ hw hne hcodes
  rw [hcount] at hplen hdata hzero hlast
  have hlenEq : (packBytes w (streamCodes w.bits b L)).length = b.length := by omega
  have hflagEq : flagOf (packBytes w (streamCodes w.bits b L)) = flagOf b := by
    rw [flagOf_of_getLast? hlast, flagOf_of_decodedLength hw hL hpos hf hB]
  refine ⟨_, hcodes, byteList_ext hlenEq fun p hp => ?_⟩
  by_cases hstream : p < L * w.bits
  · rw [hdata p hstream, streamCodes_getD b (Nat.div_lt_of_lt_mul (Nat.mul_comm L _ ▸ hstream)),
      streamCode_testBit w.bits_pos]
  · by_cases hbyte : p < 8 * (b.length - 1)
    · rw [hzero p (by omega) (by omega), hpad p (by omega) hbyte]
    · rw [flagOf_eq_getD, flagOf_eq_getD, hlenEq] at hflagEq
      rw [show p / 8 = b.length - 1 by omega, hflagEq]

end FiveAndSixBits

/-- A buffer that passes the checks is the packed buffer of a string of codes. -/
theorem exists_packBytes_eq {w : Width} {b : List Byte} (h : malformedSub w b = none) :
    ∃ c : List Nat, (∀ x ∈ c, x < 2 ^ w.bits) ∧ packBytes w c = b := by
  rcases eq_or_ne b [] with rfl | hne
  · exact ⟨[], by simp, rfl⟩
  · have hlen : 2 ≤ b.length := by
      have hpos : 0 < b.length := List.length_pos_iff.2 hne
      have hone : b.length ≠ 1 := fun h1 => by simp [malformedSub_of_length_one w h1] at h
      omega
    by_cases hw : w = .w4
    · subst hw
      obtain ⟨c, hc, hlt, rfl⟩ := exists_packBytes4_eq hlen h
      exact ⟨c, hlt, packBytes_w4 hc⟩
    · rw [malformedSub_of_ne_w4 hw] at h
      exact exists_packBytes_eq_of_ne_w4 hw hlen h

/-- Settles O31: what PACK makes is well formed; a well-formed buffer is packed from the codes in its bit stream. -/
theorem wellFormedBuffersAreThePackedOnes : Obligations.WellFormedBuffersAreThePackedOnes := fun _ _ =>
  ⟨exists_packBytes_eq, fun ⟨_, hc, hpack⟩ => hpack ▸ malformedSub_packBytes hc⟩

end Sys2Proof.Machine

/-! SUPPORT. What a check answers when it fails, that every fault has a code, and every way a command can end
(60_exceptions.md R200, R203, R205; 10_state.md R42). -/

namespace Sys2Proof.Machine

/-! ### The checks when they fail (R200) -/

section FailedChecks
variable {s : State} {p : Platform} {r q : Range}

theorem lengthFault_of_gt {n : Nat} (h : 2 ^ 31 - 1 < n) (id : LengthId) (pos : Nat) :
    lengthFault id n pos = some { code := .lengthError, sub := 0#8, val := id.number, pos := pos } := if_pos h

theorem overlapFault_of_not_separate (h : ¬Separate r q) :
    overlapFault r q = some { code := .overlap, sub := 0#8, val := 0, pos := 0 } :=
  if_pos (by simpa using mt separate_iff.2 h)

theorem rangeFault_of_refusedAt {a : Nat} (h : RefusedAt p r a) (id : RangeId) :
    rangeFault p id r = some { code := .busError, sub := 0#8, val := id.number, pos := a } :=
  rangeFault_eq_some_iff.2 ⟨a, h, rfl⟩

theorem overflowFault_of_lt {n cap : Nat} (h : cap < n) :
    overflowFault n cap = some { code := .dstOverflow, sub := 0#8, val := 0, pos := n } := if_pos h

theorem notConfiguredFault_of_not_cfgOk (h : s.status.cfgOk = false) :
    notConfiguredFault s = some { code := .notConfigured, sub := 0#8, val := 0, pos := 0 } := by
  simp [notConfiguredFault, h]

theorem malformedFault_of_malformedSub {w : Width} {b : List Byte} {sub : BitVec 8} (h : malformedSub w b = some sub)
    (pos : Nat) : malformedFault w b pos = some { code := .malformed, sub := sub, val := 0, pos := pos } := by
  simp only [malformedFault, h]

theorem nulltolFault_of_ne_w4 (h : s.width ≠ .w4) :
    nulltolFault s true = some { code := .illegalCmd, sub := 2#8, val := 0, pos := 0 } :=
  if_pos ⟨rfl, h⟩

theorem sizeFault_of_ne {w : Width} (h : s.srcLen.toNat ≠ w.size) :
    sizeFault s w = some { code := .configError, sub := 1#8, val := 0, pos := s.srcLen.toNat } := if_pos h

end FailedChecks

/-! ### Every fault has a code that is not 0 (R25, R200) -/

/-- A check that fails raises a code that is not 0. -/
def HasCode (check : Option SpeFault) : Prop := ∀ f, check = some f → f.code ≠ .noFault

theorem hasCode_none : HasCode none := fun _ h => by cases h

theorem hasCode_some {f : SpeFault} (h : f.code ≠ .noFault) : HasCode (some f) := fun _ hf =>
  Option.some.inj hf ▸ h

theorem hasCode_ite {c : Prop} [Decidable c] {a b : Option SpeFault} (ha : HasCode a) (hb : HasCode b) :
    HasCode (if c then a else b) := by
  split
  · exact ha
  · exact hb

/-- Checks in order raise what the first that fails raises (R203). -/
theorem HasCode.orElse {a b : Option SpeFault} (ha : HasCode a) (hb : HasCode b) : HasCode (a <|> b) := by
  cases a with
  | none => simpa using hb
  | some f => simpa using ha

section Codes
variable (s : State)

theorem hasCode_notConfiguredFault : HasCode (notConfiguredFault s) := hasCode_ite hasCode_none (hasCode_some (by simp))

theorem hasCode_lengthFault (id : LengthId) (n pos : Nat) : HasCode (lengthFault id n pos) :=
  hasCode_ite (hasCode_some (by simp)) hasCode_none

theorem hasCode_overlapFault (r q : Range) : HasCode (overlapFault r q) :=
  hasCode_ite (hasCode_some (by simp)) hasCode_none

theorem hasCode_overflowFault (n cap : Nat) : HasCode (overflowFault n cap) :=
  hasCode_ite (hasCode_some (by simp)) hasCode_none

theorem hasCode_nulltolFault (nulltol : Bool) : HasCode (nulltolFault s nulltol) :=
  hasCode_ite (hasCode_some (by simp)) hasCode_none

theorem hasCode_sizeFault (w : Width) : HasCode (sizeFault s w) := hasCode_ite (hasCode_some (by simp)) hasCode_none

theorem hasCode_rangeFault (p : Platform) (id : RangeId) (r : Range) : HasCode (rangeFault p id r) := by
  intro f hf
  obtain ⟨a, -, rfl⟩ := rangeFault_eq_some_iff.1 hf
  simp

theorem hasCode_malformedFault (w : Width) (b : List Byte) (pos : Nat) : HasCode (malformedFault w b pos) := by
  unfold malformedFault
  cases malformedSub w b with
  | none => exact hasCode_none
  | some sub => exact hasCode_some (by simp)

theorem hasCode_unsupportedFault (i : Nat) (bs : List Byte) : HasCode (unsupportedFault s i bs) := by
  induction bs generalizing i with
  | nil => exact hasCode_none
  | cons b bs ih =>
    unfold unsupportedFault
    cases s.encode b with
    | none => exact hasCode_some (by simp)
    | some c => exact ih (i + 1)

theorem hasCode_highSymbolFault (i : Nat) (bs : List Byte) : HasCode (highSymbolFault i bs) := by
  induction bs generalizing i with
  | nil => exact hasCode_none
  | cons b bs ih => exact hasCode_ite (hasCode_some (by simp)) (ih (i + 1))

theorem hasCode_duplicateFault (i : Nat) (seen bs : List Byte) : HasCode (duplicateFault i seen bs) := by
  induction bs generalizing i seen with
  | nil => exact hasCode_none
  | cons b bs ih => exact hasCode_ite (hasCode_some (by simp)) (ih (i + 1) (b :: seen))

theorem hasCode_configFault (w : Width) (dflt : Bool) : HasCode (configFault s w dflt) :=
  (hasCode_ite hasCode_none ((hasCode_sizeFault s w).orElse (hasCode_rangeFault _ _ _))).orElse
    ((hasCode_highSymbolFault _ _).orElse (hasCode_duplicateFault _ _ _))

theorem hasCode_packFault : HasCode (packFault s) :=
  (hasCode_notConfiguredFault s).orElse <| (hasCode_lengthFault _ _ _).orElse <| (hasCode_overlapFault _ _).orElse <|
    (hasCode_rangeFault _ _ _).orElse <| (hasCode_rangeFault _ _ _).orElse <| (hasCode_overflowFault _ _).orElse <|
      hasCode_unsupportedFault s _ _

theorem hasCode_unpackFault : HasCode (unpackFault s) :=
  (hasCode_notConfiguredFault s).orElse <| (hasCode_lengthFault _ _ _).orElse <| (hasCode_overlapFault _ _).orElse <|
    (hasCode_rangeFault _ _ _).orElse <| (hasCode_rangeFault _ _ _).orElse <| (hasCode_malformedFault _ _ _).orElse <|
      (hasCode_lengthFault _ _ _).orElse <| hasCode_overflowFault _ _

theorem hasCode_compareFault : HasCode (compareFault s) :=
  (hasCode_notConfiguredFault s).orElse <| (hasCode_lengthFault _ _ _).orElse <| (hasCode_lengthFault _ _ _).orElse <|
    (hasCode_rangeFault _ _ _).orElse <| (hasCode_rangeFault _ _ _).orElse <| hasCode_malformedFault _ _ _

theorem hasCode_searchFault (nulltol : Bool) : HasCode (searchFault s nulltol) :=
  (hasCode_notConfiguredFault s).orElse <| (hasCode_nulltolFault s _).orElse <| (hasCode_lengthFault _ _ _).orElse <|
    (hasCode_lengthFault _ _ _).orElse <| (hasCode_rangeFault _ _ _).orElse <| hasCode_rangeFault _ _ _

theorem hasCode_elementFault (i : Nat) (d : Descriptor) : HasCode (elementFault s i d) :=
  (hasCode_lengthFault _ _ _).orElse <| (hasCode_rangeFault _ _ _).orElse <| hasCode_malformedFault _ _ _

end Codes

theorem visit_error_code {s : State} {key : List Byte} {mode : Mode} {nulltol : Bool} {i : Nat} {f : SpeFault}
    (h : visit s key mode nulltol i = .error f) : f.code ≠ .noFault := by
  simp only [visit] at h
  split at h
  · split at h
    · cases h
    · cases h
      simp
  · split at h
    next hf => exact Except.error.inj h ▸ hasCode_elementFault _ _ _ _ hf
    next => cases h

/-- A search faults with the fault of an element it visited (R171). -/
theorem searchLoop_error {probe : Nat → Except SpeFault Int} {fuel : Nat} {lo hi : Int} {f : SpeFault}
    (h : searchLoop probe fuel lo hi = .error f) : ∃ i, probe i = .error f := by
  induction fuel generalizing lo hi with
  | zero => cases h
  | succ fuel ih =>
    rw [searchLoop] at h
    split_ifs at h
    cases hp : probe ((lo + hi) / 2).toNat with
    | error g =>
      simp only [hp] at h
      exact ⟨_, hp.trans h⟩
    | ok c =>
      simp only [hp] at h
      split_ifs at h
      · exact ih h
      · exact ih h

theorem searchResult_error_code {s : State} {mode : Mode} {nulltol : Bool} {f : SpeFault}
    (h : s.searchResult mode nulltol = .error f) : f.code ≠ .noFault := by
  obtain ⟨i, hi⟩ := searchLoop_error h
  exact visit_error_code hi

/-! ### The memory UNPACK leaves (R127) -/

/-- A well-formed buffer has as many codes as its decoded length, each below 2^W (R80, R130, R147). -/
theorem codes_of_wellFormed {w : Width} {b : List Byte} (h : malformedSub w b = none) :
    (codes w b).length = decodedLength w b ∧ ∀ x ∈ codes w b, x < 2 ^ w.bits := by
  obtain ⟨c, hc, rfl⟩ := exists_packBytes_eq h
  rw [codes_packBytes hc, decodedLength_packBytes hc]
  exact ⟨rfl, hc⟩

theorem symbols_length_of_wellFormed {s : State} {b : List Byte} (h : malformedSub s.width b = none) :
    (s.symbols b).length = decodedLength s.width b := by
  rw [State.symbols, List.length_map, (codes_of_wellFormed h).1]

theorem symbols_fit {s : State} (h : UnpackReady s) :
    s.dstAddr.toNat + (s.symbols (s.readRange s.srcRange)).length ≤ Config.addressSpace := by
  obtain ⟨-, -, -, -, hdst, hwf, -, hcap⟩ := h
  rw [symbols_length_of_wellFormed hwf]
  exact Admitted.end_le hdst s.dstAddr.isLt.le hcap

theorem unpackMemory_wf {s : State} (hwf : s.mem.wf = true) (h : UnpackReady s) : (unpackMemory s).wf = true :=
  Memory.wf_writeBytes hwf _ _ (symbols_fit h)

/-! ### Every way a command can end -/

theorem symbolList_valid_of_no_fault {s : State} {w : Width} {dflt : Bool} (h : configFault s w dflt = none) :
    ∀ b ∈ s.symbolList w dflt, b.toNat < 128 := by
  simp only [configFault, orElse_eq_none_iff] at h
  obtain ⟨-, hhigh, -⟩ := h
  exact highSymbolFault_eq_none_iff.1 hhigh

/-- The command does not load an alphabet. -/
abbrev NotConfig (i : Instr) : Prop := ∀ wsel strict preserve dflt, i ≠ .config wsel strict preserve dflt

/-- The ways a command performed in `s` can end: the two faults of a CONFIG and its commit (R101, R108, R109), and fault
entry and success of another command (R205, R42). -/
inductive CommandEnd (s : State) : Instr → State → Prop
  | illegalWidth {wsel : BitVec 2} {strict preserve dflt : Bool} : Width.ofSel wsel = none →
      CommandEnd s (.config wsel strict preserve dflt) (s.failWith illegalWord)
  | configFault {wsel : BitVec 2} {strict preserve dflt : Bool} {f : SpeFault} : f.code ≠ .noFault →
      CommandEnd s (.config wsel strict preserve dflt) (s.unconfigure.failWith f)
  | commit {wsel : BitVec 2} {strict preserve dflt : Bool} {w : Width} {l : List Byte} : l.length = w.size →
      (∀ b ∈ l, b.toNat < 128) → l.Nodup →
      CommandEnd s (.config wsel strict preserve dflt) ((s.commitConfig w strict preserve l).succeed w.size)
  | fault {i : Instr} {f : SpeFault} : NotConfig i → f.code ≠ .noFault → CommandEnd s i (s.failWith f)
  | success {i : Instr} {m : Memory} {res : Int} : NotConfig i → (i ≠ .pack → i ≠ .unpack → m = s.mem) →
      (s.mem.wf = true → m.wf = true) → CommandEnd s i (s.successEnd m res)

section Ends
variable {s t : State}

theorem compareCommand_commandEnd {i : Instr} (hi : NotConfig i) (s : State) (mode : Mode) :
    CommandEnd s i (s.compareCommand mode) := by
  unfold State.compareCommand
  cases hf : compareFault s with
  | some f => exact .fault hi (hasCode_compareFault s f hf)
  | none => exact .success hi (fun _ _ => rfl) id

theorem searchCommand_commandEnd {i : Instr} (hi : NotConfig i) (s : State) (mode : Mode) (nulltol : Bool) :
    CommandEnd s i (s.searchCommand mode nulltol) := by
  unfold State.searchCommand
  cases hf : searchFault s nulltol with
  | some f => exact .fault hi (hasCode_searchFault s nulltol f hf)
  | none =>
    cases hr : s.searchResult mode nulltol with
    | error f => exact .fault hi (searchResult_error_code hr)
    | ok res => exact .success hi (fun _ _ => rfl) id

/-- What `exec` answers is one of these ends. -/
theorem exec_commandEnd {i : Instr} (h : exec i s = .next t) : CommandEnd s i t := by
  cases i with
  | config wsel strict preserve dflt =>
    cases hw : Width.ofSel wsel with
    | none =>
      rw [exec_config_of_illegal strict preserve dflt hw] at h
      obtain rfl := Host.Outcome.next.inj h
      exact .illegalWidth hw
    | some w =>
      obtain rfl := Width.sel_of_ofSel hw
      obtain ⟨f, hf, rfl⟩ | ⟨hnone, rfl⟩ := exec_config_cases h
      · exact .configFault (hasCode_configFault s w dflt f hf)
      · exact .commit (s.symbolList_length w dflt) (symbolList_valid_of_no_fault hnone)
          (symbolList_nodup_of_no_fault hnone)
  | pack =>
    obtain ⟨f, hf, rfl⟩ | ⟨hnone, rfl⟩ := exec_pack_cases h
    · exact .fault nofun (hasCode_packFault s f hf)
    · exact .success nofun (fun hpack => absurd rfl hpack) fun hwf => packMemory_wf hwf (packFault_eq_none_iff.1 hnone)
  | unpack =>
    obtain ⟨f, hf, rfl⟩ | ⟨hnone, rfl⟩ := exec_unpack_cases h
    · exact .fault nofun (hasCode_unpackFault s f hf)
    · exact .success nofun (fun _ hunpack => absurd rfl hunpack) fun hwf =>
        unpackMemory_wf hwf (unpackFault_eq_none_iff.1 hnone)
  | search nulltol =>
    obtain rfl : s.searchCommand .exact nulltol = t := Host.Outcome.next.inj h
    exact searchCommand_commandEnd (i := .search nulltol) nofun s .exact nulltol
  | psearch nulltol =>
    obtain rfl : s.searchCommand .prefixed nulltol = t := Host.Outcome.next.inj h
    exact searchCommand_commandEnd (i := .psearch nulltol) nofun s .prefixed nulltol
  | cmp =>
    obtain rfl : s.compareCommand .exact = t := Host.Outcome.next.inj h
    exact compareCommand_commandEnd (i := .cmp) nofun s .exact
  | pcmp =>
    obtain rfl : s.compareCommand .prefixed = t := Host.Outcome.next.inj h
    exact compareCommand_commandEnd (i := .pcmp) nofun s .prefixed

/-- A command never stops the machine (R202). -/
theorem exists_exec_eq_next (i : Instr) (s : State) : ∃ t, exec i s = .next t := by
  cases i with
  | config wsel strict preserve dflt =>
    cases hw : Width.ofSel wsel with
    | none => exact ⟨_, exec_config_of_illegal strict preserve dflt hw⟩
    | some w =>
      obtain rfl := Width.sel_of_ofSel hw
      cases hf : configFault s w dflt with
      | some f => exact ⟨_, exec_config_of_fault strict preserve hf⟩
      | none => exact ⟨_, exec_config_of_no_fault strict preserve hf⟩
  | pack => cases hf : packFault s <;> simp [exec, execPack, hf]
  | unpack => cases hf : unpackFault s <;> simp [exec, execUnpack, hf]
  | search nulltol => exact ⟨_, rfl⟩
  | psearch nulltol => exact ⟨_, rfl⟩
  | cmp => exact ⟨_, rfl⟩
  | pcmp => exact ⟨_, rfl⟩

/-! ### What every end has in common (R42, R205) -/

/-- BUSY is 0 and DONE is 1; a success has no diagnostics, a fault has a code and RESULT 0. -/
structure State.Completed (t : State) : Prop where
  idle : t.status.busy = false
  done : t.status.done = true
  success : t.status.err = false →
    t.status.errCode = .noFault ∧ t.status.errSub = 0#8 ∧ t.errVal = 0#32 ∧ t.errPos = 0#32
  fault : t.status.err = true → t.status.errCode ≠ .noFault ∧ t.result = 0#32

theorem State.completed_failWith (s : State) {f : SpeFault} (h : f.code ≠ .noFault) : (s.failWith f).Completed :=
  ⟨rfl, rfl, by simp, fun _ => ⟨h, rfl⟩⟩

theorem State.completed_succeed (s : State) (res : Int) : (s.succeed res).Completed :=
  ⟨rfl, rfl, fun _ => ⟨rfl, rfl, rfl, rfl⟩, by simp⟩

theorem CommandEnd.completed {i : Instr} (h : CommandEnd s i t) : t.Completed := by
  cases h with
  | illegalWidth => exact s.completed_failWith (by simp [illegalWord])
  | configFault hcode => exact s.unconfigure.completed_failWith hcode
  | commit => exact State.completed_succeed _ _
  | fault _ hcode => exact s.completed_failWith hcode
  | @success _ m res => exact State.completed_succeed { s with mem := m } res

end Ends

/-- Settles O44: each end is a record update of the state before, which shows what it keeps. -/
theorem commandsKeepWhatTheyDoNotName : Obligations.CommandsKeepWhatTheyDoNotName := by
  intro i s t hexec
  have hend := exec_commandEnd hexec
  obtain ⟨hidle, hdone, hsuccess, hfault⟩ := hend.completed
  refine ⟨?_, ?_, ?_, hidle, hdone, fun herr => ?_, fun herr => (hfault herr).symm⟩
  · cases hend <;> exact ⟨rfl, rfl, rfl, rfl, rfl, rfl, rfl, rfl, rfl, rfl, rfl, rfl, rfl, rfl, rfl, rfl⟩
  · intro hi
    cases hend with
    | illegalWidth => exact absurd rfl (hi _ _ _ _)
    | configFault => exact absurd rfl (hi _ _ _ _)
    | commit => exact absurd rfl (hi _ _ _ _)
    | fault => exact ⟨rfl, rfl, rfl, rfl⟩
    | success => exact ⟨rfl, rfl, rfl, rfl⟩
  · intro hpack hunpack
    cases hend with
    | success _ hmem _ => exact hmem hpack hunpack
    | _ => rfl
  · obtain ⟨hcode, hsub, hval, hpos⟩ := hsuccess herr
    exact ⟨hval, hpos, hcode, hsub⟩

/-- Settles O43: the ends with ERR = 1 are fault entry, after `unconfigure` for a CONFIG whose width is legal. -/
theorem faultCompletionChangesNothingElse : Obligations.FaultCompletionChangesNothingElse := by
  intro i s t hwf hexec herr
  cases exec_commandEnd hexec with
  | illegalWidth hw =>
    have hlegal : ∀ wsel, wselLegal wsel = true → Width.ofSel wsel ≠ none := by decide
    exact absurd hw (hlegal _ hwf)
  | @configFault _ _ _ _ f hcode => exact ⟨f.code, f.sub, f.val, f.pos, hcode, unconfigure_failWith_eq s f⟩
  | commit => simp at herr
  | @fault _ f hi hcode =>
    refine ⟨f.code, f.sub, f.val, f.pos, hcode, ?_⟩
    cases i with
    | config wsel strict preserve dflt => exact absurd rfl (hi wsel strict preserve dflt)
    | _ => exact failWith_eq_faultEnd s f
  | success => simp [State.successEnd] at herr

/-! ### NOT_CONFIGURED comes first (R38, R203) -/

/-- Settles O41: of every command but CONFIG the first check is that CFG_OK = 1. -/
theorem unconfiguredCommandsFault : Obligations.UnconfiguredCommandsFault := by
  intro s i hcfg hi
  have hnot := notConfiguredFault_of_not_cfgOk hcfg
  cases i with
  | config wsel strict preserve dflt => exact absurd rfl (hi wsel strict preserve dflt)
  | pack => simp [exec, execPack, packFault, hnot, failWith_eq_faultEnd]
  | unpack => simp [exec, execUnpack, unpackFault, hnot, failWith_eq_faultEnd]
  | search nulltol => simp [exec, execSearch, State.searchCommand, searchFault, hnot, failWith_eq_faultEnd]
  | psearch nulltol => simp [exec, execPsearch, State.searchCommand, searchFault, hnot, failWith_eq_faultEnd]
  | cmp => simp [exec, execCmp, State.compareCommand, compareFault, hnot, failWith_eq_faultEnd]
  | pcmp => simp [exec, execPcmp, State.compareCommand, compareFault, hnot, failWith_eq_faultEnd]

/-! ### The engine's step (R41) -/

theorem engineStep_of_decode {s : State} {i : Instr} (hbusy : s.status.busy = true) (hd : decode s.cmdLatch = .ok i) :
    engineStep s = exec i s := by
  simp [engineStep, hbusy, hd]

theorem step_of_turns_nil {s : State} (h : s.turns = []) : step s = takeTurn (defaultTurn s) s := by
  simp only [step, h]

/-- While BUSY and with nobody named, the engine moves (log 1). -/
theorem step_of_busy {s : State} (hturns : s.turns = []) (hbusy : s.status.busy = true) : step s = engineStep s := by
  rw [step_of_turns_nil hturns, defaultTurn, if_pos hbusy, takeTurn_engine]

theorem step_of_engine_turn {s : State} {rest : List Turn} (h : s.turns = .engine :: rest) :
    step s = engineStep { s with turns := rest } :=
  (step_of_turns_cons h).trans (takeTurn_engine _)

/-- Whatever word the latch holds, the engine completes (R41, R86, R202). -/
theorem engineStep_completes {s : State} (hbusy : s.status.busy = true) :
    ∃ t, engineStep s = .next t ∧ t.Completed := by
  by_cases hd : ∃ i, decode s.cmdLatch = .ok i
  · obtain ⟨i, hi⟩ := hd
    obtain ⟨t, ht⟩ := exists_exec_eq_next i s
    exact ⟨t, (engineStep_of_decode hbusy hi).trans ht, (exec_commandEnd ht).completed⟩
  · exact ⟨_, engineStep_of_not_decode hbusy hd, s.completed_failWith (by simp [illegalWord])⟩

/-- Settles O4: the engine's step is `exec` of the word in the latch. -/
theorem stepPerformsTheLatchedCommand : Obligations.StepPerformsTheLatchedCommand := fun s _ hbusy hd =>
  ⟨fun hturns => (step_of_busy hturns hbusy).trans (engineStep_of_decode hbusy hd), fun rest hturns =>
    (step_of_engine_turn hturns).trans (engineStep_of_decode (s := { s with turns := rest }) hbusy hd)⟩

/-- Settles O5: in either schedule the step is the engine's, which completes. -/
theorem everyCommandEndsInOneEngineStep : Obligations.EveryCommandEndsInOneEngineStep := by
  rintro s hbusy (hturns | ⟨rest, hturns⟩)
  · obtain ⟨t, ht, hidle, hdone, hsuccess, hfault⟩ := engineStep_completes hbusy
    exact ⟨t, (step_of_busy hturns hbusy).trans ht, hidle, hdone, hsuccess, hfault⟩
  · obtain ⟨t, ht, hidle, hdone, hsuccess, hfault⟩ := engineStep_completes (s := { s with turns := rest }) hbusy
    exact ⟨t, (step_of_engine_turn hturns).trans ht, hidle, hdone, hsuccess, hfault⟩

end Sys2Proof.Machine

/-! SUPPORT. The invariant (10_state.md R25, R35, R37; 20_memory.md R50): reset meets it, and the step of every agent keeps it. -/

namespace Sys2Proof.Machine

/-! ### What the parts of the invariant depend on -/

/-- The tables with CFG and CFG_OK are those of another state. -/
structure State.SameTables (s t : State) : Prop where
  cfgOk : t.status.cfgOk = s.status.cfgOk
  cfg : t.cfg = s.cfg
  sym : t.sym = s.sym
  codeOf : t.codeOf = s.codeOf

section Invariant
variable {s t : State}

theorem State.Configured.of_sameTables (h : s.Configured) (hst : s.SameTables t) : t.Configured := by
  obtain ⟨-, hcfg, hsym, hcode⟩ := hst
  obtain ⟨hcodeSym, hunmapped, hunused⟩ := h
  simp only [State.width, State.code] at hcodeSym hunmapped hunused
  constructor <;> simp only [State.width, State.code, hcfg, hsym, hcode]
  · exact hcodeSym
  · exact hunmapped
  · exact hunused

theorem State.Unconfigured.of_sameTables (h : s.Unconfigured) (hst : s.SameTables t) : t.Unconfigured :=
  ⟨hst.cfg.trans h.cfg, hst.sym.trans h.sym, hst.codeOf.trans h.codeOf⟩

/-- A change that leaves the configuration alone keeps the invariant where STATUS, memory and the temporaries meet it. -/
theorem State.Inv.of_sameTables (h : s.Inv) (hst : s.SameTables t) (hstatus : t.status.wf = true) (hmem : t.mem.wf = true)
    (htemps : tableCanonical Config.unwrittenTemp t.host.temps = true) : t.Inv :=
  ⟨hstatus, fun hok => (h.configured (hst.cfgOk ▸ hok)).of_sameTables hst,
    fun hok => (h.unconfigured (hst.cfgOk ▸ hok)).of_sameTables hst, hmem, htemps⟩

/-- A change of memory alone. -/
theorem State.Inv.withMem (h : s.Inv) {m : Memory} (hm : m.wf = true) : ({ s with mem := m } : State).Inv :=
  h.of_sameTables ⟨rfl, rfl, rfl, rfl⟩ h.status hm h.temps

theorem State.Inv.withTurns (h : s.Inv) (rest : List Turn) : ({ s with turns := rest } : State).Inv :=
  h.of_sameTables ⟨rfl, rfl, rfl, rfl⟩ h.status h.mem h.temps

/-! ### The engine (R41) -/

/-- The STATUS a command ends with is one R25 allows. -/
theorem State.Completed.status_wf (h : t.Completed) : t.status.wf = true := by
  obtain ⟨hidle, hdone, hsuccess, hfault⟩ := h
  cases herr : t.status.err with
  | false =>
    obtain ⟨hcode, hsub, -, -⟩ := hsuccess herr
    simp [Status.wf, hidle, herr, hcode, hsub]
  | true =>
    obtain ⟨hcode, -⟩ := hfault herr
    simp [Status.wf, hidle, hdone, herr, hcode]

theorem CommandEnd.inv {i : Instr} (h : CommandEnd s i t) (hs : s.Inv) : t.Inv := by
  have hstatus := h.completed.status_wf
  cases h with
  | illegalWidth => exact hs.of_sameTables ⟨rfl, rfl, rfl, rfl⟩ hstatus hs.mem hs.temps
  | configFault => exact ⟨hstatus, by simp, fun _ => ⟨rfl, rfl, rfl⟩, hs.mem, hs.temps⟩
  | commit hlen hlow hnodup =>
    refine ⟨hstatus, fun _ => ?_, by simp, hs.mem, hs.temps⟩
    exact (commitConfig_configured s _ _ _ hlen hlow hnodup).of_sameTables ⟨rfl, rfl, rfl, rfl⟩
  | fault => exact hs.of_sameTables ⟨rfl, rfl, rfl, rfl⟩ hstatus hs.mem hs.temps
  | success _ _ hmem => exact hs.of_sameTables ⟨rfl, rfl, rfl, rfl⟩ hstatus (hmem hs.mem) hs.temps

theorem State.Inv.failWith (hs : s.Inv) {f : SpeFault} (h : f.code ≠ .noFault) : (s.failWith f).Inv :=
  hs.of_sameTables ⟨rfl, rfl, rfl, rfl⟩ (s.completed_failWith h).status_wf hs.mem hs.temps

theorem engineStep_inv (hs : s.Inv) (h : engineStep s = .next t) : t.Inv := by
  unfold engineStep at h
  split at h
  · split at h
    next => exact (exec_commandEnd h).inv hs
    next =>
      obtain rfl := Host.Outcome.next.inj h
      exact hs.failWith (by simp [illegalWord])
  · obtain rfl := Host.Outcome.next.inj h
    exact hs

/-! ### Register writes (R22, R40, R43) -/

/-- A write to a register is dropped or ignored, issues a command, or sets an operand register. -/
theorem State.writeReg_cases {r : Reg} {v : Word} (h : s.writeReg r v = .next t) :
    t = s ∨ (s.status.busy = false ∧ t = s.issueWord v) ∨ (s.status.busy = false ∧ t = s.setOperand r v) := by
  simp only [State.writeReg, State.issue] at h
  split_ifs at h with hbusy hcmd
  · exact .inl (Host.Outcome.next.inj h).symm
  · exact .inr (.inl ⟨by simpa using hbusy, (Host.Outcome.next.inj h).symm⟩)
  · exact .inr (.inr ⟨by simpa using hbusy, (Host.Outcome.next.inj h).symm⟩)

theorem State.Inv.issueWord (hs : s.Inv) (v : Word) : (s.issueWord v).Inv :=
  hs.of_sameTables ⟨rfl, rfl, rfl, rfl⟩ rfl hs.mem hs.temps

theorem State.Inv.setOperand (hs : s.Inv) (r : Reg) (v : Word) : (s.setOperand r v).Inv := by
  cases r <;> exact hs.of_sameTables ⟨rfl, rfl, rfl, rfl⟩ hs.status hs.mem hs.temps

theorem State.Inv.of_writeReg (hs : s.Inv) {r : Reg} {v : Word} (h : s.writeReg r v = .next t) : t.Inv := by
  obtain rfl | ⟨-, rfl⟩ | ⟨-, rfl⟩ := State.writeReg_cases h
  · exact hs
  · exact hs.issueWord v
  · exact hs.setOperand r v

/-! ### Host accesses (R213, R240) -/

/-- A host write that is no fault writes the byte. -/
theorem State.hostWriteByte_cases {a : Nat} {b : Byte} (h : s.hostWriteByte a b = .next t) :
    t = { s with mem := s.mem.write a b } := by
  unfold State.hostWriteByte at h
  split_ifs at h
  exact (Host.Outcome.next.inj h).symm

theorem State.Inv.of_hostWriteByte (hs : s.Inv) {addr : Word} {b : Byte} (h : s.hostWriteByte addr.toNat b = .next t) :
    t.Inv := by
  obtain rfl := State.hostWriteByte_cases h
  exact hs.withMem (Memory.wf_write hs.mem addr.isLt b)

theorem State.Inv.withBusData (hs : s.Inv) (v : Word) : ({ s with busData := v } : State).Inv :=
  hs.of_sameTables ⟨rfl, rfl, rfl, rfl⟩ hs.status hs.mem hs.temps

theorem State.Inv.of_hostAccess (hs : s.Inv) {a : Access} (h : s.hostAccess a = .next t) : t.Inv := by
  cases a with
  | regRead offset width =>
    simp only [State.hostAccess] at h
    split at h
    · cases h
    · obtain rfl := Host.Outcome.next.inj h
      exact hs.withBusData _
  | regWrite offset width v =>
    simp only [State.hostAccess, State.writeBlock] at h
    split_ifs at h
    split at h
    · obtain rfl := Host.Outcome.next.inj h
      exact hs
    · exact hs.of_writeReg h
  | memRead addr =>
    simp only [State.hostAccess] at h
    split at h
    · cases h
    · obtain rfl := Host.Outcome.next.inj h
      exact hs.withBusData _
  | memWrite addr b => exact hs.of_hostWriteByte h

/-! ### The host program (R93) -/

theorem State.Inv.jump (hs : s.Inv) (line : Nat) : (s.jump line).Inv :=
  hs.of_sameTables ⟨rfl, rfl, rfl, rfl⟩ hs.status hs.mem hs.temps

theorem State.Inv.nextLine (hs : s.Inv) : s.nextLine.Inv := hs.jump _

theorem State.Inv.setTemp (hs : s.Inv) (u : Nat) (v : Word) : (s.setTemp u v).Inv :=
  hs.of_sameTables ⟨rfl, rfl, rfl, rfl⟩ hs.status hs.mem (tableCanonical_tableWrite hs.temps u v)

theorem thenNextLine_eq_next {o : Host.Outcome State Fault Refusal} (h : thenNextLine o = .next t) :
    ∃ u, o = .next u ∧ t = u.nextLine := by
  cases o with
  | next u => exact ⟨u, rfl, (Host.Outcome.next.inj h).symm⟩
  | fault f => cases h
  | refused r => cases h

theorem State.Inv.of_execLine (hs : s.Inv) {l : HostLine} (h : execLine s l = .next t) : t.Inv := by
  cases l with
  | wr r v =>
    obtain ⟨u, hu, rfl⟩ := thenNextLine_eq_next h
    exact (hs.of_writeReg hu).nextLine
  | rd r u => exact Host.Outcome.next.inj h ▸ (hs.setTemp u _).nextLine
  | issue i =>
    obtain ⟨u, hu, rfl⟩ := thenNextLine_eq_next h
    exact (hs.of_writeReg hu).nextLine
  | ldb u addr =>
    simp only [execLine] at h
    split at h
    · cases h
    · exact Host.Outcome.next.inj h ▸ (hs.setTemp u _).nextLine
  | stb addr v =>
    obtain ⟨u, hu, rfl⟩ := thenNextLine_eq_next h
    exact (hs.of_hostWriteByte hu).nextLine
  | set u e => exact Host.Outcome.next.inj h ▸ (hs.setTemp u _).nextLine
  | ifGoto a rel b target =>
    obtain rfl := Host.Outcome.next.inj h
    split_ifs
    · exact hs.jump target
    · exact hs.nextLine
  | goto target => exact Host.Outcome.next.inj h ▸ hs.jump target
  | halt => exact Host.Outcome.next.inj h ▸ hs.jump _

theorem State.Inv.of_hostStep (hs : s.Inv) (h : hostStep s = .next t) : t.Inv := by
  unfold hostStep at h
  split at h
  · exact Host.Outcome.next.inj h ▸ hs
  · exact hs.of_execLine h

/-! ### Reset and the other SPEs (R233, R241) -/

theorem wf_foldl_havoc {m : Memory} (h : m.wf = true) (count : Nat) (ranges : List Range) :
    (ranges.foldl (fun m r => m.havoc count r.base r.len) m).wf = true := by
  induction ranges generalizing m with
  | nil => exact h
  | cons r rest ih => exact ih (Memory.wf_havoc h count r.base r.len)

theorem wf_foldl_write_if {m : Memory} (h : m.wf = true) (p : Word × Byte → Prop) [DecidablePred p]
    (bytes : List (Word × Byte)) :
    (bytes.foldl (fun m c => if p c then m.write c.1.toNat c.2 else m) m).wf = true := by
  induction bytes generalizing m with
  | nil => exact h
  | cons c rest ih =>
    refine ih ?_
    dsimp only
    split_ifs
    · exact Memory.wf_write h c.1.isLt c.2
    · exact h

end Invariant

/-- Settles O46: STATUS, the tables, memory and the temporaries after reset. -/
theorem resetMeetsTheInvariant : Obligations.ResetMeetsTheInvariant :=
  ⟨rfl, by simp [State.reset, Status.reset], fun _ => ⟨rfl, rfl, rfl⟩, Memory.wf_nil, rfl⟩

section Invariant
variable {s t : State}

theorem State.Inv.applyReset (hs : s.Inv) : s.applyReset.Inv :=
  resetMeetsTheInvariant.of_sameTables ⟨rfl, rfl, rfl, rfl⟩ rfl (wf_foldl_havoc hs.mem _ _) hs.temps

theorem State.Inv.of_peerIssue (hs : s.Inv) {p : Footprint} (h : s.peerIssue p = .next t) : t.Inv := by
  unfold State.peerIssue at h
  split_ifs at h
  obtain rfl := Host.Outcome.next.inj h
  exact hs.of_sameTables ⟨rfl, rfl, rfl, rfl⟩ hs.status hs.mem hs.temps

theorem State.Inv.peerPerform (hs : s.Inv) (k : Nat) (bytes : List (Word × Byte)) : (s.peerPerform k bytes).Inv := by
  unfold State.peerPerform
  split
  · exact hs
  · exact hs.of_sameTables ⟨rfl, rfl, rfl, rfl⟩ hs.status (wf_foldl_write_if hs.mem _ bytes) hs.temps

/-- Every agent's turn keeps the invariant. -/
theorem State.Inv.of_takeTurn (hs : s.Inv) {turn : Turn} (h : takeTurn turn s = .next t) : t.Inv := by
  cases turn with
  | engine => exact engineStep_inv hs h
  | host => exact hs.of_hostStep h
  | access a => exact hs.of_hostAccess h
  | reset => exact Host.Outcome.next.inj h ▸ hs.applyReset
  | peerIssue p => exact hs.of_peerIssue h
  | peerPerform k bytes => exact Host.Outcome.next.inj h ▸ hs.peerPerform k bytes

end Invariant

/-- Settles O47: a step is the turn of one agent. -/
theorem everyStepKeepsTheInvariant : Obligations.EveryStepKeepsTheInvariant := by
  intro s t hs hstep
  unfold step at hstep
  split at hstep
  · exact hs.of_takeTurn hstep
  · exact (hs.withTurns _).of_takeTurn hstep

end Sys2Proof.Machine

/-! SUPPORT. The register block as the host accesses it (10_state.md R21 to R34, R43): which offsets are listed, what accesses
do, and the bits of STATUS and CFG. -/

namespace Sys2Proof.Machine

/-! ### The offsets R21 lists -/

/-- 0x03C to 0x0FF are unlisted. -/
theorem Reg.ofOffset_eq_none {n : Nat} (hlo : 0x3C ≤ n) (hhi : n ≤ 0xFF) : Reg.ofOffset n = none := by
  obtain ⟨k, hk⟩ := Nat.exists_eq_add_of_le' (show 15 ≤ n / 4 by omega)
  rw [Reg.ofOffset, if_neg (by omega), hk]
  rfl

/-- From 0x100 on stands SYMTAB. -/
theorem Reg.ofOffset_symtab {n : Nat} (h : 0x100 ≤ n) :
    Reg.ofOffset n = some (.symtab (Fin.ofNat 64 ((n - 0x100) / 4))) := if_pos h

/-- A register stands at its offset and at no other. -/
theorem Reg.offset_of_ofOffset {n : Nat} {r : Reg} (ha : n % 4 = 0) (hn : n < 0x200) (h : Reg.ofOffset n = some r) :
    r.offset = n := by
  unfold Reg.ofOffset at h
  split_ifs at h with hsym
  · obtain rfl := Option.some.inj h
    simp only [Reg.offset, Fin.ofNat]
    omega
  · split at h
    case h_16 => cases h
    all_goals
      obtain rfl := Option.some.inj h
      simp only [Reg.offset]
      omega

/-! ### Accesses that are not aligned words (R22, R209) -/

section Accesses
variable {s : State} {offset : BitVec 9} {width : Nat} {v : Word} {rest : List Turn}

theorem accessLegal_eq_false (h : ¬(width = 4 ∧ offset.toNat % 4 = 0)) : accessLegal offset width = false := by
  simpa [accessLegal] using h

theorem State.readBlock_of_illegal (h : ¬(width = 4 ∧ offset.toNat % 4 = 0)) : s.readBlock offset width = none := by
  simp [State.readBlock, accessLegal_eq_false h]

theorem State.writeBlock_of_illegal (h : ¬(width = 4 ∧ offset.toNat % 4 = 0)) :
    s.writeBlock offset width v = .fault .badAccess := by
  simp [State.writeBlock, accessLegal_eq_false h]

/-! ### Accesses as steps -/

theorem step_of_regWrite (ht : s.turns = .access (.regWrite offset width v) :: rest) :
    step s = ({ s with turns := rest } : State).writeBlock offset width v :=
  (step_of_turns_cons ht).trans (takeTurn_regWrite ..)

/-- What a register shows does not depend on who moves next. -/
theorem State.readBlock_withTurns (s : State) (rest : List Turn) (offset : BitVec 9) (width : Nat) :
    ({ s with turns := rest } : State).readBlock offset width = s.readBlock offset width := by
  have hreg : ∀ r, ({ s with turns := rest } : State).readReg r = s.readReg r := fun r => by cases r <;> rfl
  simp only [State.readBlock, hreg]

theorem step_of_regRead {x : Word} (ht : s.turns = .access (.regRead offset width) :: rest)
    (hx : s.readBlock offset width = some x) : step s = .next { s with turns := rest, busData := x } := by
  rw [step_of_turns_cons ht, takeTurn, State.hostAccess, State.readBlock_withTurns, hx]

theorem step_of_illegal_regRead (ht : s.turns = .access (.regRead offset width) :: rest)
    (hx : s.readBlock offset width = none) : step s = .fault .badAccess := by
  rw [step_of_turns_cons ht, takeTurn, State.hostAccess, State.readBlock_withTurns, hx]

/-- An aligned read always answers. -/
theorem State.exists_readBlock_eq_some (s : State) (ha : offset.toNat % 4 = 0) : ∃ x, s.readBlock offset 4 = some x := by
  cases hr : Reg.ofOffset offset.toNat with
  | none => exact ⟨_, State.readBlock_of_unlisted ha hr⟩
  | some r => exact ⟨_, State.readBlock_of_ofOffset ha hr⟩

/-! ### Writes that have no effect (R22, R43) -/

theorem State.writeBlock_of_unlisted (ha : offset.toNat % 4 = 0) (hr : Reg.ofOffset offset.toNat = none) :
    s.writeBlock offset 4 v = .next s := by
  simp only [State.writeBlock, accessLegal_word ha, hr, if_true]

theorem State.writeReg_of_busy (hbusy : s.status.busy = true) (r : Reg) (v : Word) : s.writeReg r v = .next s := by
  simp [State.writeReg, hbusy]

theorem State.writeBlock_of_busy (hbusy : s.status.busy = true) (ha : offset.toNat % 4 = 0) :
    s.writeBlock offset 4 v = .next s := by
  cases hr : Reg.ofOffset offset.toNat with
  | none => exact State.writeBlock_of_unlisted ha hr
  | some r => exact (State.writeBlock_of_ofOffset ha hr).trans (State.writeReg_of_busy hbusy r v)

/-- A register that is neither CMD nor an operand register keeps its value. -/
theorem State.writeReg_of_setOperand_eq {r : Reg} (hr : r ≠ .cmd) (hset : s.setOperand r v = s) :
    s.writeReg r v = .next s := by
  simp [State.writeReg, hr, hset]

/-- The offsets whose writes are ignored: the unlisted ones, SYMTAB and the other read-only registers (R22). -/
theorem State.writeBlock_of_readOnly (s : State) (v : Word) (ha : offset.toNat % 4 = 0)
    (ho : 0x3C ≤ offset.toNat ∨ offset.toNat ∈ [0x004, 0x008, 0x00C, 0x030, 0x034, 0x038]) :
    s.writeBlock offset 4 v = .next s := by
  have ignored : ∀ {r : Reg}, Reg.ofOffset offset.toNat = some r → r ≠ .cmd → s.setOperand r v = s →
      s.writeBlock offset 4 v = .next s := fun hr hne hset =>
    (State.writeBlock_of_ofOffset ha hr).trans (State.writeReg_of_setOperand_eq hne hset)
  rcases ho with hlo | hlist
  · by_cases hhi : offset.toNat ≤ 0xFF
    · exact State.writeBlock_of_unlisted ha (Reg.ofOffset_eq_none hlo hhi)
    · exact ignored (Reg.ofOffset_symtab (by omega)) (by simp) rfl
  · simp only [List.mem_cons, List.not_mem_nil, or_false] at hlist
    rcases hlist with h | h | h | h | h | h
    · exact ignored (r := .status) (h ▸ rfl) (by simp) rfl
    · exact ignored (r := .cfg) (h ▸ rfl) (by simp) rfl
    · exact ignored (r := .result) (h ▸ rfl) (by simp) rfl
    · exact ignored (r := .errVal) (h ▸ rfl) (by simp) rfl
    · exact ignored (r := .errPos) (h ▸ rfl) (by simp) rfl
    · exact ignored (r := .ident) (h ▸ rfl) (by simp) rfl

end Accesses

/-- Settles O7: while BUSY a write is dropped by name, by offset and as a step; an aligned read answers. -/
theorem busyDropsRegisterWrites : Obligations.BusyDropsRegisterWrites := by
  refine fun s hbusy => ⟨State.writeReg_of_busy hbusy, fun offset rest ha => ⟨fun v ht => ?_, fun ht => ?_⟩⟩
  · exact (step_of_regWrite ht).trans (State.writeBlock_of_busy (s := { s with turns := rest }) hbusy ha)
  · obtain ⟨x, hx⟩ := s.exists_readBlock_eq_some ha
    exact ⟨x, hx, step_of_regRead ht hx⟩

/-- Settles O8: an access is illegal, or a read that answers, or a write that nothing takes. -/
theorem registerAccessRules : Obligations.RegisterAccessRules := by
  intro s offset width v rest
  refine ⟨fun hillegal => ⟨fun ht => ?_, fun ht => ?_⟩, fun ha ht => ?_, fun ha ho ht => ?_⟩
  · exact step_of_illegal_regRead ht (State.readBlock_of_illegal hillegal)
  · exact (step_of_regWrite ht).trans (State.writeBlock_of_illegal hillegal)
  · obtain ⟨x, hx⟩ := s.exists_readBlock_eq_some ha
    refine ⟨x, hx, step_of_regRead ht hx, fun hlo hhi => ?_⟩
    have hzero := State.readBlock_of_unlisted (s := s) ha (Reg.ofOffset_eq_none hlo hhi)
    exact Option.some.inj (hx.symm.trans hzero)
  · exact (step_of_regWrite ht).trans (State.writeBlock_of_readOnly _ v ha ho)

/-- Settles O9: each listed offset is that of its register. -/
theorem eachOffsetReadsItsField : Obligations.EachOffsetReadsItsField := by
  intro s offset r x h
  simp only [List.mem_cons, Prod.mk.injEq, List.not_mem_nil, or_false] at h
  obtain ⟨ha, hr, hx⟩ : offset.toNat % 4 = 0 ∧ Reg.ofOffset offset.toNat = some r ∧ s.readReg r = x := by
    rcases h with ⟨rfl, rfl, rfl⟩ | ⟨rfl, rfl, rfl⟩ | ⟨rfl, rfl, rfl⟩ | ⟨rfl, rfl, rfl⟩ | ⟨rfl, rfl, rfl⟩ |
      ⟨rfl, rfl, rfl⟩ | ⟨rfl, rfl, rfl⟩ | ⟨rfl, rfl, rfl⟩ | ⟨rfl, rfl, rfl⟩ | ⟨rfl, rfl, rfl⟩ | ⟨rfl, rfl, rfl⟩ |
      ⟨rfl, rfl, rfl⟩ | ⟨rfl, rfl, rfl⟩ <;> exact ⟨rfl, rfl, rfl⟩
  exact ⟨hx ▸ State.readBlock_of_ofOffset ha hr, hx⟩

/-! ### Operand registers (R27 to R30) -/

/-- The registers a host write sets while IDLE. -/
def operandRegs : List Reg := [.srcAddr, .srcLen, .dstAddr, .dstCap, .keyAddr, .keyLen, .colAddr, .colLen]

/-- An operand register reads what was written; the others read as before. -/
theorem State.readReg_setOperand (s : State) {r : Reg} (hr : r ∈ operandRegs) (v : Word) (q : Reg) :
    (s.setOperand r v).readReg q = if q = r then v else s.readReg q := by
  simp only [operandRegs, List.mem_cons, List.not_mem_nil, or_false] at hr
  rcases hr with rfl | rfl | rfl | rfl | rfl | rfl | rfl | rfl <;> cases q <;> rfl

theorem State.readBlock_setOperand_ne (s : State) {r : Reg} (hr : r ∈ operandRegs) (v : Word) {offset other : BitVec 9}
    (ha : offset.toNat % 4 = 0) (ho : Reg.ofOffset offset.toNat = some r) (hne : other ≠ offset)
    (hother : other.toNat % 4 = 0) : (s.setOperand r v).readBlock other 4 = s.readBlock other 4 := by
  cases hq : Reg.ofOffset other.toNat with
  | none => rw [State.readBlock_of_unlisted hother hq, State.readBlock_of_unlisted hother hq]
  | some q =>
    have hqr : q ≠ r := by
      rintro rfl
      have hsame : other.toNat = offset.toNat :=
        (Reg.offset_of_ofOffset hother other.isLt hq).symm.trans (Reg.offset_of_ofOffset ha offset.isLt ho)
      exact hne (BitVec.eq_of_toNat_eq hsame)
    rw [State.readBlock_of_ofOffset hother hq, State.readBlock_of_ofOffset hother hq, s.readReg_setOperand hr,
      if_neg hqr]

theorem State.writeReg_operand {s : State} (hidle : s.status.busy = false) {r : Reg} (hr : r ∈ operandRegs) (v : Word) :
    s.writeReg r v = .next (s.setOperand r v) := by
  have hne : r ≠ .cmd := fun h => absurd (h ▸ hr) (by decide)
  simp [State.writeReg, hidle, hne]

/-- Settles O10: the state of each entry is `setOperand`'s for the register at its offset. -/
theorem operandRegistersReadBack : Obligations.OperandRegistersReadBack := by
  intro s t offset r v hidle h
  simp only [List.mem_cons, Prod.mk.injEq, List.not_mem_nil, or_false] at h
  obtain ⟨ha, ho, rfl, hr⟩ : offset.toNat % 4 = 0 ∧ Reg.ofOffset offset.toNat = some r ∧ t = s.setOperand r v ∧
      r ∈ operandRegs := by
    rcases h with ⟨rfl, rfl, rfl⟩ | ⟨rfl, rfl, rfl⟩ | ⟨rfl, rfl, rfl⟩ | ⟨rfl, rfl, rfl⟩ | ⟨rfl, rfl, rfl⟩ |
      ⟨rfl, rfl, rfl⟩ | ⟨rfl, rfl, rfl⟩ | ⟨rfl, rfl, rfl⟩ <;> exact ⟨rfl, rfl, rfl, by decide⟩
  have hwrite := State.writeReg_operand hidle hr v
  refine ⟨hwrite, (State.writeBlock_of_ofOffset ha ho).trans hwrite, fun rest ht => ?_, ?_,
    fun other => State.readBlock_setOperand_ne s hr v ha ho⟩
  · rw [step_regWrite_of_ofOffset ha ho ht, State.writeReg_operand (s := { s with turns := rest }) hidle hr]
    cases r <;> rfl
  · rw [State.readBlock_of_ofOffset ha ho, s.readReg_setOperand hr, if_pos rfl]

/-! ### The bits of STATUS and CFG (R24, R25) -/

/-- The flags CFG_OK, ERR, DONE and BUSY below the other fields of a word. -/
def withFlags {n : Nat} (x : BitVec n) (cfgOk err done busy : Bool) : BitVec (n + 1 + 1 + 1 + 1) :=
  x ++ BitVec.ofBool cfgOk ++ BitVec.ofBool err ++ BitVec.ofBool done ++ BitVec.ofBool busy

theorem withFlags_getLsbD {n : Nat} (x : BitVec n) (cfgOk err done busy : Bool) :
    (withFlags x cfgOk err done busy).getLsbD 0 = busy ∧ (withFlags x cfgOk err done busy).getLsbD 1 = done ∧
      (withFlags x cfgOk err done busy).getLsbD 2 = err ∧ (withFlags x cfgOk err done busy).getLsbD 3 = cfgOk := by
  simp only [withFlags, BitVec.getLsbD_append]
  simp

theorem extractLsb'_withFlags {n : Nat} (x : BitVec n) (cfgOk err done busy : Bool) (start len : Nat) :
    (withFlags x cfgOk err done busy).extractLsb' (start + 4) len = x.extractLsb' start len := by
  rw [withFlags]
  iterate 4 rw [BitVec.extractLsb'_append_eq_of_le (by omega)]
  rfl

/-- The flags of STATUS stand below its other fields (R25). -/
theorem Status.word_flags (s : Status) :
    s.word.getLsbD 0 = s.busy ∧ s.word.getLsbD 1 = s.done ∧ s.word.getLsbD 2 = s.err ∧ s.word.getLsbD 3 = s.cfgOk :=
  withFlags_getLsbD (0#16 ++ s.errSub ++ s.errCode.number) _ _ _ _

theorem Status.extractLsb'_word (s : Status) (start len : Nat) :
    s.word.extractLsb' (start + 4) len = (0#16 ++ s.errSub ++ s.errCode.number).extractLsb' start len :=
  extractLsb'_withFlags (0#16 ++ s.errSub ++ s.errCode.number) _ _ _ _ start len

theorem Status.word_fields (s : Status) :
    s.word.extractLsb' 4 4 = s.errCode.number ∧ s.word.extractLsb' 8 8 = s.errSub ∧ s.word.extractLsb' 16 16 = 0#16 := by
  refine ⟨(s.extractLsb'_word 0 4).trans ?_, (s.extractLsb'_word 4 8).trans ?_, (s.extractLsb'_word 12 16).trans ?_⟩
  · rw [BitVec.extractLsb'_append_eq_of_add_le (by decide), BitVec.extractLsb'_eq_self]
  · rw [BitVec.extractLsb'_append_eq_of_le (by decide), BitVec.extractLsb'_append_eq_of_add_le (by decide),
      BitVec.extractLsb'_eq_self]
  · rw [BitVec.extractLsb'_append_eq_of_le (by decide), BitVec.extractLsb'_append_eq_of_le (by decide)]
    rfl

theorem Cfg.word_fields (c : Cfg) :
    4 + (c.word.extractLsb' 0 2).toNat = c.width.bits ∧ c.word.getLsbD 2 = c.strict ∧ c.word.getLsbD 3 = c.preserve ∧
      c.word.extractLsb' 4 28 = 0#28 := by
  obtain ⟨w, strict, preserve⟩ := c
  cases w <;> revert strict preserve <;> decide

/-- Settles O11: STATUS and CFG are read off their words; the numbers of the codes are `FaultCode.number`'s. -/
theorem statusAndCfgRegisterBits : Obligations.StatusAndCfgRegisterBits := by
  intro s
  obtain ⟨hbusy, hdone, herr, hcfgOk⟩ := s.status.word_flags
  obtain ⟨hcode, hsub, hzero⟩ := s.status.word_fields
  refine ⟨⟨s.status.word, rfl, hbusy, hdone, herr, hcfgOk, hcode.trans ?_, hsub, hzero⟩,
    ⟨s.cfgWord, rfl, fun hok => by simp [State.cfgWord, hok], fun hok => ?_⟩, rfl⟩
  · cases s.status.errCode <;> rfl
  · rw [State.cfgWord, if_pos hok]
    exact s.cfg.word_fields

/-- Settles O12: offset 0x100 + 4 i is SYMTAB[i]'s, which shows the symbol or 0. -/
theorem symtabShowsTheAlphabet : Obligations.SymtabShowsTheAlphabet := by
  intro s i h
  have hoff : (BitVec.ofNat 9 (0x100 + 4 * i)).toNat = 0x100 + 4 * i := by
    rw [BitVec.toNat_ofNat]
    omega
  have hindex : Fin.ofNat 64 ((0x100 + 4 * i - 0x100) / 4) = ⟨i, h⟩ := by
    apply Fin.ext
    simp only [Fin.ofNat]
    omega
  have hreg : Reg.ofOffset (BitVec.ofNat 9 (0x100 + 4 * i)).toNat = some (.symtab ⟨i, h⟩) := by
    rw [hoff, Reg.ofOffset_symtab (by omega), hindex]
  have hsym : (s.symbol i).zeroExtend 32 = s.sym[i].setWidth 32 := by
    have hlt : s.sym[i].toNat < 128 := s.sym[i].isLt
    apply BitVec.eq_of_toNat_eq
    simp only [State.symbol, Vector.getElem?_eq_getElem h, Option.getD_some, BitVec.toNat_setWidth]
    omega
  change _ = some (if s.status.cfgOk = true ∧ i < s.cfg.width.size then _ else _)
  rw [State.readBlock_of_ofOffset (by omega) hreg, State.readReg]
  simp [State.symtabWord, hsym]

end Sys2Proof.Machine

/-! SUPPORT. The ranges in flight, races, and reset of a command in flight (70_reset_and_hazards.md R230 to R241). -/

namespace Sys2Proof.Machine

/-! ### The bytes of the command in flight (R240) -/

section InFlight
variable {s : State} {a : Nat}

theorem State.inFlight_of_decode {i : Instr} (hbusy : s.status.busy = true) (hd : decode s.cmdLatch = .ok i) :
    s.inFlight = s.commandFootprint i := by
  simp [State.inFlight, hbusy, hd]

/-- Without a command in flight, or on a word that does not decode, no range is in flight (R86). -/
theorem State.inFlight_of_none (h : ¬(s.status.busy = true ∧ ∃ i, decode s.cmdLatch = .ok i)) :
    s.inFlight = { reads := [], writes := [] } := by
  unfold State.inFlight
  split_ifs with hbusy
  · split
    next i hd => exact absurd ⟨hbusy, i, hd⟩ h
    next => rfl
  · rfl

theorem State.inFlight_readsAt_iff : s.inFlight.readsAt a ↔ readsInFlight s a := by
  by_cases h : s.status.busy = true ∧ ∃ i, decode s.cmdLatch = .ok i
  · obtain ⟨hbusy, i, hd⟩ := h
    rw [State.inFlight_of_decode hbusy hd, commandFootprint_readsAt_iff (wellFormed_and_encode_of_decode hd).1]
    simp [readsInFlight, hbusy, hd]
  · rw [State.inFlight_of_none h]
    exact iff_of_false (by simp [Footprint.readsAt]) fun ⟨hbusy, i, hd, _⟩ => h ⟨hbusy, i, hd⟩

theorem State.inFlight_writesAt_iff : s.inFlight.writesAt a ↔ writesInFlight s a := by
  by_cases h : s.status.busy = true ∧ ∃ i, decode s.cmdLatch = .ok i
  · obtain ⟨hbusy, i, hd⟩ := h
    rw [State.inFlight_of_decode hbusy hd, commandFootprint_writesAt_iff]
    simp [writesInFlight, hbusy, hd]
  · rw [State.inFlight_of_none h]
    exact iff_of_false (by simp [Footprint.writesAt]) fun ⟨hbusy, i, hd, _⟩ => h ⟨hbusy, i, hd⟩

theorem State.byteInFlight_iff :
    s.byteInFlight a = true ↔
      readsInFlight s a ∨ writesInFlight s a ∨ ∃ p ∈ s.peers, p.readsAt a ∨ p.writesAt a := by
  simp only [State.byteInFlight, Bool.or_eq_true, List.any_eq_true, Footprint.touches_iff, State.inFlight_readsAt_iff,
    State.inFlight_writesAt_iff, or_assoc]

end InFlight

/-! ### Host writes (R240) -/

section HostWrite
variable {s : State} {addr : Word} {b : Byte} {rest : List Turn}

theorem step_of_memWrite (ht : s.turns = .access (.memWrite addr b) :: rest) :
    step s = ({ s with turns := rest } : State).hostWriteByte addr.toNat b :=
  step_of_turns_cons ht

theorem State.hostWriteByte_of_inFlight (hblock : s.platform.block.contains addr.toNat = false)
    (h : s.byteInFlight addr.toNat = true) : s.hostWriteByte addr.toNat b = .fault .hostRace := by
  simp [State.hostWriteByte, hblock, h]

theorem State.hostWriteByte_of_not_inFlight (hblock : s.platform.block.contains addr.toNat = false)
    (h : s.byteInFlight addr.toNat = false) :
    s.hostWriteByte addr.toNat b = .next { s with mem := s.mem.write addr.toNat b } := by
  simp [State.hostWriteByte, hblock, h]

end HostWrite

/-- Settles O48: the bytes named are those `byteInFlight` finds. -/
theorem hostWriteToARangeInFlightIsARace : Obligations.HostWriteToARangeInFlightIsARace := by
  intro s addr b hblock hbyte
  have hin : s.byteInFlight addr.toNat = true := State.byteInFlight_iff.2 hbyte
  exact ⟨State.hostWriteByte_of_inFlight hblock hin, fun rest ht =>
    (step_of_memWrite ht).trans (State.hostWriteByte_of_inFlight (s := { s with turns := rest }) hblock hin)⟩

/-- Settles O49: beside the bytes in flight a host write is a write to memory. -/
theorem hostWriteChangesOneByte : Obligations.HostWriteChangesOneByte := by
  intro s addr b hwf hblock hreads hwrites hpeers
  have hfree : s.byteInFlight addr.toNat = false := by
    rw [← Bool.not_eq_true, State.byteInFlight_iff]
    rintro (hr | hw | ⟨p, hp, hr | hw⟩)
    · exact hreads hr
    · exact hwrites hw
    · exact (hpeers p hp).1 hr
    · exact (hpeers p hp).2 hw
  exact ⟨s.mem.write addr.toNat b, State.hostWriteByte_of_not_inFlight hblock hfree,
    fun rest ht => (step_of_memWrite ht).trans
      (State.hostWriteByte_of_not_inFlight (s := { s with turns := rest }) hblock hfree),
    Memory.wf_write hwf addr.isLt b, Memory.read_write_same hwf _ b, fun a ha => Memory.read_write_ne _ ha b⟩

/-! ### The issue of a command beside other SPEs (R241) -/

section Issue
variable {s : State} {p : Footprint} {rest : List Turn}

/-- The command here conflicts with another SPE's where one writes a byte the other uses. -/
theorem State.inFlight_conflicts_iff :
    s.inFlight.conflicts p = true ↔
      ∃ a, Conflict (readsInFlight s a) (writesInFlight s a) (p.readsAt a) (p.writesAt a) := by
  simp only [Footprint.conflicts_iff, State.inFlight_readsAt_iff, State.inFlight_writesAt_iff]

/-- It does not matter which of two commands is named first. -/
theorem Conflict.symm {r w r' w' : Prop} (h : Conflict r w r' w') : Conflict r' w' r w := Or.symm h

theorem step_of_peerIssue (ht : s.turns = .peerIssue p :: rest) :
    step s = ({ s with turns := rest } : State).peerIssue p := step_of_turns_cons ht

theorem State.peerIssue_of_conflict (h : s.inFlight.conflicts p = true ∨ ∃ q ∈ s.peers, p.conflicts q = true) :
    s.peerIssue p = .fault .instanceRace := by
  rw [State.peerIssue, if_pos]
  simpa using h

theorem State.peerIssue_of_no_conflict (h : s.inFlight.conflicts p = false) (hpeers : ∀ q ∈ s.peers, p.conflicts q = false) :
    s.peerIssue p = .next { s with peers := s.peers ++ [p] } := by
  rw [State.peerIssue, if_neg]
  simpa [h] using hpeers

/-- The word issued is the command then in flight, with the operands as they stand. -/
theorem readsInFlight_issueWord {v : Word} {i : Instr} (hd : decode v = .ok i) (a : Nat) :
    readsInFlight (s.issueWord v) a ↔ readsByte s i a := by
  have hsame : ∀ j, readsByte (s.issueWord v) j a ↔ readsByte s j a := fun j => by cases j <;> exact Iff.rfl
  simp [readsInFlight, hd, hsame]

theorem writesInFlight_issueWord {v : Word} {i : Instr} (hd : decode v = .ok i) (a : Nat) :
    writesInFlight (s.issueWord v) a ↔ writesByte s i a := by
  have hsame : ∀ j, writesByte (s.issueWord v) j a ↔ writesByte s j a := fun j => by cases j <;> exact Iff.rfl
  simp [writesInFlight, hd, hsame]

theorem issueWord_conflicts_iff {v : Word} {i : Instr} (hd : decode v = .ok i) :
    (s.issueWord v).inFlight.conflicts p = true ↔
      ∃ a, Conflict (readsByte s i a) (writesByte s i a) (p.readsAt a) (p.writesAt a) := by
  simp only [State.inFlight_conflicts_iff, readsInFlight_issueWord hd, writesInFlight_issueWord hd]

/-- A word that does not decode conflicts with nothing (R86). -/
theorem issueWord_conflicts_of_not_decode {v : Word} (hd : ¬∃ i, decode v = .ok i) :
    (s.issueWord v).inFlight.conflicts p = false := by
  rw [State.inFlight_of_none fun h => hd h.2]
  simp [Footprint.conflicts]

theorem State.issue_of_conflict {v : Word} (hp : p ∈ s.peers) (h : (s.issueWord v).inFlight.conflicts p = true) :
    s.issue v = .fault .instanceRace := by
  simp only [State.issue]
  rw [if_pos (List.any_eq_true.2 ⟨p, hp, h⟩)]

end Issue

/-- Settles O50: a conflict on a byte is a conflict of footprints, at the issue elsewhere and at the issue here. -/
theorem conflictingInstancesAreARace : Obligations.ConflictingInstancesAreARace := by
  refine ⟨fun s p a rest ht hc => ?_, fun s v i p a hidle hd hp hc => ?_, fun s p q a rest ht hq hc => ?_⟩
  · exact (step_of_peerIssue ht).trans (State.peerIssue_of_conflict (.inl (State.inFlight_conflicts_iff.2 ⟨a, hc⟩)))
  · have hconf := issueWord_conflicts_iff hd |>.2 ⟨a, hc⟩
    refine ⟨(State.writeReg_cmd_of_idle hidle v).trans (State.issue_of_conflict hp hconf), fun rest ht => ?_⟩
    rw [step_regWrite_of_ofOffset rfl rfl ht, State.writeReg_cmd_of_idle (s := { s with turns := rest }) hidle]
    exact State.issue_of_conflict (s := { s with turns := rest }) hp hconf
  · exact (step_of_peerIssue ht).trans
      (State.peerIssue_of_conflict (.inr ⟨q, hq, Footprint.conflicts_iff.2 ⟨a, Conflict.symm hc⟩⟩))

/-- Settles O51: without a conflict on any byte no footprints conflict. -/
theorem instancesWithoutConflictGoOn : Obligations.InstancesWithoutConflictGoOn := by
  constructor
  · intro s p rest ht hhere hpeers
    refine (step_of_peerIssue ht).trans (State.peerIssue_of_no_conflict ?_ fun q hq => ?_)
    · rw [← Bool.not_eq_true]
      exact fun hc => (State.inFlight_conflicts_iff.1 hc).elim hhere
    · rw [← Bool.not_eq_true]
      exact fun hc => (Footprint.conflicts_iff.1 hc).elim fun a ha => hpeers q hq a (Conflict.symm ha)
  · intro s v hidle hpeers
    refine State.writeReg_cmd_issues hidle fun p hp => ?_
    by_cases hd : ∃ i, decode v = .ok i
    · obtain ⟨i, hi⟩ := hd
      rw [← Bool.not_eq_true, issueWord_conflicts_iff hi]
      exact fun ⟨a, ha⟩ => hpeers i hi p hp a ha
    · exact issueWord_conflicts_of_not_decode hd

/-! ### Reset (R231 to R233) -/

/-- Settles O14: what no register shows after a reset is as `State.reset` has it. -/
theorem resetClearsHiddenState : Obligations.ResetClearsHiddenState := fun _ _ hturns =>
  ⟨_, step_of_reset_turn hturns, rfl, rfl, rfl, clearedSym_getElem, clearedCodeOf_getElem, rfl, rfl, rfl, rfl⟩

theorem read_foldl_havoc_outside (m : Memory) (count : Nat) {ranges : List Range} {a : Nat}
    (h : ∀ r ∈ ranges, ¬r.contains a = true) :
    (ranges.foldl (fun m r => m.havoc count r.base r.len) m).read a = m.read a := by
  induction ranges generalizing m with
  | nil => rfl
  | cons r rest ih =>
    simp only [List.forall_mem_cons, Range.contains_iff] at h
    obtain ⟨hr, hrest⟩ := h
    rw [List.foldl_cons, ih _ (by simpa using hrest), Memory.read_havoc_outside _ _ _ _ (by omega)]

/-- The words of PACK and UNPACK are the only ones whose commands write memory. -/
theorem writesInFlight_imp {s : State} {a : Nat} (h : writesInFlight s a) :
    s.status.busy = true ∧
      ((s.cmdLatch = 0x2#32 ∨ s.cmdLatch = 0x3#32) ∧ s.dstRange.contains a = true ∨
        s.cmdLatch = 0x2#32 ∧ s.cfg.preserve = false ∧ s.srcRange.contains a = true) := by
  obtain ⟨hbusy, i, hd, hw⟩ := h
  obtain ⟨-, hword⟩ := wellFormed_and_encode_of_decode hd
  refine ⟨hbusy, ?_⟩
  rw [← hword]
  cases i with
  | pack => exact hw.imp (⟨.inl rfl, ·⟩) (⟨rfl, ·⟩)
  | unpack => exact .inl ⟨.inr rfl, hw⟩
  | _ => exact hw.elim

/-- Settles O15: reset gives free values to the ranges the command in flight writes, and to no other byte. -/
theorem resetTouchesOnlyAbandonedRanges : Obligations.ResetTouchesOnlyAbandonedRanges := by
  intro s rest a hturns hout
  have hwrites : ¬s.inFlight.writesAt a := fun h => hout (writesInFlight_imp (State.inFlight_writesAt_iff.1 h))
  refine ⟨_, step_of_reset_turn hturns, ?_, rfl⟩
  exact read_foldl_havoc_outside s.mem _ fun r hr hc => hwrites ⟨r, hr, hc⟩

end Sys2Proof.Machine

/-! SUPPORT. The host program (30_encoding.md R93, R94): the values of expressions, what each line does, and WAIT. -/

namespace Sys2Proof.Machine

/-! ### Expressions (R9, R93) -/

theorem shiftLeft_toNat (a b : Word) : (shiftLeft a b).toNat = a.toNat * 2 ^ b.toNat % 2 ^ 32 := by
  unfold shiftLeft
  split_ifs with h
  · have hdvd : 2 ^ 32 ∣ a.toNat * 2 ^ b.toNat := Dvd.dvd.mul_left (Nat.pow_dvd_pow 2 h) _
    exact (Nat.mod_eq_zero_of_dvd hdvd).symm
  · rw [BitVec.toNat_shiftLeft, Nat.shiftLeft_eq]

theorem shiftRight_toNat (a b : Word) : (shiftRight a b).toNat = a.toNat / 2 ^ b.toNat := by
  unfold shiftRight
  split_ifs with h
  · exact (Nat.div_eq_of_lt (a.isLt.trans_le (Nat.pow_le_pow_right Nat.zero_lt_two h))).symm
  · rw [BitVec.toNat_ushiftRight, Nat.shiftRight_eq_div_pow]

theorem bitValue_toNat (x : Word) (i : Nat) : (BitVec.ofNat 32 (x.getLsbD i).toNat).toNat = x.toNat / 2 ^ i % 2 := by
  rw [← BitVec.testBit_toNat, Nat.toNat_testBit, BitVec.toNat_ofNat]
  omega

/-- Settles O53: the operations of words as integers. -/
theorem hostExpressionsAreMod32 : Obligations.HostExpressionsAreMod32 := by
  refine ⟨fun h a b t v => ⟨rfl, rfl, bitValue_toNat _ _, BitVec.toNat_add _ _, ?_, BitVec.toNat_and _ _,
    shiftLeft_toNat _ _, shiftRight_toNat _ _⟩, fun x y => ?_⟩
  · rw [HostState.eval, BitVec.toNat_sub]
    omega
  · simp [Relation.holds, ← BitVec.toNat_inj]

/-! ### Temporaries -/

section Temps
variable {s : State}

theorem HostState.temp_setTemp_same (h : tableCanonical Config.unwrittenTemp s.host.temps = true) (u : Nat) (v : Word) :
    (s.setTemp u v).host.temp u = v :=
  tableRead_tableWrite_same (lo := none) h u v

theorem HostState.temp_setTemp_ne (s : State) {u q : Nat} (h : q ≠ u) (v : Word) :
    (s.setTemp u v).host.temp q = s.host.temp q :=
  tableRead_tableWrite_ne h _ _

/-- A line that writes a temporary changes that temporary and the line alone (R93). -/
theorem exists_setTemp_nextLine (h : tableCanonical Config.unwrittenTemp s.host.temps = true) (u : Nat) (v : Word) :
    ∃ g : HostState, (s.setTemp u v).nextLine = { s with host := g } ∧ g.temp u = v ∧
      (∀ q, q ≠ u → g.temp q = s.host.temp q) ∧ g.line = s.host.line + 1 ∧ g.program = s.host.program :=
  ⟨_, rfl, HostState.temp_setTemp_same h u v, fun _ hq => HostState.temp_setTemp_ne s hq v, rfl, rfl⟩

end Temps

/-! ### Lines as steps -/

theorem hostStep_of_line {s : State} {l : HostLine} (h : s.host.program[s.host.line]? = some l) :
    hostStep s = execLine s l := by
  simp only [hostStep, h]

theorem step_of_host_turn {s : State} {l : HostLine} {rest : List Turn} (ht : s.turns = .host :: rest)
    (hl : s.host.program[s.host.line]? = some l) : step s = execLine { s with turns := rest } l :=
  (step_of_turns_cons ht).trans (hostStep_of_line (s := { s with turns := rest }) hl)

theorem State.setOperand_host (s : State) (r : Reg) (v : Word) : (s.setOperand r v).host = s.host := by
  cases r <;> rfl

theorem State.writeReg_host {s t : State} {r : Reg} {v : Word} (h : s.writeReg r v = .next t) : t.host = s.host := by
  obtain rfl | ⟨-, rfl⟩ | ⟨-, rfl⟩ := State.writeReg_cases h
  · rfl
  · rfl
  · exact s.setOperand_host r v

theorem State.hostWriteByte_host {s t : State} {a : Nat} {b : Byte} (h : s.hostWriteByte a b = .next t) :
    t.host = s.host := by
  obtain rfl := State.hostWriteByte_cases h
  rfl

/-- A line that makes a host write ends as the write does, and goes on where the write does not stop. -/
theorem thenNextLine_spec {o : Host.Outcome State Fault Refusal} {h : HostState} (ho : ∀ t, o = .next t → t.host = h) :
    (∀ t, o = .next t → thenNextLine o = .next { t with host := { h with line := h.line + 1 } }) ∧
      ∀ f, o = .fault f → thenNextLine o = .fault f := by
  constructor
  · rintro t rfl
    obtain rfl := ho t rfl
    rfl
  · rintro f rfl
    rfl

/-- Settles O52: each line as `execLine` runs it in the state whose turn is taken. -/
theorem hostLinesDoWhatTheySay : Obligations.HostLinesDoWhatTheySay := by
  intro s l rest ht hl htemps
  have hstep := step_of_host_turn ht hl
  have writesTemp : ∀ u v,
      execLine { s with turns := rest } l = .next (({ s with turns := rest } : State).setTemp u v).nextLine →
      ∃ g : HostState, step s = .next { s with turns := rest, host := g } ∧ g.temp u = v ∧
        (∀ q, q ≠ u → g.temp q = s.host.temp q) ∧ g.line = s.host.line + 1 ∧ g.program = s.host.program := by
    intro u v hexec
    obtain ⟨g, hg, hrest⟩ := exists_setTemp_nextLine (s := { s with turns := rest }) htemps u v
    exact ⟨g, hstep.trans (hexec.trans (congrArg _ hg)), hrest⟩
  refine ⟨?_, ?_, ?_, ?_, ?_, ?_, ?_, ?_, ?_⟩
  · rintro r u rfl
    exact writesTemp u _ rfl
  · rintro u e rfl hblock
    refine writesTemp u _ ?_
    simp only [execLine, State.hostReadByte, hblock]
    rfl
  · rintro u e rfl
    exact writesTemp u _ rfl
  · rintro r e o rfl rfl
    rw [hstep]
    exact thenNextLine_spec fun t => State.writeReg_host (s := { s with turns := rest })
  · rintro i o rfl rfl
    rw [hstep]
    exact thenNextLine_spec fun t => State.writeReg_host (s := { s with turns := rest })
  · rintro e v o rfl rfl
    rw [hstep]
    exact thenNextLine_spec fun t => State.hostWriteByte_host (s := { s with turns := rest })
  · rintro target rfl
    exact hstep
  · rintro rfl
    exact hstep
  · rintro a rel b target rfl
    rw [hstep, execLine]
    split_ifs <;> rfl

/-! ### WAIT (R94) -/

/-- The engine leaves the host and the turns alone. -/
theorem CommandEnd.host_turns {s t : State} {i : Instr} (h : CommandEnd s i t) : t.host = s.host ∧ t.turns = s.turns := by
  cases h <;> exact ⟨rfl, rfl⟩

theorem engineStep_host_turns {s t : State} (h : engineStep s = .next t) : t.host = s.host ∧ t.turns = s.turns := by
  unfold engineStep at h
  split at h
  · split at h
    next => exact (exec_commandEnd h).host_turns
    next => exact Host.Outcome.next.inj h ▸ ⟨rfl, rfl⟩
  · exact Host.Outcome.next.inj h ▸ ⟨rfl, rfl⟩

/-- While IDLE and with nobody named, the host executes its line (log 1). -/
theorem step_of_idle {s : State} {l : HostLine} (hturns : s.turns = []) (hidle : s.status.busy = false)
    (hl : s.host.program[s.host.line]? = some l) : step s = execLine s l := by
  rw [step_of_turns_nil hturns, defaultTurn, if_neg (by simp [hidle])]
  exact hostStep_of_line hl

/-- The read of STATUS puts DONE in bit 1 of WAIT's temporary. -/
theorem eval_waitBit {h : HostState} {x : Status} (ht : h.temp waitTemp = x.word) (hdone : x.done = true) :
    h.eval (.bit waitTemp (.lit 1#32)) = 1#32 := by
  obtain ⟨-, hbit, -, -⟩ := x.word_flags
  have hone : (1#32 : Word).toNat = 1 := rfl
  rw [HostState.eval, HostState.eval, ht, hone, hbit, hdone]
  rfl

/-- With DONE = 1, the two lines of WAIT bring the host past it. -/
theorem wait_of_done {s : State} {line : Nat} (hturns : s.turns = []) (hidle : s.status.busy = false)
    (hdone : s.status.done = true) (htemps : tableCanonical Config.unwrittenTemp s.host.temps = true)
    (hfirst : s.host.program[line]? = some (.rd .status waitTemp))
    (hsecond : s.host.program[line + 1]? =
      some (.ifGoto (.bit waitTemp (.lit 1#32)) .eq (.lit 0#32) line)) (hline : s.host.line = line) :
    runSteps 2 s = .next (((s.setTemp waitTemp s.status.word).nextLine).nextLine) := by
  subst hline
  have hread : step s = .next (s.setTemp waitTemp s.status.word).nextLine := step_of_idle hturns hidle hfirst
  have hbit : (s.setTemp waitTemp s.status.word).nextLine.host.eval (.bit waitTemp (.lit 1#32)) = 1#32 :=
    eval_waitBit (HostState.temp_setTemp_same htemps _ _) hdone
  have htest : step (s.setTemp waitTemp s.status.word).nextLine =
      .next (s.setTemp waitTemp s.status.word).nextLine.nextLine := by
    rw [step_of_idle (s := (s.setTemp waitTemp s.status.word).nextLine) hturns hidle hsecond, execLine, hbit]
    rfl
  simp only [runSteps, hread, htest]

/-- Settles O54: the engine's step completes the command; the two lines of WAIT then find DONE = 1. -/
theorem waitEndsWithTheCommandDone : Obligations.WaitEndsWithTheCommandDone := by
  intro s before after hturns hbusy htemps hprogram hline
  obtain ⟨t, ht, hcompleted⟩ := engineStep_completes hbusy
  obtain ⟨hhost, hturns'⟩ := engineStep_host_turns ht
  have hfirst : s.host.program[before.length]? = some (.rd .status waitTemp) := by
    simp [hprogram, waitLines]
  have hsecond : s.host.program[before.length + 1]? =
      some (.ifGoto (.bit waitTemp (.lit 1#32)) .eq (.lit 0#32) before.length) := by
    simp [hprogram, waitLines]
  have hwait := wait_of_done (hturns'.trans hturns) hcompleted.idle hcompleted.done (hhost ▸ htemps) (hhost ▸ hfirst)
    (hhost ▸ hsecond) (hhost ▸ hline)
  refine ⟨(t.setTemp waitTemp t.status.word).nextLine.nextLine, ?_, ?_, hcompleted.idle, hcompleted.done⟩
  · rw [runSteps, step_of_busy hturns hbusy, ht]
    exact hwait
  · simp [hhost, hline]

end Sys2Proof.Machine

/-! SUPPORT. CONFIG of a list and of a default list (40_config.md R101 to R109): the first fault of a list, and the state a
commit leaves. -/

namespace Sys2Proof.Machine

/-! ### The list as bytes of memory (R101) -/

section LoadedList
variable {s : State} {w : Width}

theorem symbolList_getElem {i : Nat} (h : i < (s.symbolList w false).length) :
    (s.symbolList w false)[i] = s.mem.read (s.srcAddr.toNat + i) :=
  Memory.readBytes_get s.mem s.srcAddr.toNat w.size i (by simpa [State.symbolList_length] using h)

theorem symbolList_getD {i : Nat} (h : i < w.size) :
    (s.symbolList w false).getD i 0#8 = s.mem.read (s.srcAddr.toNat + i) := by
  have hlen : i < (s.symbolList w false).length := by rwa [State.symbolList_length]
  rw [List.getD_eq_getElem _ _ hlen, symbolList_getElem hlen]

theorem symbolList_nodup
    (h : ∀ i, i < w.size → ∀ j, j < i → s.mem.read (s.srcAddr.toNat + j) ≠ s.mem.read (s.srcAddr.toNat + i)) :
    (s.symbolList w false).Nodup := by
  refine List.pairwise_iff_getElem.2 fun i j hi hj hij => ?_
  rw [symbolList_getElem hi, symbolList_getElem hj]
  rw [State.symbolList_length] at hj
  exact h j hj i hij

/-- The list checks come after those of SRC_LEN and of the range (R101). -/
theorem configFault_of_admitted (hlen : s.srcLen.toNat = w.size)
    (hadm : Admitted s.platform { base := s.srcAddr.toNat, len := w.size }) :
    configFault s w false =
      (highSymbolFault 0 (s.symbolList w false) <|> duplicateFault 0 [] (s.symbolList w false)) := by
  have hrange : rangeFault s.platform .source (s.listRange w) = none := rangeFault_eq_none_iff.2 hadm
  simp [configFault, sizeFault_eq_none_iff.2 hlen, hrange]

end LoadedList

/-! ### The first fault of a list (R100, R101, R105) -/

/-- RANGE names the first byte of 128 or more. -/
theorem highSymbolFault_eq_some {i k : Nat} {l : List Byte} (hk : k < l.length) (h : 128 ≤ l[k].toNat)
    (hb : ∀ j (hj : j < k), (l[j]'(hj.trans hk)).toNat < 128) :
    highSymbolFault i l = some { code := .configError, sub := 2#8, val := l[k].toNat, pos := i + k } := by
  induction l generalizing i k with
  | nil => simp at hk
  | cons b bs ih =>
    unfold highSymbolFault
    cases k with
    | zero => exact if_pos h
    | succ k =>
      have h0 : b.toNat < 128 := hb 0 (by omega)
      rw [if_neg (by omega), ih (by simpa using hk) h fun j hj => hb (j + 1) (by omega)]
      congr 2
      omega

/-- DUPLICATE names the first byte that stands earlier. -/
theorem duplicateFault_eq_some {i k : Nat} {seen l : List Byte} (hk : k < l.length)
    (h : l[k] ∈ seen ∨ ∃ (j : Nat) (hj : j < k), l[j]'(hj.trans hk) = l[k])
    (hb : ∀ m (hm : m < k), l[m]'(hm.trans hk) ∉ seen ∧
      ∀ j (hj : j < m), l[j]'((hj.trans hm).trans hk) ≠ l[m]'(hm.trans hk)) :
    duplicateFault i seen l = some { code := .configError, sub := 3#8, val := l[k].toNat, pos := i + k } := by
  induction l generalizing i k seen with
  | nil => simp at hk
  | cons b bs ih =>
    unfold duplicateFault
    cases k with
    | zero => exact if_pos (h.resolve_right fun ⟨j, hj, _⟩ => absurd hj (by omega))
    | succ k =>
      obtain ⟨hfresh, -⟩ := hb 0 (by omega)
      rw [if_neg (show b ∉ seen from hfresh), ih (seen := b :: seen) (by simpa using hk) ?_ fun m hm => ?_]
      · simp only [List.getElem_cons_succ, Nat.add_assoc, Nat.add_comm 1 k]
      · rcases h with hseen | ⟨j, hj, heq⟩
        · exact .inl (List.mem_cons_of_mem _ hseen)
        · cases j with
          | zero => exact .inl (List.mem_cons.2 (.inl heq.symm))
          | succ j => exact .inr ⟨j, by omega, heq⟩
      · obtain ⟨hseen, hearlier⟩ := hb (m + 1) (by omega)
        refine ⟨fun hmem => ?_, fun j hj => hearlier (j + 1) (by omega)⟩
        rcases List.mem_cons.1 hmem with heq | hmem
        · exact hearlier 0 (by omega) heq.symm
        · exact hseen hmem

theorem exec_config_fault_end {s : State} {w : Width} {dflt : Bool} {f : SpeFault} (strict preserve : Bool)
    (h : configFault s w dflt = some f) :
    exec (.config w.sel strict preserve dflt) s = .next (s.configFaultEnd f.code f.sub f.val f.pos) := by
  rw [exec_config_of_fault strict preserve h, unconfigure_failWith_eq]

/-- Settles O19: `configFault` is the first of the four checks that fails. -/
theorem configFaultsInOrder : Obligations.ConfigFaultsInOrder := by
  intro s w strict preserve
  refine ⟨fun hlen => ?_, fun hlen a ha => ?_, fun hlen hadm i hi hhigh hlow => ?_,
    fun hlen hadm hvalid i hi hdup hfresh => ?_⟩
  · refine exec_config_fault_end strict preserve (f := ⟨.configError, 1#8, 0, s.srcLen.toNat⟩) ?_
    simp [configFault, sizeFault_of_ne hlen]
  · refine exec_config_fault_end strict preserve (f := ⟨.busError, 0#8, 1, a⟩) ?_
    have hrange : rangeFault s.platform .source (s.listRange w) = some ⟨.busError, 0#8, 1, a⟩ :=
      rangeFault_of_refusedAt ha .source
    simp [configFault, sizeFault_eq_none_iff.2 hlen, hrange]
  · have hk : i < (s.symbolList w false).length := by rwa [State.symbolList_length]
    refine exec_config_fault_end strict preserve
      (f := ⟨.configError, 2#8, (s.mem.read (s.srcAddr.toNat + i)).toNat, i⟩) ?_
    rw [configFault_of_admitted hlen hadm, highSymbolFault_eq_some hk (by rwa [symbolList_getElem]) fun j hj => by
      rw [symbolList_getElem]; exact hlow j hj]
    simp [symbolList_getElem]
  · have hk : i < (s.symbolList w false).length := by rwa [State.symbolList_length]
    refine exec_config_fault_end strict preserve
      (f := ⟨.configError, 3#8, (s.mem.read (s.srcAddr.toNat + i)).toNat, i⟩) ?_
    have hhigh : highSymbolFault 0 (s.symbolList w false) = none :=
      highSymbolFault_eq_none_iff.2 (State.readRange_forall hvalid)
    obtain ⟨j, hj, heq⟩ := hdup
    rw [configFault_of_admitted hlen hadm, hhigh, duplicateFault_eq_some hk
      (.inr ⟨j, hj, by rw [symbolList_getElem, symbolList_getElem, heq]⟩) fun m hm => ⟨by simp, fun j hj => by
        rw [symbolList_getElem, symbolList_getElem]; exact hfresh m hm j hj⟩]
    simp [symbolList_getElem]

/-! ### The state a commit leaves (R103, R108) -/

/-- A commit and success as one record update. -/
theorem commitConfig_succeed_eq (s : State) (w : Width) (strict preserve : Bool) (l : List Byte) :
    (s.commitConfig w strict preserve l).succeed w.size =
      { s with
        cfg := { width := w, strict := strict, preserve := preserve }
        sym := symTable l
        codeOf := codeTable l
        result := BitVec.ofNat 32 (2 ^ w.bits)
        errVal := 0#32
        errPos := 0#32
        status :=
          { busy := false, done := true, err := false, cfgOk := true, errCode := .noFault, errSub := 0#8 } } := by
  rw [State.succeed, BitVec.ofInt_natCast]
  rfl

/-- Settles O16: no check of a valid list fails, and the tables hold the list and its inverse. -/
theorem configLoadsTheAlphabet : Obligations.ConfigLoadsTheAlphabet := by
  intro s w strict preserve hlen hadm hvalid hdistinct
  have hnodup := symbolList_nodup hdistinct
  have hnone : configFault s w false = none := by
    rw [configFault_of_admitted hlen hadm, orElse_eq_none_iff]
    exact ⟨highSymbolFault_eq_none_iff.2 (State.readRange_forall hvalid),
      duplicateFault_eq_none_iff.2 ⟨hnodup, fun _ _ => List.not_mem_nil⟩⟩
  have hsize := s.symbolList_length w false
  rw [exec_config_of_no_fault strict preserve hnone, commitConfig_succeed_eq]
  refine ⟨_, rfl, rfl, fun i h => ?_, fun i hi => ?_, fun b h hb => ?_⟩
  · change (symTable (s.symbolList w false))[i] = _
    rw [symTable_getElem_ite, hsize]
    exact if_ctx_congr Iff.rfl (fun hi => by rw [symbolList_getD hi]) fun _ => rfl
  · change (codeTable (s.symbolList w false))[_]? = _
    rw [Vector.getElem?_eq_getElem (hvalid i hi), codeTable_of_symbol hnodup (hvalid i hi) (hsize ▸ hi)
      (congrArg BitVec.toNat (symbolList_getD hi))]
  · refine codeTable_of_no_symbol h fun i hi => ?_
    rw [hsize] at hi
    rw [symbolList_getD hi]
    exact hb i hi

/-- No check of a default list fails (R102). -/
theorem configFault_default (s : State) (w : Width) : configFault s w true = none := by
  obtain ⟨-, hlow, hnodup⟩ := defaultSymbols_valid w
  have hhigh : highSymbolFault 0 (s.symbolList w true) = none := highSymbolFault_eq_none_iff.2 hlow
  have hdup : duplicateFault 0 [] (s.symbolList w true) = none :=
    duplicateFault_eq_none_iff.2 ⟨hnodup, fun _ _ => List.not_mem_nil⟩
  simp [configFault, hhigh, hdup]

/-- Settles O18: the default lists are valid alphabets; at W = 4 the list is R102's. -/
theorem configDefaultAlwaysSucceeds : Obligations.ConfigDefaultAlwaysSucceeds := by
  intro s w strict preserve
  obtain ⟨hlen, hlow, hnodup⟩ := defaultSymbols_valid w
  rw [exec_config_of_no_fault strict preserve (configFault_default s w), commitConfig_succeed_eq]
  refine ⟨_, rfl, rfl, ?_, ?_⟩
  · exact (commitConfig_configured s w strict preserve hlen hlow hnodup).of_sameTables ⟨rfl, rfl, rfl, rfl⟩
  · rintro rfl
    change ((symTable Config.defaultSymbols4).toList.take 16).map BitVec.toNat = _
    decide

end Sys2Proof.Machine

/-! SUPPORT. PACK and UNPACK on the machine (41_codec4.md R120 to R127): the policies, the order of the checks, and the bytes
the commands write. -/

namespace Sys2Proof.Machine

/-! ### The two policies (R121, R122) -/

theorem State.code_eq_codeOf (s : State) (x : Symbol) {n : Nat} (h : n < 128) (hx : x.toNat = n) :
    s.code x = s.codeOf[n] := by
  subst hx
  rfl

/-- Settles O23: the seven bits of a byte below 128 are the byte, and masking gives the seven bits. -/
theorem encodePolicies : Obligations.EncodePolicies := by
  refine fun s b => ⟨fun hstrict => ⟨fun hhigh => ?_, fun hlow => ?_⟩, fun hlenient hlow => ?_⟩
  · simp [State.encode, hstrict, State.encodeStrict, hhigh]
  · have hbits : (b.setWidth 7).toNat = b.toNat := by
      rw [BitVec.toNat_setWidth, Nat.mod_eq_of_lt hlow]
    simp only [State.encode, hstrict, if_true, State.encodeStrict, if_neg (Nat.not_le.2 hlow)]
    exact s.code_eq_codeOf _ hlow hbits
  · have hbits : (b.setWidth 7).toNat = (b &&& 0x7F#8).toNat := by
      rw [BitVec.toNat_setWidth, BitVec.toNat_and]
      exact (Nat.and_two_pow_sub_one_eq_mod b.toNat 7).symm
    simp only [State.encode, hlenient, Bool.false_eq_true, if_false, State.encodeLenient, Config.lenientUnmappedCode]
    rw [s.code_eq_codeOf _ hlow hbits]

/-! ### The checks PACK and UNPACK share (R124, R127) -/

/-- The checks of the configuration, of SRC_LEN and of the two ranges, and then those of the command. -/
def transferFault (s : State) (rest : Option SpeFault) : Option SpeFault :=
  notConfiguredFault s <|>
    lengthFault .srcLen s.srcLen.toNat 0 <|>
    overlapFault s.srcRange s.dstRange <|>
    rangeFault s.platform .source s.srcRange <|>
    rangeFault s.platform .destination s.dstRange <|>
    rest

theorem packFault_eq_transferFault (s : State) :
    packFault s =
      transferFault s
        (overflowFault (packedSize s.width s.srcLen.toNat) s.dstCap.toNat <|>
          unsupportedFault s 0 (s.readRange s.srcRange)) := rfl

theorem unpackFault_eq_transferFault (s : State) :
    unpackFault s =
      transferFault s
        (malformedFault s.width (s.readRange s.srcRange) 0 <|>
          lengthFault .decoded (decodedLength s.width (s.readRange s.srcRange)) 0 <|>
          overflowFault (decodedLength s.width (s.readRange s.srcRange)) s.dstCap.toNat) := rfl

section Transfer
variable {s : State} {rest : Option SpeFault}

/-- Past the shared checks the command's own decide. -/
theorem transferFault_of_pass (hcfg : s.status.cfgOk = true) (hlen : s.srcLen.toNat ≤ 2 ^ 31 - 1)
    (hsep : Separate s.srcRange s.dstRange) (hsrc : Admitted s.platform s.srcRange)
    (hdst : Admitted s.platform s.dstRange) : transferFault s rest = rest := by
  simp [transferFault, notConfiguredFault_eq_none_iff.2 hcfg, lengthFault_eq_none_iff.2 hlen,
    overlapFault_eq_none_iff.2 hsep, rangeFault_eq_none_iff.2 hsrc, rangeFault_eq_none_iff.2 hdst]

/-- The order of the shared checks, for an outcome that is fault entry with the first fault; `later` is what holds once they
all pass. -/
theorem transferFaults_in_order {o : Host.Outcome State Fault Refusal} {later : Prop} (hcfg : s.status.cfgOk = true)
    (ho : ∀ f, transferFault s rest = some f → o = .next (s.faultEnd f.code f.sub f.val f.pos))
    (hlater : transferFault s rest = rest → later) :
    (2 ^ 31 - 1 < s.srcLen.toNat → o = .next (s.faultEnd .lengthError 0#8 1 0)) ∧
    (s.srcLen.toNat ≤ 2 ^ 31 - 1 →
      (¬Separate s.srcRange s.dstRange → o = .next (s.faultEnd .overlap 0#8 0 0)) ∧
      (Separate s.srcRange s.dstRange →
        (∀ a, RefusedAt s.platform s.srcRange a → o = .next (s.faultEnd .busError 0#8 1 a)) ∧
        (Admitted s.platform s.srcRange →
          (∀ a, RefusedAt s.platform s.dstRange a → o = .next (s.faultEnd .busError 0#8 2 a)) ∧
          (Admitted s.platform s.dstRange → later)))) := by
  have hconf := notConfiguredFault_eq_none_iff.2 hcfg
  refine ⟨fun hlen => ho ⟨.lengthError, 0#8, 1, 0⟩ (by simp [transferFault, hconf, lengthFault_of_gt hlen, LengthId.number]),
    fun hlen => ?_⟩
  have hlen' := lengthFault_eq_none_iff (id := .srcLen) (pos := 0).2 hlen
  refine ⟨fun hsep => ho ⟨.overlap, 0#8, 0, 0⟩
    (by simp [transferFault, hconf, hlen', overlapFault_of_not_separate hsep]), fun hsep => ?_⟩
  have hsep' := overlapFault_eq_none_iff.2 hsep
  refine ⟨fun a ha => ho ⟨.busError, 0#8, 1, a⟩
    (by simp [transferFault, hconf, hlen', hsep', rangeFault_of_refusedAt ha, RangeId.number]), fun hsrc => ?_⟩
  have hsrc' := rangeFault_eq_none_iff (id := .source).2 hsrc
  refine ⟨fun a ha => ho ⟨.busError, 0#8, 2, a⟩
    (by simp [transferFault, hconf, hlen', hsep', hsrc', rangeFault_of_refusedAt ha, RangeId.number]),
    fun hdst => hlater (transferFault_of_pass hcfg hlen hsep hsrc hdst)⟩

end Transfer

/-! ### The order of the checks of PACK (R124) -/

theorem exec_pack_of_fault {s : State} {f : SpeFault} (h : packFault s = some f) :
    exec .pack s = .next (s.faultEnd f.code f.sub f.val f.pos) := by
  simp only [exec, execPack_eq, h, failWith_eq_faultEnd]

theorem State.readRange_getElem (s : State) (r : Range) {k : Nat} (h : k < (s.readRange r).length) :
    (s.readRange r)[k] = s.mem.read (r.base + k) :=
  Memory.readBytes_get s.mem r.base r.len k (by simpa using h)

theorem State.readRange_getD (s : State) (r : Range) {k : Nat} (h : k < r.len) :
    (s.readRange r).getD k 0#8 = s.mem.read (r.base + k) := by
  have hk : k < (s.readRange r).length := by rwa [State.readRange_length]
  rw [List.getD_eq_getElem _ _ hk, State.readRange_getElem]

/-- Settles O22: the shared checks, the capacity, and then the first byte without a code. -/
theorem packFaultsInOrder : Obligations.PackFaultsInOrder := by
  intro s hcfg
  refine transferFaults_in_order hcfg (fun f hf => exec_pack_of_fault hf) fun hpass => ⟨fun hcap => ?_, ?_⟩
  · refine exec_pack_of_fault (f := ⟨.dstOverflow, 0#8, 0, packedSize s.width s.srcLen.toNat⟩) ?_
    rw [packFault_eq_transferFault, hpass, overflowFault_of_lt hcap]
    rfl
  · intro hcap i hi hnone hfirst
    have hk : i < (s.readRange s.srcRange).length := by rwa [State.readRange_length]
    have hunsupported := unsupportedFault_eq_some (s := s) (i := 0) hk (by rw [State.readRange_getElem]; exact hnone)
      fun j hj => by rw [State.readRange_getElem]; exact Option.isSome_iff_ne_none.2 (hfirst j hj)
    refine exec_pack_of_fault (f := ⟨.unsupportedChar, 0#8, (s.mem.read (s.srcAddr.toNat + i)).toNat, i⟩) ?_
    rw [packFault_eq_transferFault, hpass, overflowFault_eq_none_iff.2 hcap, hunsupported, State.readRange_getElem,
      Nat.zero_add]
    rfl

/-! ### The order of the checks of UNPACK (R127) -/

theorem exec_unpack_of_fault {s : State} {f : SpeFault} (h : unpackFault s = some f) :
    exec .unpack s = .next (s.faultEnd f.code f.sub f.val f.pos) := by
  simp only [exec, execUnpack_eq, h, failWith_eq_faultEnd]

/-- Settles O25: the shared checks, those of the buffer's bytes (`wellFormednessChecksInOrder`), the decoded length and the
capacity. -/
theorem unpackFaultsInOrder : Obligations.UnpackFaultsInOrder := by
  intro s hcfg
  refine transferFaults_in_order hcfg (fun f hf => exec_unpack_of_fault hf) fun hpass => ?_
  have malformed : ∀ sub, malformedSub s.width (s.readRange s.srcRange) = some sub →
      exec .unpack s = .next (s.faultEnd .malformed sub 0 0) := fun sub hsub => by
    refine exec_unpack_of_fault (f := ⟨.malformed, sub, 0, 0⟩) ?_
    rw [unpackFault_eq_transferFault, hpass, malformedFault_of_malformedSub hsub]
    rfl
  have hlength : (s.readRange s.srcRange).length = s.srcLen.toNat := State.readRange_length s s.srcRange
  have byte : ∀ k, k < s.srcLen.toNat → (s.readRange s.srcRange).getD k 0#8 = s.mem.read (s.srcAddr.toNat + k) :=
    fun k hk => State.readRange_getD s s.srcRange hk
  have checks := fun (L f : Nat) (hlen : 2 ≤ s.srcLen.toNat)
      (hf : f = (s.mem.read (s.srcAddr.toNat + s.srcLen.toNat - 1)).toNat) =>
    (wellFormednessChecksInOrder s.width (s.readRange s.srcRange) (s.srcLen.toNat - 1) L f).2.2
      (hlength.symm ▸ hlen) (hlength.symm ▸ rfl)
      (by rw [byte _ (by omega), ← Nat.add_sub_assoc (by omega)]; exact hf)
  have hlast : 2 ≤ s.srcLen.toNat → (s.readRange s.srcRange).getD (s.srcLen.toNat - 1 - 1) 0#8 =
      s.mem.read (s.srcAddr.toNat + s.srcLen.toNat - 2) := fun hlen => by
    rw [byte _ (by omega)]
    congr 1
    omega
  refine ⟨fun hlen => malformed 1#8 (malformedSub_of_length_one _ (hlength.trans hlen)), fun hlen hf => ?_,
    fun hlen hw hf hpad => ?_, ?_, malformed, fun hwell => ⟨fun hdec => ?_, fun hdec hcap => ?_⟩⟩
  · obtain ⟨hflag, -, -⟩ := checks 0 _ hlen rfl
    exact malformed 2#8 (hflag hf)
  · have hone : (s.mem.read (s.srcAddr.toNat + s.srcLen.toNat - 1)).toNat = 1 := congrArg BitVec.toNat hf
    obtain ⟨-, hfour, -⟩ := checks (2 * (s.srcLen.toNat - 1) - 1) 1 hlen hone.symm
    obtain ⟨-, hpadding, -⟩ := hfour (by decide) hw rfl
    exact malformed 3#8 (hpadding rfl (by rwa [hlast hlen]))
  · rintro W B L f hlen hw rfl rfl hf hlt hL
    obtain ⟨-, -, hfive⟩ := checks L f hlen hf
    obtain ⟨-, hsize, hrest⟩ := hfive hlt hw hL
    refine ⟨fun h => malformed 1#8 (hsize h), fun hpos hB hr hpad => ?_⟩
    obtain ⟨hpadding, -⟩ := hrest hpos hB
    exact malformed 3#8 (hpadding hr (by rwa [hlast hlen]))
  · refine exec_unpack_of_fault (f := ⟨.lengthError, 0#8, 6, 0⟩) ?_
    rw [unpackFault_eq_transferFault, hpass, malformedFault_eq_none_iff.2 hwell, lengthFault_of_gt hdec]
    rfl
  · refine exec_unpack_of_fault
      (f := ⟨.dstOverflow, 0#8, 0, decodedLength s.width (s.readRange s.srcRange)⟩) ?_
    rw [unpackFault_eq_transferFault, hpass, malformedFault_eq_none_iff.2 hwell, lengthFault_eq_none_iff.2 hdec,
      overflowFault_of_lt hcap]
    rfl

/-! ### What PACK writes (R123, R124) -/

theorem State.encodeAll_getElem {s : State} {bs : List Byte} (h : ∀ b ∈ bs, (s.encode b).isSome = true) (k : Nat)
    (hk : k < (s.encodeAll bs).length) :
    (s.encode (bs[k]'(State.encodeAll_length h ▸ hk))).map BitVec.toNat = some (s.encodeAll bs)[k] := by
  induction bs generalizing k with
  | nil => simp [State.encodeAll] at hk
  | cons b bs ih =>
    simp only [List.forall_mem_cons] at h
    obtain ⟨hb, hrest⟩ := h
    obtain ⟨c, hc⟩ := Option.isSome_iff_exists.1 hb
    have hcons := State.encodeAll_cons hc bs
    cases k with
    | zero => simp [hc, hcons]
    | succ k =>
      have hk' : k < (s.encodeAll bs).length := by simpa [hcons] using hk
      simpa only [hcons, List.getElem_cons_succ] using ih hrest k hk'

section PackBytes
variable {s : State}

/-- PACK leaves every byte outside the packed buffer, and in place outside the source, as it was. -/
theorem read_packMemory_outside (h : PackReady s) {a : Nat}
    (hdst : ¬(s.dstAddr.toNat ≤ a ∧ a < s.dstAddr.toNat + packedSize s.width s.srcLen.toNat))
    (hsrc : s.cfg.preserve = true ∨ s.srcRange.contains a = false) : (packMemory s).read a = s.mem.read a := by
  simp only [packMemory]
  rw [Memory.read_writeBytes_outside _ _ _ (by rw [packBytes_srcRange_length h]; omega)]
  split_ifs with hpreserve
  · rfl
  · have hout : ¬(s.srcAddr.toNat ≤ a ∧ a < s.srcAddr.toNat + s.srcLen.toNat) := by
      rw [← Bool.not_eq_true, Range.contains_iff] at hsrc
      exact hsrc.resolve_left hpreserve
    rw [Memory.read_writeBytes_outside _ _ _ (by rw [List.length_map, encodeAll_srcRange_length h]; omega)]

/-- In place the codes stand over the source; the packed buffer, in another range, does not reach them. -/
theorem read_packMemory_inPlace (hwf : s.mem.wf = true) (h : PackReady s) (hinPlace : s.cfg.preserve = false) {k : Nat}
    (hk : k < (s.encodeAll (s.readRange s.srcRange)).length) :
    (packMemory s).read (s.srcAddr.toNat + k) = BitVec.ofNat 8 (s.encodeAll (s.readRange s.srcRange))[k] := by
  have hlen := encodeAll_srcRange_length h
  have hpacked := packBytes_srcRange_length h
  obtain ⟨-, -, hsep, hsrc, -, hfit, -⟩ := h
  have hend := Admitted.end_le hsrc s.srcAddr.isLt.le le_rfl
  simp only [State.srcRange, State.dstRange, Separate] at hsep hend
  simp only [packMemory, hinPlace, Bool.false_eq_true, if_false]
  rw [Memory.read_writeBytes_outside _ _ _ (by omega), Memory.read_writeBytes_inside hwf _ _ (by
    rw [List.length_map, hlen]; exact hend) k (by rwa [List.length_map]), List.getElem_map]

end PackBytes

/-- Settles O21 from what PACK writes at the destination, over the source, and nowhere else. -/
theorem packWritesThePackedBuffer : Obligations.PackWritesThePackedBuffer := by
  intro s hwf h
  have hlen := encodeAll_srcRange_length h
  have hpacked := packBytes_srcRange_length h
  refine ⟨packMemory s, s.encodeAll (s.readRange s.srcRange), exec_pack_of_ready h, packMemory_wf hwf h, hlen,
    fun k hk => ?_, hpacked, fun k hk => ?_, fun hinPlace k hk => read_packMemory_inPlace hwf h hinPlace hk,
    fun a hdst hsrc => read_packMemory_outside h hdst hsrc⟩
  · obtain ⟨-, -, -, -, -, -, hcodes⟩ := h
    have hcode := State.encodeAll_getElem (State.readRange_forall hcodes) k hk
    rwa [State.readRange_getElem] at hcode
  · have hread := readBytes_packMemory hwf h
    rw [← Memory.readBytes_get _ _ (packedSize s.width s.srcLen.toNat) k (hpacked ▸ hk)]
    simp only [hread]

/-! ### What UNPACK writes (R127) -/

section UnpackBytes
variable {s : State}

theorem State.symbol_eq (s : State) {c : Nat} (h : c < 64) : s.symbol c = s.sym[c].setWidth 8 := by
  rw [State.symbol, Vector.getElem?_eq_getElem h]
  rfl

theorem Width.size_le (w : Width) : 2 ^ w.bits ≤ 64 := by cases w <;> decide

theorem read_unpackMemory_outside (h : UnpackReady s) {a : Nat}
    (ha : ¬(s.dstAddr.toNat ≤ a ∧ a < s.dstAddr.toNat + decodedLength s.width (s.readRange s.srcRange))) :
    (unpackMemory s).read a = s.mem.read a := by
  obtain ⟨-, -, -, -, -, hwell, -, -⟩ := h
  exact Memory.read_writeBytes_outside _ _ _ (by rw [symbols_length_of_wellFormed hwell]; omega)

end UnpackBytes

/-- Settles O24: a well-formed buffer has as many codes as its decoded length, and their symbols go to the destination. -/
theorem unpackWritesTheSymbols : Obligations.UnpackWritesTheSymbols := by
  intro s hwf h
  have hfit := symbols_fit h
  have hout := fun a => read_unpackMemory_outside (a := a) h
  have hexec := exec_unpack_of_ready h
  have hwf' := unpackMemory_wf hwf h
  obtain ⟨-, -, -, -, -, hwell, -, -⟩ := h
  obtain ⟨hlen, hlt⟩ := codes_of_wellFormed hwell
  refine ⟨unpackMemory s, _, rfl, hlen, hlen ▸ hexec, hwf', fun k hk => ?_, fun a ha => hout a (hlen ▸ ha)⟩
  have hcode := hlt _ (List.getElem_mem hk)
  have h64 := hcode.trans_le s.width.size_le
  refine ⟨hcode, h64, ?_⟩
  have hk' : k < (s.symbols (s.readRange s.srcRange)).length := by rwa [State.symbols, List.length_map]
  rw [unpackMemory, Memory.read_writeBytes_inside hwf _ _ hfit k hk', ← State.symbol_eq s h64]
  simp only [State.symbols, List.getElem_map]

end Sys2Proof.Machine

/-! SUPPORT. CMP, PCMP, SEARCH and PSEARCH on any collection (43_search.md R160 to R172): the order of the checks, the answer
of a comparison, and what a search does at each interval it comes to. -/

namespace Sys2Proof.Machine

/-! ### Comparisons (R163, R166, R167) -/

section Comparisons
variable {s : State}

theorem exec_comparison {i : Instr} (h : i = .cmp ∨ i = .pcmp) (s : State) :
    ∃ mode, exec i s = .next (s.compareCommand mode) := by
  rcases h with rfl | rfl
  · exact ⟨.exact, rfl⟩
  · exact ⟨.prefixed, rfl⟩

theorem compareCommand_of_fault {f : SpeFault} (h : compareFault s = some f) (mode : Mode) :
    s.compareCommand mode = s.faultEnd f.code f.sub f.val f.pos := by
  simp only [State.compareCommand, h, failWith_eq_faultEnd]

/-- A comparison that meets no fault answers how the candidate compares with the key. -/
theorem compareCommand_of_ready (h : CompareReady s) (mode : Mode) :
    s.compareCommand mode =
      s.successEnd s.mem (stringOrder mode.isPrefixed s.key (s.symbols (s.readRange s.srcRange))) := by
  simp only [State.compareCommand, compareFault_eq_none_iff.2 h, succeed_eq_successEnd, State.compare, Config.keyOrder,
    compareSymbols_eq_stringOrder, State.key]

end Comparisons

section StringOrder
variable {key x : List Byte}

theorem stringOrder_exact_eq_zero_iff : stringOrder false key x = 0 ↔ plain x = plain key := by
  rw [stringOrder_eq_zero_iff, plain_injective.eq_iff]
  simp

theorem stringOrder_eq_neg_one_iff {prefixed : Bool} : stringOrder prefixed key x = -1 ↔ plain x < plain key := by
  rw [← stringOrder_neg_iff (prefixed := prefixed)]
  have hlow := neg_one_le_stringOrder (prefixed := prefixed) (key := key) (x := x)
  omega

theorem stringOrder_exact_eq_one_iff : stringOrder false key x = 1 ↔ plain key < plain x := by
  have hlow := neg_one_le_stringOrder (prefixed := false) (key := key) (x := x)
  have hhigh := stringOrder_le_one (prefixed := false) (key := key) (x := x)
  rw [← not_le, le_iff_eq_or_lt, ← stringOrder_exact_eq_zero_iff, ← stringOrder_neg_iff (prefixed := false)]
  omega

theorem stringOrder_prefixed_eq_zero_iff : stringOrder true key x = 0 ↔ plain key <+: plain x := by
  rw [stringOrder_eq_zero_iff, plain_prefix_iff]
  exact ⟨fun h => h.elim (fun heq => heq ▸ List.prefix_refl _) And.right, fun h => .inr ⟨rfl, h⟩⟩

/-- Where the key does not start the string, the modes agree. -/
theorem stringOrder_prefixed_of_not_prefix (h : ¬plain key <+: plain x) :
    stringOrder true key x = stringOrder false key x := by
  rw [plain_prefix_iff] at h
  simp [stringOrder, h]

end StringOrder

/-- Settles O33: both commands answer `stringOrder`, CMP in exact mode and PCMP in PREFIX mode. -/
theorem comparisonsAnswerTheOrder : Obligations.ComparisonsAnswerTheOrder := by
  rintro s x k hready rfl rfl
  exact ⟨_, _, congrArg Host.Outcome.next (compareCommand_of_ready hready .exact),
    congrArg Host.Outcome.next (compareCommand_of_ready hready .prefixed), stringOrder_exact_eq_zero_iff,
    stringOrder_eq_neg_one_iff, stringOrder_exact_eq_one_iff, stringOrder_prefixed_eq_zero_iff,
    stringOrder_prefixed_of_not_prefix⟩

/-- Settles O34: `compareFault` is the first check that fails. -/
theorem comparisonFaultsInOrder : Obligations.ComparisonFaultsInOrder := by
  intro s i hi hcfg
  obtain ⟨mode, hexec⟩ := exec_comparison hi s
  have faults : ∀ f, compareFault s = some f → exec i s = .next (s.faultEnd f.code f.sub f.val f.pos) := fun f hf =>
    hexec.trans (congrArg _ (compareCommand_of_fault hf mode))
  have hconf := notConfiguredFault_eq_none_iff.2 hcfg
  refine ⟨fun hsrc => faults ⟨.lengthError, 0#8, 1, 0⟩
    (by simp [compareFault, hconf, lengthFault_of_gt hsrc, LengthId.number]), fun hsrc => ?_⟩
  have hsrc' := lengthFault_eq_none_iff (id := .srcLen) (pos := 0).2 hsrc
  refine ⟨fun hkey => faults ⟨.lengthError, 0#8, 3, 0⟩
    (by simp [compareFault, hconf, hsrc', lengthFault_of_gt hkey, LengthId.number]), fun hkey => ?_⟩
  have hkey' := lengthFault_eq_none_iff (id := .keyLen) (pos := 0).2 hkey
  refine ⟨fun a ha => faults ⟨.busError, 0#8, 1, a⟩
    (by simp [compareFault, hconf, hsrc', hkey', rangeFault_of_refusedAt ha, RangeId.number]), fun hadm => ?_⟩
  have hadm' := rangeFault_eq_none_iff (id := .source).2 hadm
  refine ⟨fun a ha => faults ⟨.busError, 0#8, 3, a⟩
    (by simp [compareFault, hconf, hsrc', hkey', hadm', rangeFault_of_refusedAt ha, RangeId.number]),
    fun hadmKey sub hsub => faults ⟨.malformed, sub, 0, 0⟩ ?_⟩
  simp [compareFault, hconf, hsrc', hkey', hadm', rangeFault_eq_none_iff.2 hadmKey, malformedFault_of_malformedSub hsub]

/-! ### Visits of an element (R171) -/

section Visits
variable {s : State} {nulltol : Bool} {mode : Mode} {mid : Nat} {f : SpeFault}

theorem visit_of_absent (h : (s.descriptor mid).len = absentLen) :
    visit s s.key mode false mid = .error ⟨.absentElement, 0#8, 0, mid⟩ := by
  have hd : descriptorAt s.mem s.colAddr.toNat mid = s.descriptor mid := rfl
  simp [visit, hd, h]

theorem visit_of_elementFault (h : (s.descriptor mid).len ≠ absentLen)
    (hf : elementFault s mid (s.descriptor mid) = some f) : visit s s.key mode nulltol mid = .error f := by
  have hd : descriptorAt s.mem s.colAddr.toNat mid = s.descriptor mid := rfl
  simp [visit, hd, h, hf]

/-- The order of the checks of a visit, for an outcome that is fault entry with what the visit raises. -/
theorem elementFaults_in_order {o : Host.Outcome State Fault Refusal} {d : Descriptor} (hd : d = s.descriptor mid)
    (ho : ∀ f, visit s s.key mode nulltol mid = .error f → o = .next (s.faultEnd f.code f.sub f.val f.pos)) :
    (nulltol = false → d.len = 0xFFFFFFFF → o = .next (s.faultEnd .absentElement 0#8 0 mid)) ∧
    (2 ^ 31 - 1 < d.len → d.len < 0xFFFFFFFF → o = .next (s.faultEnd .lengthError 0#8 5 mid)) ∧
    (d.len ≤ 2 ^ 31 - 1 →
      (∀ a, RefusedAt s.platform d.range a → o = .next (s.faultEnd .busError 0#8 5 a)) ∧
      (Admitted s.platform d.range → ∀ sub, malformedSub s.width (s.readRange d.range) = some sub →
        o = .next (s.faultEnd .malformed sub 0 mid))) := by
  subst hd
  have habsent : absentLen = 0xFFFFFFFF := rfl
  refine ⟨fun hn hlen => ?_, fun hlo hhi => ?_, fun hlen => ?_⟩
  · subst hn
    exact ho _ (visit_of_absent hlen)
  · exact ho ⟨.lengthError, 0#8, 5, mid⟩ (visit_of_elementFault (by omega)
      (by simp [elementFault, lengthFault_of_gt hlo, LengthId.number]))
  · have hlen' := lengthFault_eq_none_iff (id := .element) (pos := mid).2 hlen
    refine ⟨fun a ha => ho ⟨.busError, 0#8, 5, a⟩ (visit_of_elementFault (by omega)
        (by simp [elementFault, hlen', rangeFault_of_refusedAt ha, RangeId.number])),
      fun hadm sub hsub => ho ⟨.malformed, sub, 0, mid⟩ (visit_of_elementFault (by omega) ?_)⟩
    simp [elementFault, hlen', rangeFault_eq_none_iff.2 hadm, malformedFault_of_malformedSub hsub]

end Visits

/-! ### One round of the loop (R171) -/

section Loop
variable {probe : Nat → Except SpeFault Int} {fuel mid : Nat} {lo hi c : Int}

theorem searchLoop_of_lt (h : hi < lo) : searchLoop probe fuel lo hi = .ok (-(lo + 1)) := by
  cases fuel with
  | zero => rfl
  | succ fuel => rw [searchLoop, if_neg (by omega)]

theorem searchLoop_of_error {f : SpeFault} (h : lo ≤ hi) (hmid : (mid : Int) = (lo + hi) / 2)
    (hp : probe mid = .error f) : searchLoop probe (fuel + 1) lo hi = .error f := by
  simp [searchLoop, h, ← hmid, hp]

theorem searchLoop_of_zero (h : lo ≤ hi) (hmid : (mid : Int) = (lo + hi) / 2) (hp : probe mid = .ok 0) :
    searchLoop probe (fuel + 1) lo hi = .ok mid := by
  simp [searchLoop, h, ← hmid, hp]

theorem searchLoop_of_neg (h : lo ≤ hi) (hmid : (mid : Int) = (lo + hi) / 2) (hp : probe mid = .ok c) (hc : c < 0) :
    searchLoop probe (fuel + 1) lo hi = searchLoop probe fuel (mid + 1) hi := by
  simp [searchLoop, h, ← hmid, hp, hc]

theorem searchLoop_of_pos (h : lo ≤ hi) (hmid : (mid : Int) = (lo + hi) / 2) (hp : probe mid = .ok c) (hc : 0 < c) :
    searchLoop probe (fuel + 1) lo hi = searchLoop probe fuel lo (mid - 1) := by
  simp [searchLoop, h, ← hmid, hp, hc, hc.le.not_gt]

end Loop

/-! ### The intervals a search comes to (R171) -/

section Intervals
variable {s : State} {nulltol : Bool} {mode : Mode} {lo hi : Int} {mid : Nat}

theorem SearchInterval.bounds {prefixed : Bool} (h : SearchInterval s nulltol prefixed lo hi) :
    0 ≤ lo ∧ hi < s.colLen.toNat ∧ lo ≤ hi + 1 := by
  induction h with
  | whole => omega
  | upper _ _ _ _ _ ih => omega
  | lower _ _ _ _ _ ih => omega

/-- At an interval the search comes to, its result is that of the loop between its ends, with fuel enough. -/
theorem SearchInterval.exists_loop (h : SearchInterval s nulltol mode.isPrefixed lo hi) :
    ∃ fuel : Nat, hi + 1 - lo ≤ fuel ∧
      s.searchResult mode nulltol = searchLoop (visit s s.key mode nulltol) fuel lo hi := by
  induction h with
  | whole => exact ⟨s.colLen.toNat, by omega, rfl⟩
  | upper _ hle hmid hready hneg ih =>
    obtain ⟨fuel, hfuel, hloop⟩ := ih
    obtain ⟨k, rfl⟩ : ∃ k, fuel = k + 1 := ⟨fuel - 1, by omega⟩
    exact ⟨k, by omega, hloop.trans (searchLoop_of_neg hle hmid (visit_of_elementReady hready mode) hneg)⟩
  | lower _ hle hmid hready hpos ih =>
    obtain ⟨fuel, hfuel, hloop⟩ := ih
    obtain ⟨k, rfl⟩ : ∃ k, fuel = k + 1 := ⟨fuel - 1, by omega⟩
    exact ⟨k, by omega, hloop.trans (searchLoop_of_pos hle hmid (visit_of_elementReady hready mode) hpos)⟩

/-- An interval that is not empty is not the last the fuel allows. -/
theorem SearchInterval.exists_loop_succ (h : SearchInterval s nulltol mode.isPrefixed lo hi) (hle : lo ≤ hi) :
    ∃ fuel : Nat, s.searchResult mode nulltol = searchLoop (visit s s.key mode nulltol) (fuel + 1) lo hi := by
  obtain ⟨fuel, hfuel, hloop⟩ := h.exists_loop
  obtain ⟨k, rfl⟩ : ∃ k, fuel = k + 1 := ⟨fuel - 1, by omega⟩
  exact ⟨k, hloop⟩

theorem searchResult_of_empty (h : SearchInterval s nulltol mode.isPrefixed lo hi) (hlt : hi < lo) :
    s.searchResult mode nulltol = .ok (-lo - 1) := by
  obtain ⟨fuel, -, hloop⟩ := h.exists_loop
  rw [hloop, searchLoop_of_lt hlt]
  congr 1
  omega

theorem searchResult_of_match (h : SearchInterval s nulltol mode.isPrefixed lo hi) (hle : lo ≤ hi)
    (hmid : (mid : Int) = (lo + hi) / 2) (hready : ElementReady s nulltol mid)
    (hzero : s.elementOrder mode.isPrefixed mid = 0) : s.searchResult mode nulltol = .ok mid := by
  obtain ⟨fuel, hloop⟩ := h.exists_loop_succ hle
  exact hloop.trans (searchLoop_of_zero hle hmid (hzero ▸ visit_of_elementReady hready mode))

theorem searchResult_of_visit_error (h : SearchInterval s nulltol mode.isPrefixed lo hi) (hle : lo ≤ hi)
    (hmid : (mid : Int) = (lo + hi) / 2) {f : SpeFault} (hf : visit s s.key mode nulltol mid = .error f) :
    s.searchResult mode nulltol = .error f := by
  obtain ⟨fuel, hloop⟩ := h.exists_loop_succ hle
  exact hloop.trans (searchLoop_of_error hle hmid hf)

/-- An interval ends the search: it is empty, or the element in its middle fails a check or matches. -/
def EndsSearch (s : State) (nulltol prefixed : Bool) (lo hi : Int) (mid : Nat) : Prop :=
  hi < lo ∨ (lo ≤ hi ∧ (mid : Int) = (lo + hi) / 2 ∧
    (¬ElementReady s nulltol mid ∨ s.elementOrder prefixed mid = 0))

/-- From any interval it comes to, the search comes to one that ends it: the intervals shrink. -/
theorem SearchInterval.exists_ends {prefixed : Bool} (h : SearchInterval s nulltol prefixed lo hi) {fuel : Nat}
    (hfuel : hi + 1 - lo ≤ fuel) :
    ∃ (lo' hi' : Int) (mid : Nat), SearchInterval s nulltol prefixed lo' hi' ∧ EndsSearch s nulltol prefixed lo' hi' mid := by
  induction fuel generalizing lo hi with
  | zero => exact ⟨lo, hi, 0, h, .inl (by omega)⟩
  | succ fuel ih =>
    obtain ⟨hlo, -, -⟩ := h.bounds
    by_cases hle : lo ≤ hi
    · obtain ⟨mid, hmid⟩ : ∃ mid : Nat, (mid : Int) = (lo + hi) / 2 := ⟨((lo + hi) / 2).toNat, by omega⟩
      by_cases hready : ElementReady s nulltol mid
      · rcases lt_trichotomy (s.elementOrder prefixed mid) 0 with hneg | hzero | hpos
        · exact ih (h.upper hle hmid hready hneg) (by omega)
        · exact ⟨lo, hi, mid, h, .inr ⟨hle, hmid, .inr hzero⟩⟩
        · exact ih (h.lower hle hmid hready hpos) (by omega)
      · exact ⟨lo, hi, mid, h, .inr ⟨hle, hmid, .inl hready⟩⟩
    · exact ⟨lo, hi, 0, h, .inl (by omega)⟩

theorem exists_endsSearch (s : State) (nulltol prefixed : Bool) :
    ∃ (lo hi : Int) (mid : Nat), SearchInterval s nulltol prefixed lo hi ∧ EndsSearch s nulltol prefixed lo hi mid :=
  SearchInterval.exists_ends (fuel := s.colLen.toNat) .whole (by omega)

end Intervals

/-! ### What a search answers (R170 to R173) -/

section Searches
variable {s : State} {nulltol : Bool} {mode : Mode} {f : SpeFault}

theorem exec_search {i : Instr} (h : i = .search nulltol ∨ i = .psearch nulltol) (s : State) :
    ∃ mode, exec i s = .next (s.searchCommand mode nulltol) := by
  rcases h with rfl | rfl
  · exact ⟨.exact, rfl⟩
  · exact ⟨.prefixed, rfl⟩

theorem exec_search_of_prefixed (s : State) (nulltol prefixed : Bool) :
    ∃ mode : Mode, mode.isPrefixed = prefixed ∧
      exec (if prefixed = true then .psearch nulltol else .search nulltol) s = .next (s.searchCommand mode nulltol) := by
  cases prefixed with
  | false => exact ⟨.exact, rfl, rfl⟩
  | true => exact ⟨.prefixed, rfl, rfl⟩

theorem searchCommand_of_fault (h : searchFault s nulltol = some f) :
    s.searchCommand mode nulltol = s.faultEnd f.code f.sub f.val f.pos := by
  simp only [State.searchCommand, h, failWith_eq_faultEnd]

theorem searchCommand_of_error (hready : SearchReady s nulltol) (hf : s.searchResult mode nulltol = .error f) :
    s.searchCommand mode nulltol = s.faultEnd f.code f.sub f.val f.pos := by
  simp only [State.searchCommand, searchFault_eq_none_iff.2 hready, hf, failWith_eq_faultEnd]

/-- With every element sound, the interval that ends a search gives an insertion point or a match. -/
theorem searchCommand_of_elementsReady (mode : Mode) (hready : SearchReady s nulltol) (helems : ElementsReady s nulltol) :
    ∃ r : Int, s.searchCommand mode nulltol = s.successEnd s.mem r ∧ -(s.colLen.toNat : Int) - 1 ≤ r ∧
      r < s.colLen.toNat ∧ (0 ≤ r → s.elementOrder mode.isPrefixed r.toNat = 0) := by
  obtain ⟨lo, hi, mid, hint, hends⟩ := exists_endsSearch s nulltol mode.isPrefixed
  obtain ⟨hlo, hhi, hle⟩ := hint.bounds
  rcases hends with hlt | ⟨hle, hmid, hfail | hzero⟩
  · exact ⟨-lo - 1, searchCommand_of_result hready (searchResult_of_empty hint hlt), by omega, by omega, by omega⟩
  · exact absurd (helems mid (by omega)) hfail
  · exact ⟨mid, searchCommand_of_result hready (searchResult_of_match hint hle hmid (helems mid (by omega)) hzero),
      by omega, by omega, fun _ => by rwa [Int.toNat_natCast]⟩

end Searches

/-- Settles O35: a match is an element that equals the key, or in PREFIX mode one that starts with it. -/
theorem searchesAnswerAnIndexOrAnInsertionPoint : Obligations.SearchesAnswerAnIndexOrAnInsertionPoint := by
  intro s nulltol hready helems
  obtain ⟨r, hr, hrlo, hrhi, hrmatch⟩ := searchCommand_of_elementsReady .exact hready helems
  obtain ⟨q, hq, hqlo, hqhi, hqmatch⟩ := searchCommand_of_elementsReady .prefixed hready helems
  exact ⟨r, q, congrArg Host.Outcome.next hr, congrArg Host.Outcome.next hq, hrlo, hrhi, hqlo, hqhi,
    fun h => State.elementOrder_exact_eq_zero_iff.1 (hrmatch h),
    fun h => State.elementOrder_prefixed_eq_zero_iff.1 (hqmatch h)⟩

/-- Settles O38: the whole collection is the empty interval from 0. -/
theorem emptyCollectionGivesMinusOne : Obligations.EmptyCollectionGivesMinusOne := by
  intro s nulltol hready hlen
  have hzero : s.colLen.toNat = 0 := congrArg BitVec.toNat hlen
  have answer : ∀ mode : Mode, s.searchCommand mode nulltol = s.successEnd s.mem (-1) := fun mode =>
    searchCommand_of_result hready (searchResult_of_empty (lo := 0) .whole (by omega))
  exact ⟨congrArg _ (answer .exact), congrArg _ (answer .prefixed)⟩

/-- Settles O39: `searchFault` is the first check that fails, and after it the element in the middle of the whole
collection is visited. -/
theorem searchFaultsInOrder : Obligations.SearchFaultsInOrder := by
  intro s nulltol i hi hcfg
  obtain ⟨mode, hexec⟩ := exec_search hi s
  have faults : ∀ f, searchFault s nulltol = some f → exec i s = .next (s.faultEnd f.code f.sub f.val f.pos) :=
    fun f hf => hexec.trans (congrArg _ (searchCommand_of_fault hf))
  have hconf := notConfiguredFault_eq_none_iff.2 hcfg
  refine ⟨fun hn hw => faults ⟨.illegalCmd, 2#8, 0, 0⟩ (by simp [searchFault, hconf, hn, nulltolFault_of_ne_w4 hw]),
    fun hn => ?_⟩
  have hn' := nulltolFault_eq_none_iff.2 hn
  refine ⟨fun hkey => faults ⟨.lengthError, 0#8, 3, 0⟩
    (by simp [searchFault, hconf, hn', lengthFault_of_gt hkey, LengthId.number]), fun hkey => ?_⟩
  have hkey' := lengthFault_eq_none_iff (id := .keyLen) (pos := 0).2 hkey
  refine ⟨fun hcol => faults ⟨.lengthError, 0#8, 4, 0⟩
    (by simp [searchFault, hconf, hn', hkey', lengthFault_of_gt hcol, LengthId.number]), fun hcol => ?_⟩
  have hcol' := lengthFault_eq_none_iff (id := .colLen) (pos := 0).2 hcol
  refine ⟨fun a ha => faults ⟨.busError, 0#8, 3, a⟩
    (by simp [searchFault, hconf, hn', hkey', hcol', rangeFault_of_refusedAt ha, RangeId.number]), fun hadm => ?_⟩
  have hadm' := rangeFault_eq_none_iff (id := .key).2 hadm
  refine ⟨fun a ha => faults ⟨.busError, 0#8, 4, a⟩
    (by simp [searchFault, hconf, hn', hkey', hcol', hadm', rangeFault_of_refusedAt ha, RangeId.number]),
    fun htable hpos mid d hmid hd => elementFaults_in_order (mode := mode) hd fun f hf => ?_⟩
  have hresult : s.searchResult mode nulltol = .error f :=
    searchResult_of_visit_error (mid := mid) .whole (by omega) (by omega) hf
  exact hexec.trans (congrArg _ (searchCommand_of_error ⟨hcfg, hn, hkey, hcol, hadm, htable⟩ hresult))

/-- Settles O40: at each interval the loop answers, matches, faults or goes on; a search that faults has come to the interval
that ends it, and only an element that fails a check can have ended it so. -/
theorem searchesEndAtTheElementTheyVisit : Obligations.SearchesEndAtTheElementTheyVisit := by
  rintro s nulltol prefixed i hready rfl
  obtain ⟨mode, rfl, hexec⟩ := exec_search_of_prefixed s nulltol prefixed
  have answers : ∀ {r : Int}, s.searchResult mode nulltol = .ok r →
      exec (if mode.isPrefixed = true then .psearch nulltol else .search nulltol) s = .next (s.successEnd s.mem r) :=
    fun hr => hexec.trans (congrArg _ (searchCommand_of_result hready hr))
  refine ⟨fun lo hi hint => ⟨fun hlt => answers (searchResult_of_empty hint hlt), fun hle mid d hmid hd => ?_⟩,
    exists_endsSearch s nulltol mode.isPrefixed, fun t ht herr => ?_⟩
  · exact ⟨fun helem hzero => answers (searchResult_of_match hint hle hmid helem hzero),
      elementFaults_in_order (mode := mode) hd fun f hf =>
        hexec.trans (congrArg _ (searchCommand_of_error hready (searchResult_of_visit_error hint hle hmid hf)))⟩
  · have noAnswer : ∀ {r : Int}, s.searchResult mode nulltol ≠ .ok r := fun hr => by
      obtain rfl := Host.Outcome.next.inj ((answers hr).symm.trans ht)
      simp [State.successEnd] at herr
    obtain ⟨lo, hi, mid, hint, hlt | ⟨hle, hmid, hfail | hzero⟩⟩ := exists_endsSearch s nulltol mode.isPrefixed
    · exact absurd (searchResult_of_empty hint hlt) noAnswer
    · exact ⟨lo, hi, mid, hint, hle, hmid, hfail⟩
    · by_cases helem : ElementReady s nulltol mid
      · exact absurd (searchResult_of_match hint hle hmid helem hzero) noAnswer
      · exact ⟨lo, hi, mid, hint, hle, hmid, helem⟩

end Sys2Proof.Machine

/-! SUPPORT. Commands issued again on the state they left (20_memory.md R59): the checks and the results do not depend on the
completion fields, and the bytes written are written again. -/

namespace Sys2Proof.Machine

/-! ### What completion does not change -/

/-- A state with other completion fields (R42, R205): what success and fault entry both leave. -/
def State.complete (s : State) (result errVal errPos : Word) (status : Status) : State :=
  { s with result := result, errVal := errVal, errPos := errPos, status := { status with cfgOk := s.status.cfgOk } }

section Complete
variable (s : State) (result errVal errPos : Word) (status : Status)

theorem State.failWith_eq_complete (f : SpeFault) :
    s.failWith f = s.complete 0#32 (BitVec.ofNat 32 f.val) (BitVec.ofNat 32 f.pos) (s.failWith f).status := rfl

theorem State.succeed_eq_complete (res : Int) :
    s.succeed res = s.complete (BitVec.ofInt 32 res) 0#32 0#32 (s.succeed res).status := rfl

theorem unsupportedFault_complete (i : Nat) (bs : List Byte) :
    unsupportedFault (s.complete result errVal errPos status) i bs = unsupportedFault s i bs := by
  induction bs generalizing i with
  | nil => rfl
  | cons b bs ih =>
    have hencode : (s.complete result errVal errPos status).encode b = s.encode b := rfl
    rw [unsupportedFault, unsupportedFault, hencode, ih]

theorem packFault_complete : packFault (s.complete result errVal errPos status) = packFault s := by
  rw [packFault, unsupportedFault_complete]
  rfl

theorem unpackFault_complete : unpackFault (s.complete result errVal errPos status) = unpackFault s := rfl

theorem compareFault_complete : compareFault (s.complete result errVal errPos status) = compareFault s := rfl

theorem searchFault_complete (nulltol : Bool) :
    searchFault (s.complete result errVal errPos status) nulltol = searchFault s nulltol := rfl

theorem failWith_complete (f : SpeFault) : (s.complete result errVal errPos status).failWith f = s.failWith f := rfl

theorem succeed_complete (res : Int) : (s.complete result errVal errPos status).succeed res = s.succeed res := rfl

theorem compareCommand_complete (mode : Mode) :
    (s.complete result errVal errPos status).compareCommand mode = s.compareCommand mode := by
  have hcompare : ∀ b key, (s.complete result errVal errPos status).compare b key mode = s.compare b key mode :=
    fun _ _ => rfl
  simp only [State.compareCommand, compareFault_complete, failWith_complete, succeed_complete, hcompare]
  rfl

theorem searchCommand_complete (mode : Mode) (nulltol : Bool) :
    (s.complete result errVal errPos status).searchCommand mode nulltol = s.searchCommand mode nulltol := by
  have hresult : (s.complete result errVal errPos status).searchResult mode nulltol = s.searchResult mode nulltol := rfl
  simp only [State.searchCommand, searchFault_complete, hresult, failWith_complete, succeed_complete]

end Complete

/-! ### Writing bytes again (R53) -/

section Rewrite
variable {m : Memory} {a : Nat} {bs : List Byte}

theorem Memory.writeBytes_writeBytes (h : m.wf = true) (ha : a + bs.length ≤ Config.addressSpace) :
    (m.writeBytes a bs).writeBytes a bs = m.writeBytes a bs := by
  have h' := Memory.wf_writeBytes h a bs ha
  refine Memory.ext_read (Memory.wf_writeBytes h' a bs ha) h' fun x => ?_
  by_cases hx : a ≤ x ∧ x < a + bs.length
  · obtain ⟨k, rfl⟩ := Nat.exists_eq_add_of_le hx.1
    rw [Memory.read_writeBytes_inside h' a bs ha k (by omega), Memory.read_writeBytes_inside h a bs ha k (by omega)]
  · exact Memory.read_writeBytes_outside _ a bs (by omega)

/-- A write to one of two separate ranges leaves the bytes of the other. -/
theorem Memory.readBytes_writeBytes_separate {r q : Range} (hsep : Separate r q) (m : Memory) (hfit : bs.length ≤ q.len) :
    (m.writeBytes q.base bs).readBytes r.base r.len = m.readBytes r.base r.len := by
  simp only [Memory.readBytes_eq_map]
  refine List.map_congr_left fun k hk => ?_
  have hk := List.mem_range.1 hk
  exact Memory.read_writeBytes_outside _ _ _ (by omega)

end Rewrite

/-! ### Each command again (R59) -/

section Again
variable {s t : State}

theorem compareCommand_again (s : State) (mode : Mode) :
    (s.compareCommand mode).compareCommand mode = s.compareCommand mode := by
  have again : ∀ {t : State}, (∃ r v p st, t = s.complete r v p st) → t.compareCommand mode = s.compareCommand mode := by
    rintro _ ⟨r, v, p, st, rfl⟩
    exact compareCommand_complete s r v p st mode
  obtain ⟨f, hf⟩ | ⟨res, hres⟩ := s.compareCommand_cases mode
  · exact again ⟨_, _, _, _, hf.trans (s.failWith_eq_complete f)⟩
  · exact again ⟨_, _, _, _, hres.trans (s.succeed_eq_complete res)⟩

theorem searchCommand_again (s : State) (mode : Mode) (nulltol : Bool) :
    (s.searchCommand mode nulltol).searchCommand mode nulltol = s.searchCommand mode nulltol := by
  have again : ∀ {t : State}, (∃ r v p st, t = s.complete r v p st) →
      t.searchCommand mode nulltol = s.searchCommand mode nulltol := by
    rintro _ ⟨r, v, p, st, rfl⟩
    exact searchCommand_complete s r v p st mode nulltol
  obtain ⟨f, hf⟩ | ⟨res, hres⟩ := s.searchCommand_cases mode nulltol
  · exact again ⟨_, _, _, _, hf.trans (s.failWith_eq_complete f)⟩
  · exact again ⟨_, _, _, _, hres.trans (s.succeed_eq_complete res)⟩

/-- A CONFIG reads no field that it writes. -/
theorem exec_config_again {wsel : BitVec 2} {strict preserve dflt : Bool}
    (h : exec (.config wsel strict preserve dflt) s = .next t) :
    exec (.config wsel strict preserve dflt) t = .next t := by
  cases hw : Width.ofSel wsel with
  | none =>
    rw [exec_config_of_illegal strict preserve dflt hw] at h
    obtain rfl := Host.Outcome.next.inj h
    exact exec_config_of_illegal strict preserve dflt hw
  | some w =>
    obtain rfl := Width.sel_of_ofSel hw
    obtain ⟨f, hf, rfl⟩ | ⟨hnone, rfl⟩ := exec_config_cases h
    · have hf' : configFault (s.unconfigure.failWith f) w dflt = some f := hf
      exact exec_config_of_fault strict preserve hf'
    · have hnone' : configFault ((s.commitConfig w strict preserve (s.symbolList w dflt)).succeed w.size) w dflt = none :=
        hnone
      exact exec_config_of_no_fault strict preserve hnone'

theorem exec_pack_failWith {f : SpeFault} (h : packFault s = some f) :
    exec .pack (s.failWith f) = .next (s.failWith f) := by
  have hf' : packFault (s.failWith f) = some f := by rwa [s.failWith_eq_complete, packFault_complete]
  simp only [exec, execPack_eq, hf']
  rfl

theorem exec_unpack_failWith {f : SpeFault} (h : unpackFault s = some f) :
    exec .unpack (s.failWith f) = .next (s.failWith f) := by
  have hf' : unpackFault (s.failWith f) = some f := by rwa [s.failWith_eq_complete, unpackFault_complete]
  simp only [exec, execUnpack_eq, hf']
  rfl

theorem packMemory_of_preserve (h : s.cfg.preserve = true) :
    packMemory s =
      s.mem.writeBytes s.dstAddr.toNat (packBytes s.width (s.encodeAll (s.readRange s.srcRange))) := by
  simp only [packMemory, h, if_true]

/-- Not in place, PACK leaves its source: it reads the same string and writes the same buffer. -/
theorem exec_pack_again (hwf : s.mem.wf = true) (hpreserve : s.cfg.preserve = true) (h : PackReady s) :
    exec .pack (s.successEnd (packMemory s) (packedSize s.width s.srcLen.toNat)) =
      .next (s.successEnd (packMemory s) (packedSize s.width s.srcLen.toNat)) := by
  have hmem := packMemory_of_preserve hpreserve
  have hlen := packBytes_srcRange_length h
  have hfits := packBytes_fits h
  obtain ⟨hcfg, hsrcLen, hsep, hsrc, hdst, hfit, hcodes⟩ := h
  have hread : (packMemory s).readBytes s.srcAddr.toNat s.srcLen.toNat = s.readRange s.srcRange := by
    rw [hmem]
    exact Memory.readBytes_writeBytes_separate hsep s.mem (hlen.trans_le hfit)
  have hready : PackReady (s.successEnd (packMemory s) (packedSize s.width s.srcLen.toNat)) := by
    refine ⟨hcfg, hsrcLen, hsep, hsrc, hdst, hfit, fun k hk => ?_⟩
    have hbyte : (packMemory s).read (s.srcAddr.toNat + k) = s.mem.read (s.srcAddr.toNat + k) :=
      Memory.read_of_readBytes_eq hread hk
    exact (congrArg (fun b => (s.encode b).isSome) hbyte).trans (hcodes k hk)
  have hagain : packMemory (s.successEnd (packMemory s) (packedSize s.width s.srcLen.toNat)) = packMemory s :=
    calc packMemory (s.successEnd (packMemory s) (packedSize s.width s.srcLen.toNat))
        = (packMemory s).writeBytes s.dstAddr.toNat (packBytes s.width
            (s.encodeAll ((packMemory s).readBytes s.srcAddr.toNat s.srcLen.toNat))) :=
          packMemory_of_preserve (s := s.successEnd _ _) hpreserve
      _ = (packMemory s).writeBytes s.dstAddr.toNat
            (packBytes s.width (s.encodeAll (s.readRange s.srcRange))) := by rw [hread]
      _ = packMemory s := by rw [hmem]; exact Memory.writeBytes_writeBytes hwf hfits
  rw [exec_pack_of_ready hready, hagain]
  rfl

/-- UNPACK leaves its source: it reads the same buffer and writes the same symbols. -/
theorem exec_unpack_again (hwf : s.mem.wf = true) (h : UnpackReady s) :
    exec .unpack (s.successEnd (unpackMemory s) (decodedLength s.width (s.readRange s.srcRange))) =
      .next (s.successEnd (unpackMemory s) (decodedLength s.width (s.readRange s.srcRange))) := by
  have hfits := symbols_fit h
  obtain ⟨hcfg, hsrcLen, hsep, hsrc, hdst, hwell, hdec, hcap⟩ := h
  have hread : (unpackMemory s).readBytes s.srcAddr.toNat s.srcLen.toNat = s.readRange s.srcRange :=
    Memory.readBytes_writeBytes_separate hsep s.mem ((symbols_length_of_wellFormed hwell).trans_le hcap)
  have hdecoded : decodedLength s.width ((unpackMemory s).readBytes s.srcAddr.toNat s.srcLen.toNat) =
      decodedLength s.width (s.readRange s.srcRange) := congrArg _ hread
  have hready : UnpackReady (s.successEnd (unpackMemory s) (decodedLength s.width (s.readRange s.srcRange))) :=
    ⟨hcfg, hsrcLen, hsep, hsrc, hdst, (congrArg _ hread).trans hwell, hdecoded.trans_le hdec, hdecoded.trans_le hcap⟩
  have hagain : unpackMemory (s.successEnd (unpackMemory s) (decodedLength s.width (s.readRange s.srcRange))) =
      unpackMemory s :=
    calc unpackMemory (s.successEnd (unpackMemory s) (decodedLength s.width (s.readRange s.srcRange)))
        = (unpackMemory s).writeBytes s.dstAddr.toNat
            (s.symbols ((unpackMemory s).readBytes s.srcAddr.toNat s.srcLen.toNat)) := rfl
      _ = (unpackMemory s).writeBytes s.dstAddr.toNat (s.symbols (s.readRange s.srcRange)) := by rw [hread]
      _ = unpackMemory s := Memory.writeBytes_writeBytes hwf hfits
  rw [exec_unpack_of_ready hready, hagain]
  exact congrArg (fun n : Nat => Host.Outcome.next (s.successEnd (unpackMemory s) n)) hdecoded

end Again

/-- Settles O45: each command, on the state it left, answers that state. -/
theorem commandsAreIdempotent : Obligations.CommandsAreIdempotent := by
  intro i s t hwf hpreserve hexec
  refine ⟨t, ?_, rfl, rfl, rfl, rfl, rfl⟩
  cases i with
  | config wsel strict preserve dflt => exact exec_config_again hexec
  | pack =>
    obtain ⟨f, hf, rfl⟩ | ⟨hnone, rfl⟩ := exec_pack_cases hexec
    · exact exec_pack_failWith hf
    · exact exec_pack_again hwf (hpreserve rfl) (packFault_eq_none_iff.1 hnone)
  | unpack =>
    obtain ⟨f, hf, rfl⟩ | ⟨hnone, rfl⟩ := exec_unpack_cases hexec
    · exact exec_unpack_failWith hf
    · exact exec_unpack_again hwf (unpackFault_eq_none_iff.1 hnone)
  | search nulltol =>
    obtain rfl : s.searchCommand .exact nulltol = t := Host.Outcome.next.inj hexec
    exact congrArg Host.Outcome.next (searchCommand_again s .exact nulltol)
  | psearch nulltol =>
    obtain rfl : s.searchCommand .prefixed nulltol = t := Host.Outcome.next.inj hexec
    exact congrArg Host.Outcome.next (searchCommand_again s .prefixed nulltol)
  | cmp =>
    obtain rfl : s.compareCommand .exact = t := Host.Outcome.next.inj hexec
    exact congrArg Host.Outcome.next (compareCommand_again s .exact)
  | pcmp =>
    obtain rfl : s.compareCommand .prefixed = t := Host.Outcome.next.inj hexec
    exact congrArg Host.Outcome.next (compareCommand_again s .prefixed)

end Sys2Proof.Machine
